-- ==== Sys2Proof/Word.lean ====
section
/-! DEFINITION. The word types of the Huffman codec core: the command word, and the index types of its three tables.
Rule numbers cite the rules R<n> of spec/. -/

namespace Sys2Proof

/-- A command word, `CMD_W = 16` bits (R8, R67). -/
abbrev Word := BitVec 16

/-- A symbol, one of `NSYM = 257` values: a byte value `0..255` or the sentinel `256` (R8, R16). -/
abbrev Symbol := Fin 257

/-- A node index, `0..512`: an entry of the node memory of `NODE_CAP = 513` entries (R8, R23). -/
abbrev NodeIdx := Fin 513

/-- A number of node entries in use, `0..513` (R35). -/
abbrev NodeCount := Fin 514

/-- The end-of-stream sentinel symbol, 256 (R8). -/
abbrev sentinel : Symbol := 256

end Sys2Proof
end

