-- ==== Sys2Proof/Config.lean ====
section
/-! DEFINITION. What one implementation of the core fixes: the parameters `MAGIC` and `COUNT_W` of R8, and the depth bound.
The state carries the parameters (R28 reads them as the hard-wired registers MAGIC_ID and COUNT_WIDTH), so that a claim
about every state is a claim about every value of them. -/

namespace Sys2Proof

/-- The parameters of one core (R8). No step changes them. -/
structure Params where
  /-- `MAGIC`, the 32-bit constant that opens a compressed stream. -/
  magic : BitVec 32
  /-- `COUNT_W`, the width of a frequency count in bits. -/
  countW : Nat
deriving DecidableEq, Repr

/-- `WEIGHT_W = COUNT_W + 9`, the width of a node weight (R8, R21). -/
def Params.weightW (p : Params) : Nat := p.countW + 9

/-- The widths the spec's registers admit: FREQ[256] = 1 fits a count (R22), and COUNT_WIDTH is an 8-bit register (R28).
DEDUCED, log entry 6. -/
def Params.wf (p : Params) : Bool := decide (1 ≤ p.countW ∧ p.countW ≤ 255)

/-- The value of `MAGIC` after reset. The spec leaves it OPEN (R8, 92_eei_decisions.md D5): a constant with no body, so that
nothing can be proved of its value. Log entry 5. -/
opaque Config.magic : BitVec 32

/-- The default `COUNT_W` of R8. Log entry 6. -/
def Config.countW : Nat := 32

/-- `MAX_DEPTH`: the largest number of edges from the root to a node (R8). -/
def maxDepth : Nat := 256

end Sys2Proof
end

