-- ==== Sys2Proof/Syntax.lean ====
section
/-! DEFINITION. The command set: one constructor per row of spec/opcode_table.json (R70). -/

namespace Sys2Proof

/-- A command (R70). Only ENCODE_SYM carries an operand, its 9-bit `ARG` field (R68, R69). -/
inductive Instr where
  | nop
  | clear
  | freqScan
  | buildTree
  | genCodes
  | writeMagic
  | writeTree
  | encodeSym (arg : BitVec 9)
  | encodeScan
  | closeOut
  | readMagic
  | readTree
  | decodeBit
  | decodeRun
deriving DecidableEq, Repr

end Sys2Proof
end

