-- ==== Sys2Proof/WellFormed.lean ====
section
/-! DEFINITION. Which terms of `Instr` are commands of the core. -/

namespace Sys2Proof

/-- The one check on operands: the operand of ENCODE_SYM is a symbol, `0..256` (R73). -/
def Instr.wf : Instr → Bool
  | .encodeSym arg => decide (arg.toNat ≤ 256)
  | .nop | .clear | .freqScan | .buildTree | .genCodes | .writeMagic | .writeTree | .encodeScan | .closeOut
  | .readMagic | .readTree | .decodeBit | .decodeRun => true

end Sys2Proof
end

