-- ==== Sys2Proof/Decode.lean ====
section
/-! DEFINITION. The command decoder of R78, total on all 65536 words and rejecting by name, and the encoder of R70's table. -/

namespace Sys2Proof

/-- Why a word is illegal (R71 to R74). -/
inductive Illegal where
  /-- `RSV != 0` (R71). -/
  | reservedField
  /-- `OP` is 0xE or 0xF (R74). -/
  | reservedOpcode
  /-- `ARG != 0` in a command without an operand (R72). -/
  | operandNotZero
  /-- ENCODE_SYM with `ARG > 256` (R73). -/
  | symbolOutOfRange
deriving DecidableEq, Repr

/-- What the decoder answers on a word (R78). -/
inductive Decoded where
  | command (i : Instr)
  | illegal (why : Illegal)
deriving DecidableEq, Repr

/-- `OP`, bits 15:12 (R68). -/
def opField (w : Word) : BitVec 4 := w.extractLsb' 12 4

/-- `RSV`, bits 11:9 (R68). -/
def rsvField (w : Word) : BitVec 3 := w.extractLsb' 9 3

/-- `ARG`, bits 8:0 (R68, R69). -/
def argField (w : Word) : BitVec 9 := w.extractLsb' 0 9

/-- The operand-free command of an opcode (R70). -/
def operandFree (op : BitVec 4) : Option Instr :=
  match op.toNat with
  | 0x0 => some .nop
  | 0x1 => some .clear
  | 0x2 => some .freqScan
  | 0x3 => some .buildTree
  | 0x4 => some .genCodes
  | 0x5 => some .writeMagic
  | 0x6 => some .writeTree
  | 0x8 => some .encodeScan
  | 0x9 => some .closeOut
  | 0xA => some .readMagic
  | 0xB => some .readTree
  | 0xC => some .decodeBit
  | 0xD => some .decodeRun
  | _ => none

/-- `Decode(w)` of R78, its checks in the order written there. -/
def decode (w : Word) : Decoded :=
  if rsvField w ≠ 0 then .illegal .reservedField
  else if opField w = 0xE ∨ opField w = 0xF then .illegal .reservedOpcode
  else if opField w = 0x7 then
    if (argField w).toNat > 256 then .illegal .symbolOutOfRange else .command (.encodeSym (argField w))
  else if argField w ≠ 0 then .illegal .operandNotZero
  else match operandFree (opField w) with
    | some i => .command i
    | none => .illegal .reservedOpcode

/-- The command word of a command (R70's table). -/
def encode : Instr → Word
  | .nop => 0x0000
  | .clear => 0x1000
  | .freqScan => 0x2000
  | .buildTree => 0x3000
  | .genCodes => 0x4000
  | .writeMagic => 0x5000
  | .writeTree => 0x6000
  | .encodeSym arg => 0x7000 + arg.setWidth 16
  | .encodeScan => 0x8000
  | .closeOut => 0x9000
  | .readMagic => 0xA000
  | .readTree => 0xB000
  | .decodeBit => 0xC000
  | .decodeRun => 0xD000

/-- The command a decoded word stands for, if it is legal. -/
def Decoded.instr? : Decoded → Option Instr
  | .command i => some i
  | .illegal _ => none

/-- The command word made of the low `nbits` bits of `w`, as the opcode table numbers them. -/
def tableWord (nbits w : Nat) : Word := BitVec.ofNat 16 (w % 2 ^ nbits)

/-- The command the decoder reads from the opcode table's word `w` of `nbits` bits. Every command is 16 bits (R67, R77), so
a word with a bit above bit 15 is none. -/
def decodeTableWord (nbits w : Nat) : Option Instr :=
  if w % 2 ^ nbits < 2 ^ 16 then (decode (tableWord nbits w)).instr? else none

end Sys2Proof
end

