-- ==== Sys2Proof/Machine/State.lean ====
section
/-! DEFINITION. The state of the core and of the two streams bound to it, as plain data: every piece of state R18 lists, the
source and sink of R46 and R50, and the host's queue of operations (R143). Also the reasons a step can stop. -/

namespace Sys2Proof.Machine

/-- The errors of R123, except NONE. Their codes are in Ops.lean. -/
inductive Err where
  | badMagic
  | truncatedHeader
  | truncatedBody
  | illegalCommand
  | noTree
  | noCodes
  | noCode
  | countOverflow
  | hdrBadSymbol
  | hdrDupSymbol
  | hdrTooDeep
  | hdrOverflow
  | hdrLeafRoot
  | hdrNoSentinel
  | sinkClosed
  | noSymbols
deriving DecidableEq, Repr

/-- The `KIND` of a node entry (R23). -/
inductive NodeKind where
  | internal
  | leaf
deriving DecidableEq, Repr

/-- One entry of the node memory (R23). `SYM` is 0 in an internal node, `LEFT` and `RIGHT` are 0 in a leaf. The field types
hold exactly the values R23 gives the fields (log entry 8); `WEIGHT` stays below `2 ^ WEIGHT_W` (R21, log entry 9). -/
structure Node where
  kind : NodeKind
  sym : Symbol
  left : NodeIdx
  right : NodeIdx
  weight : Nat
deriving DecidableEq, Repr

/-- An entry whose every field is 0 (R24, R43). -/
def Node.zero : Node := { kind := .internal, sym := 0, left := 0, right := 0, weight := 0 }

/-- One entry of the code table (R26). -/
structure CodeEntry where
  valid : Bool
  len : BitVec 9
  bits : BitVec 256
deriving DecidableEq, Repr

/-- An entry with `VALID = 0`, so `LEN = 0` and `BITS = 0` (R26). -/
def CodeEntry.zero : CodeEntry := { valid := false, len := 0, bits := 0 }

/-- `FREQ[0..256]` (R21). -/
abbrev FreqTable := Vector Nat 257

/-- `NODE[0..512]` (R23). -/
abbrev NodeMem := Vector Node 513

/-- `CODE[0..256]` (R26). -/
abbrev CodeTable := Vector CodeEntry 257

/-- The decoder's state, `DEC_STATE` (R32). Its value 3 is never written. -/
inductive DecState where
  | atRoot
  | atNode
  | done
deriving DecidableEq, Repr

/-- The bit source `(SRC.bits, SRC.pos)` (R46), its bits in stream order. -/
structure BitSource where
  bits : List Bool
  pos : Nat
deriving DecidableEq, Repr

/-- The bit sink `(SNK.bits, SNK.closed)` (R50), its bits in stream order. -/
structure BitSink where
  bits : List Bool
  closed : Bool
deriving DecidableEq, Repr

/-- What the host can do between commands: the operations R143 lists. R7 and R124 also let the host read `SRC.pos`, and no
operation or read-port space returns it: the model has none for it either, the host reads the field `State.src` of the state
between two steps. DESIGN CHOICE, log entry 24. -/
inductive HostOp where
  /-- `Issue(w)`. -/
  | issue (w : Word)
  /-- `HostRead(space, index)`. -/
  | hostRead (space index : Nat)
  /-- `BindSource(bits)`. -/
  | bindSource (bits : List Bool)
  /-- `BindSink()`. -/
  | bindSink
  /-- `TakeSink()`. -/
  | takeSink
  /-- Power-on reset. -/
  | powerOn
deriving DecidableEq, Repr

/-- What an operation returned to the host: the word of a HostRead, or the bits of a TakeSink (R60, R143). -/
inductive HostReply where
  | value (v : Nat)
  | sinkBits (bits : List Bool)
deriving DecidableEq, Repr

/-- The state of one core, its streams and its host's queue. -/
structure State where
  /-- The hard-wired constants behind MAGIC_ID and COUNT_WIDTH (R28). -/
  params : Params
  /-- `FREQ` (R21, R22). -/
  freq : FreqTable
  /-- `NODE` (R23). -/
  node : NodeMem
  /-- `CODE` (R26). -/
  code : CodeTable
  /-- `ROOT` (R34). -/
  root : NodeIdx
  /-- `NODE_COUNT` (R35). -/
  nodeCount : NodeCount
  /-- `TREE_VALID` (R30). -/
  treeValid : Bool
  /-- `CODES_VALID` (R31). -/
  codesValid : Bool
  /-- `DEC_STATE` (R32). -/
  decState : DecState
  /-- `CUR` (R33). -/
  cur : NodeIdx
  /-- `ERR` (R36). -/
  err : BitVec 8
  /-- `ERR_CMD` (R37). -/
  errCmd : Word
  /-- `HDR_BITS` (R39). -/
  hdrBits : BitVec 32
  /-- `ENC_BITS` (R40). -/
  encBits : BitVec 32
  /-- `DEC_SYMS` (R41). -/
  decSyms : BitVec 32
  /-- The bound source, `none` until the host binds one (R46, R142). -/
  src : Option BitSource
  /-- The bound sink, `none` until the host binds one (R50, R142). -/
  snk : Option BitSink
  /-- The host's operations still to happen, oldest first: the model's own field (log entry 10). -/
  pending : List HostOp
  /-- What the last HostRead or TakeSink returned: the model's own field (log entry 10). -/
  reply : Option HostReply
deriving DecidableEq, Repr

/-- Why a step faults. -/
inductive Fault where
  /-- Raised by GEN_CODES and WRITE_TREE when `TREE_VALID = 1` and the walk from `ROOT` goes below `MAX_DEPTH` edges: a
  state that R25 and R30 rule out. Safe: no state the rules lead to is such a state (log entry 7). -/
  | treeDeeperThanMax
deriving DecidableEq, Repr

/-- Why a step is refused. -/
inductive Refusal where
  /-- Raised by exec's arm of a command that has no meaning yet. Safe. No arm of this model raises it. -/
  | notModelled (mnemonic : String)
  /-- Raised by a command that reaches a read or rewind of a source the host never bound (R143, K2-10). Safe (log entry 3). -/
  | sourceUnbound
  /-- Raised by a command that reaches a sink the host never bound, and by TakeSink then (R143, K2-10). Safe (log entry 3). -/
  | sinkUnbound
deriving DecidableEq, Repr

/-- What a step or a command answers. -/
abbrev Result := Host.Outcome State Fault Refusal

/-- The state right after power-on reset (R43, R140): no stream bound (R142), nothing queued by the host. -/
def State.reset : State where
  params := { magic := Config.magic, countW := Config.countW }
  freq := (Vector.replicate 257 0).set 256 1
  node := Vector.replicate 513 Node.zero
  code := Vector.replicate 257 CodeEntry.zero
  root := 0
  nodeCount := 0
  treeValid := false
  codesValid := false
  decState := .atRoot
  cur := 0
  err := 0
  errCmd := 0
  hdrBits := 0
  encBits := 0
  decSyms := 0
  src := none
  snk := none
  pending := []
  reply := none

end Sys2Proof.Machine
end

