-- ==== Sys2Proof/Machine/Bits.lean ====
section
/-! DEFINITION. Bit sequences and their values, most significant bit first (R11, R53). -/

namespace Sys2Proof.Machine

/-- `bits_n(v) = v[n-1], ..., v[0]` (R11). -/
def bitsOf : Nat → Nat → List Bool
  | 0, _ => []
  | n + 1, v => v.testBit n :: bitsOf n v

/-- The natural whose most-significant-bit-first sequence is the list: the sum of R47. -/
def natOfBits (bs : List Bool) : Nat := bs.foldl (fun v b => 2 * v + b.toNat) 0

/-- Bytes as the bits of a stream, `bits_8` of each in order (R46, R144). -/
def bitsOfBytes (bytes : List (BitVec 8)) : List Bool := bytes.flatMap fun b => bitsOf 8 b.toNat

end Sys2Proof.Machine
end

