-- ==== Sys2Proof/Machine/Ops.lean ====
section
/-! DEFINITION. The operations the commands share: the stream primitives (R47 to R52), the error entry (R124) and the sticky
error state (R125), the checks for a bound stream (R143), the writes of whole tables, and the counters' addition (R38). -/

namespace Sys2Proof.Machine

/-! ## The bit source -/

/-- `ReadBits(n)`: the next `n` bits as a natural and the source moved past them, or `none` for EXHAUSTED, the source then
not moved (R47, R48). -/
def BitSource.readBits (n : Nat) (r : BitSource) : Option (Nat × BitSource) :=
  if r.pos + n ≤ r.bits.length then
    some (natOfBits ((r.bits.drop r.pos).take n), { r with pos := r.pos + n })
  else none

/-- `ResetToStart()` (R49). -/
def BitSource.resetToStart (r : BitSource) : BitSource := { r with pos := 0 }

/-- The number of bits not yet read: the bound on the passes of every loop that reads the source (R86, R120). -/
def BitSource.remaining (r : BitSource) : Nat := r.bits.length - r.pos

/-- `BindSource(bits)` (R46, R143). -/
def BitSource.bind (bits : List Bool) : BitSource := { bits := bits, pos := 0 }

/-! ## The bit sink -/

/-- `WriteBits(n, v)`: the low `n` bits of `v`, most significant first (R51). -/
def BitSink.writeBits (n v : Nat) (k : BitSink) : BitSink := { k with bits := k.bits ++ bitsOf n v }

/-- How many zero bits make a length of `len` bits whole bytes (R52). -/
def padLength (len : Nat) : Nat := (8 - len % 8) % 8

/-- `Close()` (R52). -/
def BitSink.close (k : BitSink) : BitSink :=
  { bits := k.bits ++ List.replicate (padLength k.bits.length) false, closed := true }

/-- `BindSink()` (R50, R143). -/
def BitSink.empty : BitSink := { bits := [], closed := false }

/-! ## Errors -/

/-- The code of an error, as `ERR` holds it (R123). -/
def Err.code : Err → BitVec 8
  | .badMagic => 0x01
  | .truncatedHeader => 0x02
  | .truncatedBody => 0x03
  | .illegalCommand => 0x04
  | .noTree => 0x05
  | .noCodes => 0x06
  | .noCode => 0x07
  | .countOverflow => 0x08
  | .hdrBadSymbol => 0x09
  | .hdrDupSymbol => 0x0A
  | .hdrTooDeep => 0x0B
  | .hdrOverflow => 0x0C
  | .hdrLeafRoot => 0x0D
  | .hdrNoSentinel => 0x0E
  | .sinkClosed => 0x0F
  | .noSymbols => 0x10

/-- `ErrorEntry(E, w)`: `ERR` and `ERR_CMD` are written and nothing else is (R124). -/
def errorEntry (e : Err) (w : Word) (s : State) : State := { s with err := e.code, errCmd := w }

/-- `raise E` while executing word `w`: the command ends, what it wrote before stays (R13, R126). -/
def raise (e : Err) (w : Word) (s : State) : Result := .next (errorEntry e w s)

/-- The first lines of `Issue(w)` for a word that is not CLEAR: while `ERR != 0` it has no effect (R85, R125). -/
def whenNoError (s : State) (body : Result) : Result := if s.err = 0 then body else .next s

/-- An illegal word: nothing but the error entry (R75), and not even that while `ERR != 0` (R85). -/
def illegalWord (w : Word) (s : State) : Result := whenNoError s (raise .illegalCommand w s)

/-- The outcome of a procedure that can raise: the state `σ` it worked on is kept either way (R13, R126). -/
inductive Ran (σ α : Type) where
  | done (a : α) (t : σ)
  | raised (e : Err) (t : σ)
deriving DecidableEq, Repr

/-! ## Streams a command needs -/

/-- A command goes on with the bound source; one that the host never bound refuses it (R143, log entry 3). -/
def needSource (s : State) (k : BitSource → Result) : Result :=
  match s.src with
  | none => .refused .sourceUnbound
  | some r => k r

/-- The check `if SNK.closed == 1: raise SINK_CLOSED` of a writing command with word `w` (R51, R123); one that the host never
bound refuses it (R143, log entry 3). -/
def needOpenSink (w : Word) (s : State) (k : BitSink → Result) : Result :=
  match s.snk with
  | none => .refused .sinkUnbound
  | some d => if d.closed then raise .sinkClosed w s else k d

/-- The commands before which the host binds a source (R143's table). -/
def needsSource : Instr → Bool
  | .freqScan | .encodeScan | .readMagic | .readTree | .decodeBit | .decodeRun => true
  | .nop | .clear | .buildTree | .genCodes | .writeMagic | .writeTree | .encodeSym _ | .closeOut => false

/-- The commands before which the host binds a sink (R143's table). -/
def needsSink : Instr → Bool
  | .writeMagic | .writeTree | .encodeSym _ | .encodeScan | .closeOut | .decodeBit | .decodeRun => true
  | .nop | .clear | .freqScan | .buildTree | .genCodes | .readMagic | .readTree => false

/-! ## Tables -/

/-- Every count 0 but the sentinel's, which is 1 (R22, R43, R87). -/
def emptyFreq : FreqTable := (Vector.replicate 257 0).set 256 1

/-- Every node entry 0 (R43). -/
def emptyNodes : NodeMem := Vector.replicate 513 Node.zero

/-- Every code entry 0 (R43). -/
def emptyCodes : CodeTable := Vector.replicate 257 CodeEntry.zero

/-- The symbols in ascending order. -/
def allSymbols : List Symbol := List.finRange 257

/-- The start of BUILD_TREE and READ_TREE: the old tree and codes are dropped (R90, R105). -/
def dropTree (s : State) : State :=
  { s with node := emptyNodes, code := emptyCodes, treeValid := false, codesValid := false, root := 0, nodeCount := 0 }

/-- The end of a successful BUILD_TREE or READ_TREE: the tree at `root` is valid and the decoder stands at its root
(R30, R32, R33, R41, R116). -/
def installTree (root : NodeIdx) (s : State) : State :=
  { s with root := root, treeValid := true, decState := .atRoot, cur := root, decSyms := 0 }

/-- All core state at its reset value; the parameters, the streams and the host's fields as they were (R43, R84, R140 to
R142). CLEAR and power-on reset share it. -/
def clearCore (s : State) : State :=
  { s with
    freq := emptyFreq, node := emptyNodes, code := emptyCodes
    root := 0, nodeCount := 0, cur := 0
    treeValid := false, codesValid := false, decState := .atRoot
    err := 0, errCmd := 0
    hdrBits := 0, encBits := 0, decSyms := 0 }

/-! ## Counters -/

/-- An event counter grows by `k`, modulo `2 ^ 32` (R38). -/
def bump (c : BitVec 32) (k : Nat) : BitVec 32 := c + BitVec.ofNat 32 k

end Sys2Proof.Machine
end

