-- ==== Sys2Proof/Machine/Operands.lean ====
section
/-! DEFINITION. The one operand a command carries, and the symbols and bytes read from a stream, as indices of the tables
(R69, R159). -/

namespace Sys2Proof.Machine

/-- The symbol a natural stands for, if it is one of `0..256` (R73, R108: no other values are valid symbols). -/
def symbolOf? (v : Nat) : Option Symbol := if h : v < 257 then some ⟨v, h⟩ else none

/-- The operand of ENCODE_SYM: `ARG`, zero-extended (R69). -/
def argSymbol? (arg : BitVec 9) : Option Symbol := symbolOf? arg.toNat

/-- The symbol of a byte that `ReadBits(8)` returned, a natural below 256 (R47). -/
def byteSymbol (b : Nat) : Symbol := ⟨b % 256, by omega⟩

end Sys2Proof.Machine
end

