-- ==== Sys2Proof/Machine/CodeTable.lean ====
section
/-! DEFINITION. The code-table generator: GEN_CODES (43_code_table.md). -/

namespace Sys2Proof.Machine

/-- `walk(i, len, bits)`: depth first, left before right (R97). The first argument is how many more nodes a path may hold; a
path has at most `MAX_DEPTH + 1` (R25), and past that the answer is `none` (log entry 7). -/
def walk (mem : NodeMem) : Nat → NodeIdx → Nat → BitVec 256 → CodeTable → Option CodeTable
  | 0, _, _, _, _ => none
  | r + 1, i, len, bits, codes =>
    match mem[i].kind with
    | .leaf => some (codes.set mem[i].sym.val { valid := true, len := BitVec.ofNat 9 len, bits := bits })
    | .internal =>
      match walk mem r mem[i].left (len + 1) (2 * bits) codes with
      | none => none
      | some codes' => walk mem r mem[i].right (len + 1) (2 * bits + 1) codes'

/-- `Exec_GEN_CODES` (R97, R99). -/
def genCodes (s : State) : Result :=
  if s.treeValid then
    match walk s.node (maxDepth + 1) s.root 0 0 emptyCodes with
    | none => .fault .treeDeeperThanMax
    | some codes => .next { s with code := codes, codesValid := true }
  else .next { s with code := emptyCodes, codesValid := true }

/-- GEN_CODES: every leaf's root-to-leaf path (R97). -/
def execGenCodes (s : State) : Result := whenNoError s (genCodes s)

end Sys2Proof.Machine
end

