-- ==== Sys2Proof/Machine/Control.lean ====
section
/-! DEFINITION. The control commands NOP and CLEAR (40_control.md). -/

namespace Sys2Proof.Machine

/-- NOP: nothing (R83). -/
def execNop (s : State) : Result := whenNoError s (.next s)

/-- CLEAR: all core state to its reset value, the streams untouched (R84). It is the one command that runs while `ERR != 0`
(R85). -/
def execClear (s : State) : Result := .next (clearCore s)

end Sys2Proof.Machine
end

