-- ==== Sys2Proof/Machine/Decoder.lean ====
section
/-! DEFINITION. The decoder state machine: DECODE_BIT and DECODE_RUN (46_decoder.md). -/

namespace Sys2Proof.Machine

/-- What the decoder works on (R116) besides the tree. -/
structure Decoding where
  src : BitSource
  snk : BitSink
  decState : DecState
  cur : NodeIdx
  decSyms : BitVec 32
deriving DecidableEq, Repr

/-- The child that bit `b` leads to: left for 0, right for 1 (R117). -/
def childOf (mem : NodeMem) (i : NodeIdx) (b : Nat) : NodeIdx := if b = 0 then mem[i].left else mem[i].right

/-- The move to node `n` once the bit is read (R117). -/
def arrive (mem : NodeMem) (root n : NodeIdx) (d : Decoding) : Decoding :=
  match mem[n].kind with
  | .internal => { d with cur := n, decState := .atNode }
  | .leaf =>
    if mem[n].sym = sentinel then { d with cur := n, decState := .done }
    else { d with
      snk := d.snk.writeBits 8 mem[n].sym.val
      decSyms := bump d.decSyms 1
      cur := root
      decState := .atRoot }

/-- `Step()` (R117). -/
def transition (mem : NodeMem) (root : NodeIdx) (d : Decoding) : Ran Decoding Unit :=
  match d.src.readBits 1 with
  | none => .raised .truncatedBody d
  | some (b, src) => .done () (arrive mem root (childOf mem d.cur b) { d with src := src })

/-- The loop `while DEC_STATE != DONE: Step()` (R119). The first argument is how many bits are left, so that with 0 of them a
further step finds the source exhausted (R120). -/
def transitions (mem : NodeMem) (root : NodeIdx) : Nat → Decoding → Ran Decoding Unit
  | 0, d => if d.decState = .done then .done () d else .raised .truncatedBody d
  | left + 1, d =>
    if d.decState = .done then .done () d
    else
      match transition mem root d with
      | .raised e d' => .raised e d'
      | .done _ d' => transitions mem root left d'

/-- What the decoder has read and written is written back. -/
def Decoding.store (d : Decoding) (s : State) : State :=
  { s with src := some d.src, snk := some d.snk, decState := d.decState, cur := d.cur, decSyms := d.decSyms }

/-- The checks DECODE_BIT and DECODE_RUN share, then `run` (R118, R119): a tree, the terminal state, an open sink. -/
def decoding (w : Word) (s : State) (run : Decoding → Ran Decoding Unit) : Result :=
  if s.treeValid then
    if s.decState = .done then .next s
    else
      needOpenSink w s fun snk =>
        needSource s fun src =>
          match run { src := src, snk := snk, decState := s.decState, cur := s.cur, decSyms := s.decSyms } with
          | .raised e d => raise e w (d.store s)
          | .done _ d => .next (d.store s)
  else raise .noTree w s

/-- `Exec_DECODE_BIT` (R118). -/
def decodeBit (s : State) : Result := decoding (encode .decodeBit) s (transition s.node s.root)

/-- DECODE_BIT: one decoder transition (R118). -/
def execDecodeBit (s : State) : Result := whenNoError s (decodeBit s)

/-- `Exec_DECODE_RUN` (R119). -/
def decodeRun (s : State) : Result :=
  decoding (encode .decodeRun) s fun d => transitions s.node s.root d.src.remaining d

/-- DECODE_RUN: decode until the sentinel (R119). -/
def execDecodeRun (s : State) : Result := whenNoError s (decodeRun s)

end Sys2Proof.Machine
end

