-- ==== Sys2Proof/Machine/Encoder.lean ====
section
/-! DEFINITION. The encoder: ENCODE_SYM, ENCODE_SCAN and CLOSE_OUT (45_encoder.md). -/

namespace Sys2Proof.Machine

/-- What the encoder works on. -/
structure Encoding where
  src : BitSource
  snk : BitSink
  encBits : BitVec 32
deriving DecidableEq, Repr

/-- `Emit(s)`: the sink and `ENC_BITS` after the code of one symbol, or `none` for NO_CODE, raised before any bit is written
(R110). -/
def emit (codes : CodeTable) (sym : Symbol) (snk : BitSink) (encBits : BitVec 32) : Option (BitSink × BitVec 32) :=
  if codes[sym].valid then
    some (snk.writeBits codes[sym].len.toNat codes[sym].bits.toNat, bump encBits codes[sym].len.toNat)
  else none

/-- `Emit(s)` within ENCODE_SCAN. -/
def Encoding.emit (codes : CodeTable) (sym : Symbol) (e : Encoding) : Ran Encoding Unit :=
  match Machine.emit codes sym e.snk e.encBits with
  | none => .raised .noCode e
  | some (snk, encBits) => .done () { e with snk := snk, encBits := encBits }

/-- The loop of R112. A pass reads 8 bits or exits, so as many passes as there are unread bits are enough: the first
argument. -/
def encodeBytes (codes : CodeTable) : Nat → Encoding → Ran Encoding Unit
  | 0, e => .done () e
  | fuel + 1, e =>
    match e.src.readBits 8 with
    | none => .done () e
    | some (b, src) =>
      match Encoding.emit codes (byteSymbol b) { e with src := src } with
      | .raised er e' => .raised er e'
      | .done _ e' => encodeBytes codes fuel e'

/-- The loop of R112, then the sentinel's code. -/
def encodeBody (codes : CodeTable) (e : Encoding) : Ran Encoding Unit :=
  match encodeBytes codes e.src.remaining e with
  | .raised er e' => .raised er e'
  | .done _ e' => e'.emit codes sentinel

/-- What the encoder has read and written is written back. -/
def Encoding.store (e : Encoding) (s : State) : State :=
  { s with src := some e.src, snk := some e.snk, encBits := e.encBits }

/-- `Exec_ENCODE_SYM(s)` for the word `w` and a symbol (R111). -/
def encodeSym (w : Word) (sym : Symbol) (s : State) : Result :=
  if s.codesValid then
    needOpenSink w s fun d =>
      match emit s.code sym d s.encBits with
      | none => raise .noCode w s
      | some (snk, encBits) => .next { s with snk := some snk, encBits := encBits }
  else raise .noCodes w s

/-- ENCODE_SYM: the code of one symbol (R111). An operand above 256 makes the word illegal (R73). -/
def execEncodeSym (arg : BitVec 9) (s : State) : Result :=
  match argSymbol? arg with
  | none => illegalWord (encode (.encodeSym arg)) s
  | some sym => whenNoError s (encodeSym (encode (.encodeSym arg)) sym s)

/-- `Exec_ENCODE_SCAN` (R112). -/
def encodeScan (s : State) : Result :=
  if s.codesValid then
    needOpenSink (encode .encodeScan) s fun d =>
      needSource s fun src =>
        match encodeBody s.code { src := src.resetToStart, snk := d, encBits := 0 } with
        | .raised er e => raise er (encode .encodeScan) (e.store s)
        | .done _ e => .next (e.store s)
  else raise .noCodes (encode .encodeScan) s

/-- ENCODE_SCAN: re-read the whole source and write its body (R112). -/
def execEncodeScan (s : State) : Result := whenNoError s (encodeScan s)

/-- `Exec_CLOSE_OUT` (R114). -/
def closeOut (s : State) : Result :=
  needOpenSink (encode .closeOut) s fun d => .next { s with snk := some d.close }

/-- CLOSE_OUT: finish the sink (R114). -/
def execCloseOut (s : State) : Result := whenNoError s (closeOut s)

end Sys2Proof.Machine
end

