-- ==== Sys2Proof/Machine/Frequency.lean ====
section
/-! DEFINITION. The frequency-table builder: FREQ_SCAN (41_frequency.md). -/

namespace Sys2Proof.Machine

/-- What FREQ_SCAN's loop works on. -/
structure Counting where
  src : BitSource
  freq : FreqTable
deriving DecidableEq, Repr

/-- The loop of R87 with its check of R88. A pass reads 8 bits or exits, so as many passes as there are unread bits are
enough (R89): the first argument. -/
def countBytes (countW : Nat) : Nat → Counting → Ran Counting Unit
  | 0, c => .done () c
  | fuel + 1, c =>
    match c.src.readBits 8 with
    | none => .done () c
    | some (b, src) =>
      let i := byteSymbol b
      if c.freq[i] = 2 ^ countW - 1 then .raised .countOverflow { c with src := src }
      else countBytes countW fuel { src := src, freq := c.freq.set i.val (c.freq[i] + 1) }

/-- The loop's results are written back. -/
def Counting.store (c : Counting) (s : State) : State := { s with src := some c.src, freq := c.freq }

/-- `Exec_FREQ_SCAN` (R87). -/
def freqScan (s : State) : Result :=
  needSource s fun src =>
    match countBytes s.params.countW src.resetToStart.remaining { src := src.resetToStart, freq := emptyFreq } with
    | .done _ c => .next (c.store s)
    | .raised e c => raise e (encode .freqScan) (c.store s)

/-- FREQ_SCAN: count the bytes of the whole source (R87). -/
def execFreqScan (s : State) : Result := whenNoError s (freqScan s)

end Sys2Proof.Machine
end

