-- ==== Sys2Proof/Machine/Serializer.lean ====
section
/-! DEFINITION. The magic number and the tree serializer and deserializer: WRITE_MAGIC, WRITE_TREE, READ_MAGIC, READ_TREE
(44_serializer.md). -/

namespace Sys2Proof.Machine

/-- `Exec_WRITE_MAGIC` (R102). -/
def writeMagic (s : State) : Result :=
  needOpenSink (encode .writeMagic) s fun d => .next { s with snk := some (d.writeBits 32 s.params.magic.toNat) }

/-- WRITE_MAGIC: the 32-bit magic number (R102). -/
def execWriteMagic (s : State) : Result := whenNoError s (writeMagic s)

/-- What WRITE_TREE works on. -/
structure HeaderWriter where
  snk : BitSink
  hdrBits : BitVec 32
deriving DecidableEq, Repr

/-- `WriteBits(n, v)` of header bits, counted in `HDR_BITS` (R39, R103). -/
def HeaderWriter.put (n v : Nat) (h : HeaderWriter) : HeaderWriter :=
  { snk := h.snk.writeBits n v, hdrBits := bump h.hdrBits n }

/-- `ser(i)` (R103). The first argument is how many more nodes a path may hold, as in `walk`; past that the answer is `none`
(log entry 7). -/
def ser (mem : NodeMem) : Nat → NodeIdx → HeaderWriter → Option HeaderWriter
  | 0, _, _ => none
  | r + 1, i, h =>
    match mem[i].kind with
    | .internal =>
      match ser mem r mem[i].left (h.put 1 0) with
      | none => none
      | some h' => ser mem r mem[i].right h'
    | .leaf => some ((h.put 1 1).put 9 mem[i].sym.val)

/-- `Exec_WRITE_TREE` (R103). -/
def writeTree (s : State) : Result :=
  if s.treeValid then
    needOpenSink (encode .writeTree) s fun d =>
      match ser s.node (maxDepth + 1) s.root { snk := d, hdrBits := 0 } with
      | none => .fault .treeDeeperThanMax
      | some h => .next { s with snk := some h.snk, hdrBits := h.hdrBits }
  else raise .noTree (encode .writeTree) s

/-- WRITE_TREE: the header of the current tree (R103). -/
def execWriteTree (s : State) : Result := whenNoError s (writeTree s)

/-- `Exec_READ_MAGIC` (R104). -/
def readMagic (s : State) : Result :=
  needSource s fun src =>
    match src.readBits 32 with
    | none => raise .badMagic (encode .readMagic) s
    | some (m, src') =>
      if m = s.params.magic.toNat then .next { s with src := some src' }
      else raise .badMagic (encode .readMagic) { s with src := some src' }

/-- READ_MAGIC: read and check the magic number (R104). -/
def execReadMagic (s : State) : Result := whenNoError s (readMagic s)

/-- What READ_TREE works on; `seen` are the leaf symbols read so far, transient state (R42). -/
structure HeaderReader where
  src : BitSource
  node : NodeMem
  count : NodeCount
  hdrBits : BitVec 32
  seen : List Symbol
deriving DecidableEq, Repr

/-- The part of `des` for a node with tag 1: the 9-bit symbol, its checks (R108), the leaf's entry. -/
def desLeaf (i : NodeIdx) (h : HeaderReader) : Ran HeaderReader NodeIdx :=
  match h.src.readBits 9 with
  | none => .raised .truncatedHeader h
  | some (v, src) =>
    let h₁ := { h with src := src, hdrBits := bump h.hdrBits 9 }
    match symbolOf? v with
    | none => .raised .hdrBadSymbol h₁
    | some sym =>
      if sym ∈ h₁.seen then .raised .hdrDupSymbol h₁
      else .done i { h₁ with
        seen := sym :: h₁.seen
        node := h₁.node.set i.val { kind := .leaf, sym := sym, left := 0, right := 0, weight := 0 } }

/-- `NODE[i].LEFT <- l` (R105). -/
def HeaderReader.setLeft (i l : NodeIdx) (h : HeaderReader) : HeaderReader :=
  { h with node := h.node.set i.val { h.node[i] with left := l } }

/-- `NODE[i].RIGHT <- r` (R105). -/
def HeaderReader.setRight (i r : NodeIdx) (h : HeaderReader) : HeaderReader :=
  { h with node := h.node.set i.val { h.node[i] with right := r } }

/-- `des(d)` (R105 to R108). The first argument is `MAX_DEPTH + 1 - d`: it is 0 exactly when `d > MAX_DEPTH`, where R107
raises HDR_TOO_DEEP. -/
def des : Nat → HeaderReader → Ran HeaderReader NodeIdx
  | 0, h => .raised .hdrTooDeep h
  | r + 1, h =>
    if hroom : h.count.val < 513 then
      let i : NodeIdx := ⟨h.count.val, hroom⟩
      let h₁ := { h with count := ⟨h.count.val + 1, by omega⟩ }
      match h₁.src.readBits 1 with
      | none => .raised .truncatedHeader h₁
      | some (tag, src) =>
        let h₂ := { h₁ with src := src, hdrBits := bump h₁.hdrBits 1 }
        if tag = 1 then desLeaf i h₂
        else
          match des r h₂ with
          | .raised e h₃ => .raised e h₃
          | .done left h₃ =>
            match des r (h₃.setLeft i left) with
            | .raised e h₄ => .raised e h₄
            | .done right h₄ => .done i (h₄.setRight i right)
    else .raised .hdrOverflow h

/-- What `des` has read and allocated is written back. -/
def HeaderReader.store (h : HeaderReader) (s : State) : State :=
  { s with src := some h.src, node := h.node, nodeCount := h.count, hdrBits := h.hdrBits }

/-- `Exec_READ_TREE` (R105), with the two checks of R109. -/
def readTree (s : State) : Result :=
  needSource s fun src =>
    match des (maxDepth + 1) { src := src, node := emptyNodes, count := 0, hdrBits := 0, seen := [] } with
    | .raised e h => raise e (encode .readTree) (h.store (dropTree s))
    | .done _ h =>
      if h.node[0].kind = .leaf then raise .hdrLeafRoot (encode .readTree) (h.store (dropTree s))
      else if sentinel ∉ h.seen then raise .hdrNoSentinel (encode .readTree) (h.store (dropTree s))
      else .next (installTree 0 (h.store (dropTree s)))

/-- READ_TREE: rebuild a tree from the header at `SRC.pos` (R105). -/
def execReadTree (s : State) : Result := whenNoError s (readTree s)

end Sys2Proof.Machine
end

