-- ==== Sys2Proof/Machine/TreeBuilder.lean ====
section
/-! DEFINITION. The tree builder: BUILD_TREE (42_tree_builder.md). -/

namespace Sys2Proof.Machine

/-- What BUILD_TREE works on: the node memory and the number of entries in use. -/
structure Builder where
  node : NodeMem
  count : NodeCount
deriving DecidableEq, Repr

/-- `NewNode(fields)`: the entry at index `NODE_COUNT` is written (R90). `none` when all 513 entries are in use, which no
table leads to (R95). -/
def Builder.newNode (n : Node) (b : Builder) : Option (NodeIdx × Builder) :=
  if h : b.count.val < 513 then
    some (⟨b.count.val, h⟩, { node := b.node.set b.count.val n, count := ⟨b.count.val + 1, by omega⟩ })
  else none

/-- A node is added, if there is room. -/
def Builder.add (n : Node) (b : Builder) : Builder :=
  match b.newNode n with
  | some (_, b') => b'
  | none => b

/-- A leaf entry (R91, R92). -/
def leafNode (sym : Symbol) (weight : Nat) : Node := { kind := .leaf, sym := sym, left := 0, right := 0, weight := weight }

/-- An internal entry over the two nodes extracted, first `a`, then `c` (R94). -/
def mergedNode (mem : NodeMem) (a c : NodeIdx) : Node :=
  { kind := .internal, sym := 0, left := a, right := c, weight := mem[a].weight + mem[c].weight }

/-- The leaves, one for each of the given symbols with a non-zero count, in the order given (R91). -/
def addLeaves (freq : FreqTable) (b : Builder) (syms : List Symbol) : Builder :=
  syms.foldl (fun b s => if 0 < freq[s] then b.add (leafNode s freq[s]) else b) b

/-- The smallest symbol whose count is 0 (R92). -/
def placeholder? (freq : FreqTable) : Option Symbol := allSymbols.find? fun s => decide (freq[s] = 0)

/-- The placeholder leaf, added when there is exactly one leaf (R92). -/
def addPlaceholder (freq : FreqTable) (b : Builder) : Builder :=
  if b.count.val = 1 then
    match placeholder? freq with
    | some p => b.add (leafNode p 0)
    | none => b
  else b

/-- Whether node `i` comes before node `j`: the smaller weight, and among equal weights the smaller index (R93). -/
def keyLt (mem : NodeMem) (i j : NodeIdx) : Bool :=
  decide (mem[i].weight < mem[j].weight ∨ (mem[i].weight = mem[j].weight ∧ i < j))

/-- The node with the smallest key among `i` and the list (R93). -/
def minKeyFrom (mem : NodeMem) (i : NodeIdx) : List NodeIdx → NodeIdx
  | [] => i
  | j :: q => minKeyFrom mem (if keyLt mem j i then j else i) q

/-- `a <- MinKey(Q); Q <- Q \ {a}` (R90, R93). -/
def extractMin (mem : NodeMem) : List NodeIdx → Option (NodeIdx × List NodeIdx)
  | [] => none
  | i :: q => some (minKeyFrom mem i q, (i :: q).erase (minKeyFrom mem i q))

/-- The merge loop `while |Q| > 1` (R94). A pass makes `Q` one smaller, so as many passes as `Q` has nodes are enough: the
first argument. -/
def mergeLoop : Nat → Builder → List NodeIdx → Builder
  | 0, b, _ => b
  | fuel + 1, b, q =>
    match extractMin b.node q with
    | none => b
    | some (a, q₁) =>
      match extractMin b.node q₁ with
      | none => b
      | some (c, q₂) =>
        match b.newNode (mergedNode b.node a c) with
        | none => b
        | some (n, b') => mergeLoop fuel b' (n :: q₂)

/-- The node indices in use, `{0 .. NODE_COUNT-1}`. -/
def usedIndices (count : NodeCount) : List NodeIdx := (List.finRange 513).filter fun i => decide (i.val < count.val)

/-- The leaves and, if need be, the placeholder (R91, R92). -/
def builtLeaves (freq : FreqTable) : Builder :=
  addPlaceholder freq (addLeaves freq { node := emptyNodes, count := 0 } allSymbols)

/-- The whole tree of a frequency table (R90). -/
def builtTree (freq : FreqTable) : Builder :=
  let b := builtLeaves freq
  mergeLoop b.count.val b (usedIndices b.count)

/-- The last node created (R94): `NODE_COUNT - 1`. -/
def lastNode (count : NodeCount) : NodeIdx := ⟨count.val - 1, by omega⟩

/-- `Exec_BUILD_TREE` (R90), with the check of R96. -/
def buildTree (s : State) : Result :=
  if allSymbols.all (fun a => decide (s.freq[a] = 0)) then raise .noSymbols (encode .buildTree) (dropTree s)
  else
    let b := builtTree s.freq
    .next (installTree (lastNode b.count) { dropTree s with node := b.node, nodeCount := b.count })

/-- BUILD_TREE: the Huffman tree of `FREQ` (R90). -/
def execBuildTree (s : State) : Result := whenNoError s (buildTree s)

end Sys2Proof.Machine
end

