-- ==== Sys2Proof/Machine/Dispatch.lean ====
section
/-! DEFINITION. Dispatch: the meaning of each command (R70, R85). -/

namespace Sys2Proof.Machine

/-- The core executes one command: `Issue(w)` of R85 on the command's word. -/
def exec (i : Instr) (s : State) : Host.Outcome State Fault Refusal :=
  match i with
  | .nop => Sys2Proof.Machine.execNop s
  | .clear => Sys2Proof.Machine.execClear s
  | .freqScan => Sys2Proof.Machine.execFreqScan s
  | .buildTree => Sys2Proof.Machine.execBuildTree s
  | .genCodes => Sys2Proof.Machine.execGenCodes s
  | .writeMagic => Sys2Proof.Machine.execWriteMagic s
  | .writeTree => Sys2Proof.Machine.execWriteTree s
  | .encodeSym arg => Sys2Proof.Machine.execEncodeSym arg s
  | .encodeScan => Sys2Proof.Machine.execEncodeScan s
  | .closeOut => Sys2Proof.Machine.execCloseOut s
  | .readMagic => Sys2Proof.Machine.execReadMagic s
  | .readTree => Sys2Proof.Machine.execReadTree s
  | .decodeBit => Sys2Proof.Machine.execDecodeBit s
  | .decodeRun => Sys2Proof.Machine.execDecodeRun s

end Sys2Proof.Machine
end

