-- ==== Sys2Proof/Machine/Flags.lean ====
section
/-! DEFINITION. The status register: a read-only view of other state (R29, R44). -/

namespace Sys2Proof.Machine

/-- The two bits of `DEC_STATE` (R32). -/
def DecState.code : DecState → Nat
  | .atRoot => 0
  | .atNode => 1
  | .done => 2

/-- `SINK_CLOSED`: the bound sink's closed flag (R29). With no sink bound it reads 0 (R28's reset value; log entry 4). -/
def sinkClosedBit (s : State) : Bool :=
  match s.snk with
  | none => false
  | some d => d.closed

/-- `STATUS`: bit 0 TREE_VALID, bit 1 CODES_VALID, bits 3:2 DEC_STATE, bit 4 SINK_CLOSED, bits 7:5 zero, bits 15:8 ERR (R29). -/
def statusWord (s : State) : Nat :=
  s.treeValid.toNat + 2 * s.codesValid.toNat + 4 * s.decState.code + 16 * (sinkClosedBit s).toNat + 256 * s.err.toNat

end Sys2Proof.Machine
end

