-- ==== Sys2Proof/Machine/ReadPort.lean ====
section
/-! DEFINITION. The host's read port (R60) and the register map behind it (R28). -/

namespace Sys2Proof.Machine

/-- The register of a number (R28); a number that no register has reads 0. -/
def readRegister (s : State) (index : Nat) : Nat :=
  match index with
  | 0x00 => statusWord s
  | 0x01 => s.errCmd.toNat
  | 0x02 => s.root.val
  | 0x03 => s.nodeCount.val
  | 0x04 => s.cur.val
  | 0x05 => s.hdrBits.toNat
  | 0x06 => s.encBits.toNat
  | 0x07 => s.decSyms.toNat
  | 0x08 => s.params.magic.toNat
  | 0x09 => s.params.countW % 2 ^ 8
  | _ => 0

/-- `KIND` as a bit (R23). -/
def NodeKind.bit : NodeKind → Nat
  | .internal => 0
  | .leaf => 1

/-- A node entry as one word: KIND in bit 0, SYM in 9:1, LEFT in 19:10, RIGHT in 29:20, WEIGHT in the `weightW` bits from 30
(R24). -/
def packNode (weightW : Nat) (n : Node) : Nat :=
  n.kind.bit + 2 * n.sym.val + 2 ^ 10 * n.left.val + 2 ^ 20 * n.right.val + 2 ^ 30 * (n.weight % 2 ^ weightW)

/-- A code entry as one word: VALID in bit 0, LEN in 9:1, BITS in 265:10 (R26). -/
def packCode (c : CodeEntry) : Nat := c.valid.toNat + 2 * c.len.toNat + 2 ^ 10 * c.bits.toNat

/-- `HostRead(space, index)`: space 0 the registers, 1 `FREQ`, 2 `NODE`, 3 `CODE`; anything outside reads 0 (R60). -/
def hostRead (s : State) (space index : Nat) : Nat :=
  match space with
  | 0 => readRegister s index
  | 1 => if h : index < 257 then s.freq[index] else 0
  | 2 => if h : index < 513 then packNode s.params.weightW s.node[index] else 0
  | 3 => if h : index < 257 then packCode s.code[index] else 0
  | _ => 0

end Sys2Proof.Machine
end

