-- ==== Sys2Proof/Machine/Port.lean ====
section
/-! DEFINITION. The host's operations between commands (R143): issuing a word, binding the streams, reading state, taking the
sink, power-on reset; and the host's two calls as sequences of them (R80, R81, R144). -/

namespace Sys2Proof.Machine

/-- `Issue(w)` (R85): a legal word is executed, an illegal one raises ILLEGAL_COMMAND. -/
def issue (w : Word) (s : State) : Result :=
  match decode w with
  | .command i => exec i s
  | .illegal _ => illegalWord w s

/-- `TakeSink()` returns `SNK.bits` (R143). With no sink bound there is nothing to take (log entry 10). -/
def takeSink (s : State) : Result :=
  match s.snk with
  | none => .refused .sinkUnbound
  | some d => .next { s with reply := some (.sinkBits d.bits) }

/-- One operation of the host (R143). -/
def hostStep (op : HostOp) (s : State) : Result :=
  match op with
  | .issue w => issue w s
  | .hostRead space index => .next { s with reply := some (.value (hostRead s space index)) }
  | .bindSource bits => .next { s with src := some (BitSource.bind bits) }
  | .bindSink => .next { s with snk := some BitSink.empty }
  | .takeSink => takeSink s
  | .powerOn => .next (clearCore s)

/-- The next queued operation of the host happens; with none the core is idle and keeps all its state (R138, log entry 1). -/
def hostTurn (s : State) : Result :=
  match s.pending with
  | [] => .next s
  | op :: rest => hostStep op { s with pending := rest }

/-- The streams a command needs are bound, empty, where none is (the host's duties of R143; the launch state of R142). -/
def bindNeeded (i : Instr) (s : State) : State :=
  { s with
    src := if needsSource i then some (s.src.getD (BitSource.bind [])) else s.src
    snk := if needsSink i then some (s.snk.getD BitSink.empty) else s.snk }

/-- The launch of one word: it is the host's next operation, and the streams its command needs are bound. Log entry 11. -/
def launch (w : Word) (s : State) : State :=
  let s' := match decode w with
    | .command i => bindNeeded i s
    | .illegal _ => s
  { s' with pending := .issue w :: s.pending }

/-- The words of the pseudo-command COMPRESS (R80). -/
def compressWords : List Word := [0x2000, 0x3000, 0x4000, 0x5000, 0x6000, 0x8000, 0x9000]

/-- The words of the pseudo-command DECOMPRESS (R81). -/
def decompressWords : List Word := [0xA000, 0xB000, 0xD000, 0x9000]

/-- The register that the host reads `ERR` from: `STATUS`, whose bits 15:8 it is (R29, R86). -/
def readErr : HostOp := .hostRead 0 0x00

/-- The host's call on a stream of bits with the given words: reset, bind both streams, issue the words, read `ERR` (R144). Of
R144's "reset or CLEAR" it is the reset, whose effect on core state CLEAR shares (R141; log entry 25). -/
def hostCall (bits : List Bool) (words : List Word) : List HostOp :=
  [.powerOn, .bindSource bits, .bindSink] ++ words.map .issue ++ [readErr]

/-- To compress bytes (R144). -/
def compressCall (bytes : List (BitVec 8)) : List HostOp := hostCall (bitsOfBytes bytes) compressWords

/-- To decompress a stream (R144). -/
def decompressCall (stream : List Bool) : List HostOp := hostCall stream decompressWords

/-- The host's operations one after another, stopping where one does not answer a next state. -/
def runHost : List HostOp → State → Result
  | [], s => .next s
  | op :: ops, s =>
    match hostStep op s with
    | .next t => runHost ops t
    | .fault r => .fault r
    | .refused r => .refused r

end Sys2Proof.Machine
end

