-- ==== Sys2Proof/Machine/Step.lean ====
section
/-! DEFINITION. One step: the host's next operation. And how a command word is placed to be run next. -/

namespace Sys2Proof.Machine

/-- One step of the machine. -/
def step (s : State) : Host.Outcome State Fault Refusal := hostTurn s

/-- `s` with the word issued next, and with the host's duties of R143 done for it: an empty source or an empty open sink is
bound where the word's command needs one and none is bound. Log entry 11. -/
def State.withFetchWord (s : State) (nbits w : Nat) : State := launch (tableWord nbits w) s

end Sys2Proof.Machine
end

