-- ==== Sys2Proof/Machine/Assembler.lean ====
section
/-! DEFINITION. The written form of commands and of the two pseudo-commands (R79 to R81), over lists of characters. What R79
leaves open about it is in log entry 19. -/

namespace Sys2Proof.Machine

/-- The command's mnemonic (R70). -/
def mnemonic : Instr → List Char
  | .nop => ['N', 'O', 'P']
  | .clear => ['C', 'L', 'E', 'A', 'R']
  | .freqScan => ['F', 'R', 'E', 'Q', '_', 'S', 'C', 'A', 'N']
  | .buildTree => ['B', 'U', 'I', 'L', 'D', '_', 'T', 'R', 'E', 'E']
  | .genCodes => ['G', 'E', 'N', '_', 'C', 'O', 'D', 'E', 'S']
  | .writeMagic => ['W', 'R', 'I', 'T', 'E', '_', 'M', 'A', 'G', 'I', 'C']
  | .writeTree => ['W', 'R', 'I', 'T', 'E', '_', 'T', 'R', 'E', 'E']
  | .encodeSym _ => ['E', 'N', 'C', 'O', 'D', 'E', '_', 'S', 'Y', 'M']
  | .encodeScan => ['E', 'N', 'C', 'O', 'D', 'E', '_', 'S', 'C', 'A', 'N']
  | .closeOut => ['C', 'L', 'O', 'S', 'E', '_', 'O', 'U', 'T']
  | .readMagic => ['R', 'E', 'A', 'D', '_', 'M', 'A', 'G', 'I', 'C']
  | .readTree => ['R', 'E', 'A', 'D', '_', 'T', 'R', 'E', 'E']
  | .decodeBit => ['D', 'E', 'C', 'O', 'D', 'E', '_', 'B', 'I', 'T']
  | .decodeRun => ['D', 'E', 'C', 'O', 'D', 'E', '_', 'R', 'U', 'N']

/-- The thirteen commands without an operand (R70). -/
def operandFreeCommands : List Instr :=
  [.nop, .clear, .freqScan, .buildTree, .genCodes, .writeMagic, .writeTree, .encodeScan, .closeOut, .readMagic, .readTree,
    .decodeBit, .decodeRun]

/-- The names that stand alone on a line, with their words: the operand-free commands and the pseudo-commands (R79 to R81). -/
def namedWords : List (List Char × List Word) :=
  operandFreeCommands.map (fun i => (mnemonic i, [encode i])) ++
    [(['C', 'O', 'M', 'P', 'R', 'E', 'S', 'S'], compressWords),
      (['D', 'E', 'C', 'O', 'M', 'P', 'R', 'E', 'S', 'S'], decompressWords)]

/-- What separates a mnemonic from its operand. -/
def isBlank (c : Char) : Bool := c = ' ' || c = '\t'

/-- A character of a name or a number. -/
def inWord (c : Char) : Bool := !isBlank c && c ≠ ';'

/-- Nothing but blanks and a comment is left of the line (R79). -/
def atLineEnd (cs : List Char) : Bool :=
  match cs.dropWhile isBlank with
  | [] => true
  | c :: _ => c = ';'

/-- The value of a digit in base 10 or 16. -/
def digitOf? (base : Nat) (c : Char) : Option Nat :=
  let n := c.toNat
  let v := if 48 ≤ n && n ≤ 57 then n - 48
    else if 65 ≤ n && n ≤ 70 then n - 55
    else if 97 ≤ n && n ≤ 102 then n - 87
    else base
  if v < base then some v else none

/-- Digits read behind the value read so far. -/
def digitsFrom (base : Nat) : Nat → List Char → Option Nat
  | v, [] => some v
  | v, c :: cs =>
    match digitOf? base c with
    | none => none
    | some k => digitsFrom base (base * v + k) cs

/-- A decimal number, a `0x` hexadecimal number, or the name `EOS` for 256 (R79). -/
def wordOperand? (cs : List Char) : Option Nat :=
  match cs with
  | [] => none
  | ['E', 'O', 'S'] => some 256
  | '0' :: 'x' :: c :: hex => digitsFrom 16 0 (c :: hex)
  | c :: digits => digitsFrom 10 0 (c :: digits)

/-- ENCODE_SYM's operand and the rest of the line; a quoted ASCII character stands for its byte value (R79). -/
def operand? (cs : List Char) : Option (Nat × List Char) :=
  match cs with
  | '\'' :: c :: '\'' :: rest => if c.toNat < 128 then some (c.toNat, rest) else none
  | cs => (wordOperand? (cs.takeWhile inWord)).map fun v => (v, cs.dropWhile inWord)

/-- The words of one line; `none` where R79 to R81 give it no meaning. -/
def assembleLine (line : List Char) : Option (List Word) :=
  let body := line.dropWhile isBlank
  if atLineEnd body then some []
  else
    let name := body.takeWhile inWord
    let rest := body.dropWhile inWord
    if name = mnemonic (.encodeSym 0) then
      match operand? (rest.dropWhile isBlank) with
      | none => none
      | some (v, rest') =>
        if v ≤ 256 && atLineEnd rest' then some [encode (.encodeSym (BitVec.ofNat 9 v))] else none
    else if atLineEnd rest then (namedWords.find? fun p => p.1 = name).map (·.2)
    else none

/-- The lines of a text, ended by line feeds. -/
def linesOf (line : List Char) : List Char → List (List Char)
  | [] => [line.reverse]
  | c :: cs => if c = '\n' then line.reverse :: linesOf [] cs else linesOf (c :: line) cs

/-- The words of a text, one command per line (R79). -/
def assemble (text : List Char) : Option (List Word) :=
  ((linesOf [] text).mapM assembleLine).map List.flatten

end Sys2Proof.Machine
end

