-- ==== Sys2Proof/Safety.lean ====
section
/-! DEFINITION. What claims are stated with: the tree a node memory holds (R25), the codes and the header it gives (R27, R100),
the bytes of a source (R53, R55), the invariant every step keeps, and when a run has succeeded (R145, R146). -/

namespace Sys2Proof.Machine

/-! ## Trees -/

/-- A binary tree of node indices, its leaves with their symbols. -/
inductive CodeTree where
  | leaf (i : NodeIdx) (sym : Symbol)
  | node (i : NodeIdx) (l r : CodeTree)
deriving DecidableEq, Repr

/-- The index of the topmost node. -/
def CodeTree.root : CodeTree → NodeIdx
  | .leaf i _ => i
  | .node i _ _ => i

/-- The node indices, in preorder. -/
def CodeTree.indices : CodeTree → List NodeIdx
  | .leaf i _ => [i]
  | .node i l r => i :: (l.indices ++ r.indices)

/-- The leaf symbols, left to right. -/
def CodeTree.leaves : CodeTree → List Symbol
  | .leaf _ s => [s]
  | .node _ l r => l.leaves ++ r.leaves

/-- The largest number of edges from the root to a node (R16). -/
def CodeTree.depth : CodeTree → Nat
  | .leaf _ _ => 0
  | .node _ l r => max l.depth r.depth + 1

/-- Whether the topmost node is internal. -/
def CodeTree.isInternal : CodeTree → Bool
  | .leaf _ _ => false
  | .node _ _ _ => true

/-- The same shape and leaf symbols, whatever the indices. -/
def CodeTree.sameShape : CodeTree → CodeTree → Bool
  | .leaf _ s, .leaf _ t => decide (s = t)
  | .node _ l r, .node _ l' r' => l.sameShape l' && r.sameShape r'
  | .leaf _ _, .node _ _ _ => false
  | .node _ _ _, .leaf _ _ => false

/-- The path from the root to the leaf of a symbol, 0 for left and 1 for right (R16, R27). -/
def CodeTree.path? (sym : Symbol) : CodeTree → Option (List Bool)
  | .leaf _ s => if s = sym then some [] else none
  | .node _ l r =>
    match l.path? sym with
    | some p => some (false :: p)
    | none => (r.path? sym).map (true :: ·)

/-- The path of a symbol, empty if no leaf carries it. -/
def CodeTree.path (t : CodeTree) (sym : Symbol) : List Bool := (t.path? sym).getD []

/-- The index of the leaf of a symbol. -/
def CodeTree.leafOf? (sym : Symbol) : CodeTree → Option NodeIdx
  | .leaf i s => if s = sym then some i else none
  | .node _ l r => (l.leafOf? sym).or (r.leafOf? sym)

/-- The tree header: the preorder encoding of R100. -/
def CodeTree.header : CodeTree → List Bool
  | .leaf _ s => true :: bitsOf 9 s.val
  | .node _ l r => false :: (l.header ++ r.header)

/-- The total length of the codes of every symbol occurrence, for given counts (R113). -/
def CodeTree.cost (freq : FreqTable) (t : CodeTree) : Nat := (t.leaves.map fun s => freq[s] * (t.path s).length).sum

/-- The entries of the memory at the tree's indices are the tree's nodes, the fields without meaning 0 (R23). -/
def CodeTree.heldBy (mem : NodeMem) : CodeTree → Bool
  | .leaf i s => decide (mem[i].kind = .leaf ∧ mem[i].sym = s ∧ mem[i].left = 0 ∧ mem[i].right = 0)
  | .node i l r =>
    decide (mem[i].kind = .internal ∧ mem[i].sym = 0 ∧ mem[i].left = l.root ∧ mem[i].right = r.root)
      && l.heldBy mem && r.heldBy mem

/-- Entries `0 .. count-1` of the memory hold the one rooted tree `t` with the properties of R25: the entries in use are the
nodes of `t`, each once; the root is internal; no node is deeper than `MAX_DEPTH`; leaf symbols are distinct and one is the
sentinel; the other entries are 0. -/
structure IsTree (mem : NodeMem) (root : NodeIdx) (count : NodeCount) (t : CodeTree) : Prop where
  held : t.heldBy mem = true
  root_eq : t.root = root
  root_internal : t.isInternal = true
  indices_nodup : t.indices.Nodup
  indices_iff : ∀ i : NodeIdx, i ∈ t.indices ↔ i.val < count.val
  depth_le : t.depth ≤ maxDepth
  leaves_nodup : t.leaves.Nodup
  sentinel_mem : sentinel ∈ t.leaves
  rest_zero : ∀ i : NodeIdx, count.val ≤ i.val → mem[i] = Node.zero

/-- `NODE`, `ROOT` and `NODE_COUNT` hold a tree that satisfies R25. -/
def TreeOk (s : State) : Prop := ∃ t, IsTree s.node s.root s.nodeCount t

/-- The node that a path of branches leads to from a node, through internal nodes only (R16, R25). -/
def descend (mem : NodeMem) (i : NodeIdx) : List Bool → Option NodeIdx
  | [] => some i
  | b :: p =>
    match mem[i].kind with
    | .internal => descend mem (if b then mem[i].right else mem[i].left) p
    | .leaf => none

/-- The code entry of a path (R26, R27). -/
def entryOfPath (p : List Bool) : CodeEntry :=
  { valid := true, len := BitVec.ofNat 9 p.length, bits := BitVec.ofNat 256 (natOfBits p) }

/-- The code table of a tree: for each symbol with a leaf its path, for the others nothing (R97). -/
def codeTableOf (t : CodeTree) : CodeTable :=
  Vector.ofFn fun s => match t.path? s with
    | some p => entryOfPath p
    | none => CodeEntry.zero

/-- The code an entry stands for: `bits_LEN(BITS)` (R27). -/
def codeBits (c : CodeEntry) : List Bool := bitsOf c.len.toNat c.bits.toNat

/-! ## Bytes and bodies -/

/-- The whole bytes of a bit sequence from its start, a last fragment of fewer than 8 bits dropped (R53, R55). -/
def wholeBytes : List Bool → List Nat
  | a :: b :: c :: d :: e :: f :: g :: h :: rest => natOfBits [a, b, c, d, e, f, g, h] :: wholeBytes rest
  | _ => []

/-- The frequency table of a list of bytes (R87, R89). -/
def countsOf (bytes : List Nat) : FreqTable := Vector.ofFn fun s => if s = sentinel then 1 else bytes.count s.val

/-- The concatenated codes of bytes (R113). -/
def codesOfBytes (codes : CodeTable) (bytes : List Nat) : List Bool := bytes.flatMap fun b => codeBits codes[byteSymbol b]

/-- The body: the codes of the bytes, then the sentinel's (R113). -/
def bodyOf (codes : CodeTable) (bytes : List Nat) : List Bool := codesOfBytes codes bytes ++ codeBits codes[sentinel]

/-- The body of bytes under a tree's paths. -/
def pathBody (t : CodeTree) (bytes : List (BitVec 8)) : List Bool :=
  (bytes.flatMap fun b => t.path (byteSymbol b.toNat)) ++ t.path sentinel

/-- The symbols with a non-zero count, ascending (R91). -/
def countedSymbols (freq : FreqTable) : List Symbol := allSymbols.filter fun s => decide (0 < freq[s])

/-- Whether node `i`'s pair `(WEIGHT, index)` is below node `j`'s (R93). -/
def keyBelow (mem : NodeMem) (i j : NodeIdx) : Prop :=
  mem[i].weight < mem[j].weight ∨ (mem[i].weight = mem[j].weight ∧ i.val < j.val)

/-- Whether node `j`, created before node `k`, is still in `Q` when `k` is created: no internal node created before `k` has it
as a child (R94). -/
def stillQueued (mem : NodeMem) (j k : NodeIdx) : Prop :=
  j.val < k.val ∧ ∀ m : NodeIdx, m.val < k.val → mem[m].kind = .internal → mem[m].left ≠ j ∧ mem[m].right ≠ j

/-! ## The invariant -/

/-- The decoder's state and pointer agree with the tree (R33, R116). -/
def decoderOk (s : State) : Bool :=
  match s.decState with
  | .atRoot => decide (s.cur = s.root)
  | .atNode => decide (s.cur.val < s.nodeCount.val ∧ s.node[s.cur].kind = .internal)
  | .done => decide (s.cur.val < s.nodeCount.val ∧ s.node[s.cur].kind = .leaf ∧ s.node[s.cur].sym = sentinel)

/-- What holds in every state the rules lead to. -/
structure Inv (s : State) : Prop where
  /-- The widths are ones the registers admit (log entry 6). -/
  params_wf : s.params.wf = true
  /-- R22. -/
  freq_sentinel : s.freq[sentinel] = 1
  /-- R21: a count fits `COUNT_W` bits. -/
  freq_lt : ∀ a : Symbol, s.freq[a] < 2 ^ s.params.countW
  /-- R21: a weight fits `WEIGHT_W` bits. -/
  weight_lt : ∀ i : NodeIdx, s.node[i].weight < 2 ^ s.params.weightW
  /-- R30. -/
  tree_iff : s.treeValid = true ↔ TreeOk s
  /-- R31, R97: with valid codes of a valid tree the code table is that tree's. -/
  codes_tree : s.codesValid = true → s.treeValid = true →
    ∃ t, IsTree s.node s.root s.nodeCount t ∧ s.code = codeTableOf t
  /-- R31, R43, R99: otherwise every entry is 0. -/
  codes_none : ¬ (s.codesValid = true ∧ s.treeValid = true) → s.code = emptyCodes
  /-- R33, R116. -/
  decoder_ok : s.treeValid = true → decoderOk s = true
  /-- R37. -/
  errCmd_zero : s.err = 0 → s.errCmd = 0
  /-- R123: codes above 0x10 are never written. -/
  err_le : s.err.toNat ≤ 0x10
  /-- R46. -/
  pos_le : ∀ r, s.src = some r → r.pos ≤ r.bits.length
  /-- R52: a closed sink holds whole bytes. -/
  closed_whole : ∀ d, s.snk = some d → d.closed = true → d.bits.length % 8 = 0

/-- The streams a command needs are bound: the host's duties of R143. -/
def streamsBound (i : Instr) (s : State) : Bool :=
  (!needsSource i || s.src.isSome) && (!needsSink i || s.snk.isSome)

/-! ## The end of a run -/

/-- A run has not failed: no error was raised since reset or CLEAR (R139). -/
def noError (s : State) : Bool := decide (s.err = 0)

/-- A compression run that has issued all of COMPRESS succeeded (R145). -/
def compressionSucceeded (s : State) : Bool := noError s

/-- A decompression run that has issued all of DECOMPRESS succeeded (R146). -/
def decompressionSucceeded (s : State) : Bool := noError s && decide (s.decState = .done)

/-- The output of a run: `SNK.bits` (R145, R146). -/
def sinkBits (s : State) : List Bool :=
  match s.snk with
  | none => []
  | some d => d.bits

end Sys2Proof.Machine
end

