-- ==== Sys2Proof/Certificates/Slice0/Obligations.lean ====
section
/-! DEFINITION. The statements for the provers, from the numbered rules of spec/. A numeral such as 0x0F for an error code or
0x9000 for a command word is written out from R123 and R70, not computed by the model's own functions. -/

open Sys2Proof Sys2Proof.Machine

/-! ## Encoding and dispatch -/

/-- R70, R78: every well-formed command decodes from its own word, its operand whole. -/
def Obligations.DecodeOfEncodeIsTheCommand : Prop :=
  ∀ i : Instr, i.wf = true → decode (encode i) = .command i

/-- R70, R72: a legal word has one meaning, and it is the word of that command. -/
def Obligations.LegalWordIsTheWordOfItsCommand : Prop :=
  ∀ (w : Word) (i : Instr), decode w = .command i → i.wf = true ∧ encode i = w

/-- R71 to R74: the illegal words are these and no others. -/
def Obligations.IllegalWordsAreTheReservedOnes : Prop :=
  ∀ w : Word, (∃ why, decode w = .illegal why) ↔
    w.toNat / 512 % 8 ≠ 0 ∨ (w.toNat / 4096 ≠ 7 ∧ w.toNat % 512 ≠ 0) ∨
    (w.toNat / 4096 = 7 ∧ w.toNat % 512 > 256) ∨ w.toNat / 4096 = 0xE ∨ w.toNat / 4096 = 0xF

/-- R78: exactly 13 + 257 = 270 words are legal. -/
def Obligations.ExactlyTwoHundredSeventyWordsAreLegal : Prop :=
  ((List.range 65536).filter fun w => (decode (BitVec.ofNat 16 w)).instr?.isSome).length = 270

/-- R70: the words of the opcode map, written out, decode to their commands (a sanity statement). -/
def Obligations.OpcodeMapWordsDecode : Prop :=
  decode 0x0000 = .command .nop ∧ decode 0x1000 = .command .clear ∧ decode 0x2000 = .command .freqScan ∧
  decode 0x3000 = .command .buildTree ∧ decode 0x4000 = .command .genCodes ∧ decode 0x5000 = .command .writeMagic ∧
  decode 0x6000 = .command .writeTree ∧ decode 0x7041 = .command (.encodeSym 0x41) ∧
  decode 0x7100 = .command (.encodeSym 0x100) ∧ decode 0x8000 = .command .encodeScan ∧
  decode 0x9000 = .command .closeOut ∧ decode 0xA000 = .command .readMagic ∧ decode 0xB000 = .command .readTree ∧
  decode 0xC000 = .command .decodeBit ∧ decode 0xD000 = .command .decodeRun

/-- R67, R85: when the host's next operation is to issue a legal word, the step is the execution of its command. The queue is
the model's own (log entries 1 and 10). -/
def Obligations.StepExecutesTheDecodedCommand : Prop :=
  ∀ (s : State) (w : Word) (i : Instr) (rest : List HostOp),
    s.pending = .issue w :: rest → decode w = .command i → step s = exec i { s with pending := rest }

/-- R75: an illegal word does nothing except the error entry with code 0x04, and nothing at all while `ERR != 0`. -/
def Obligations.IllegalWordOnlyEntersTheError : Prop :=
  ∀ (s : State) (w : Word) (why : Illegal), decode w = .illegal why →
    (s.err = 0 → issue w s = .next { s with err := 0x04, errCmd := w }) ∧ (s.err ≠ 0 → issue w s = .next s)

/-- R125: while `ERR != 0` every command but CLEAR, and every sequence of words without CLEAR's, has no effect at all. -/
def Obligations.StickyErrorIgnoresEveryWordButClear : Prop :=
  ∀ s : State, s.err ≠ 0 →
    (∀ i : Instr, i ≠ .clear → exec i s = .next s) ∧
    (∀ words : List Word, (∀ w ∈ words, w ≠ 0x1000) → runHost (words.map .issue) s = .next s)

/-- R138: between commands the core is idle and keeps all its state. A step with nothing queued is the model's form of being
between commands (log entry 1). -/
def Obligations.IdleCoreKeepsItsState : Prop := ∀ s : State, s.pending = [] → step s = .next s

/-- R143: issuing a word, binding a source or a sink, reading state and taking the sink, each between commands. The queue and
the reply are the model's own fields (log entries 1 and 10). -/
def Obligations.HostOperationsHaveTheirEffects : Prop :=
  ∀ (s : State) (rest : List HostOp),
    (∀ w, s.pending = .issue w :: rest → step s = issue w { s with pending := rest }) ∧
    (∀ bits, s.pending = .bindSource bits :: rest →
      step s = .next { s with pending := rest, src := some { bits := bits, pos := 0 } }) ∧
    (s.pending = .bindSink :: rest →
      step s = .next { s with pending := rest, snk := some { bits := [], closed := false } }) ∧
    (∀ space index, s.pending = .hostRead space index :: rest →
      step s = .next { s with pending := rest, reply := some (.value (hostRead s space index)) }) ∧
    (∀ d, s.pending = .takeSink :: rest → s.snk = some d →
      step s = .next { s with pending := rest, reply := some (.sinkBits d.bits) })

/-- R79 to R81: a mnemonic is its command's word, with or without a comment behind it; ENCODE_SYM's operand may be decimal, `0x`
hexadecimal, a quoted ASCII character or `EOS`; the pseudo-commands stand for their words. The model's choice (log entry 19) are
the space between ENCODE_SYM and its operand, and that a quoted character below 128 is taken as it stands, a semicolon and a line
feed too, though R79 also says that `;` starts a comment. -/
def Obligations.AssemblerReadsTheWrittenForm : Prop :=
  (∀ i ∈ operandFreeCommands, ∀ comment : List Char,
    assembleLine (mnemonic i) = some [encode i] ∧ assembleLine (mnemonic i ++ ';' :: comment) = some [encode i]) ∧
  (∀ v, v ≤ 256 →
    assembleLine ("ENCODE_SYM ".toList ++ Nat.toDigits 10 v) = some [BitVec.ofNat 16 (0x7000 + v)] ∧
    assembleLine ("ENCODE_SYM 0x".toList ++ Nat.toDigits 16 v) = some [BitVec.ofNat 16 (0x7000 + v)]) ∧
  (∀ c : Char, c.toNat < 128 →
    assembleLine ("ENCODE_SYM ".toList ++ ['\'', c, '\'']) = some [BitVec.ofNat 16 (0x7000 + c.toNat)]) ∧
  assembleLine "ENCODE_SYM EOS".toList = some [0x7100] ∧
  assembleLine "COMPRESS".toList = some [0x2000, 0x3000, 0x4000, 0x5000, 0x6000, 0x8000, 0x9000] ∧
  assembleLine "DECOMPRESS".toList = some [0xA000, 0xB000, 0xD000, 0x9000]

/-! ## Reset and control -/

/-- R43: the value of every piece of core state at power-on reset and after CLEAR; neither touches the constants or a stream. -/
def Obligations.ResetValues : Prop :=
  (∀ s t : State, t = State.reset ∨ hostStep .powerOn s = .next t ∨ exec .clear s = .next t →
    (∀ a : Symbol, t.freq[a] = if a = 256 then 1 else 0) ∧
    (∀ i : NodeIdx, t.node[i] = { kind := .internal, sym := 0, left := 0, right := 0, weight := 0 }) ∧
    (∀ a : Symbol, t.code[a] = { valid := false, len := 0, bits := 0 }) ∧
    t.root = 0 ∧ t.nodeCount = 0 ∧ t.cur = 0 ∧ t.treeValid = false ∧ t.codesValid = false ∧ t.decState = .atRoot ∧
    t.err = 0 ∧ t.errCmd = 0 ∧ t.hdrBits = 0 ∧ t.encBits = 0 ∧ t.decSyms = 0) ∧
  ∀ s t : State, hostStep .powerOn s = .next t ∨ exec .clear s = .next t →
    t.params = s.params ∧ t.src = s.src ∧ t.snk = s.snk

/-- R28's reset column, read through the port: every register 0 but MAGIC_ID and COUNT_WIDTH, and no register above 0x09.
That COUNT_WIDTH reads 32 is the model's choice of `COUNT_W` for the reset state, the spec's default (log entry 6); that
`STATUS` reads 0 with no sink bound rests on log entry 4. -/
def Obligations.RegistersReadTheirResetValues : Prop :=
  (∀ n, n < 8 → hostRead State.reset 0 n = 0) ∧ hostRead State.reset 0 0x08 = State.reset.params.magic.toNat ∧
  hostRead State.reset 0 0x09 = 32 ∧ ∀ n, 0x09 < n → hostRead State.reset 0 n = 0

/-- R84: CLEAR, in every state, gives all core state its reset value and touches neither stream. -/
def Obligations.ClearReturnsTheCoreToReset : Prop :=
  ∀ s : State, exec .clear s = .next { State.reset with
    params := s.params, src := s.src, snk := s.snk, pending := s.pending, reply := s.reply }

/-- R141: CLEAR has the same effect on core state as power-on reset. -/
def Obligations.ClearEqualsPowerOnReset : Prop := ∀ s : State, hostStep .powerOn s = exec .clear s

/-- R83: NOP leaves every state and both streams unchanged. -/
def Obligations.NopChangesNothing : Prop := ∀ s : State, exec .nop s = .next s

/-! ## FREQ_SCAN -/

/-- R87, R88, R89: a scan whose counts fit leaves the number of occurrences of every byte of the whole source, 1 for the
sentinel, and the source after its last whole byte; the first byte whose count would not fit raises COUNT_OVERFLOW, the counts
made so far kept. -/
def Obligations.FreqScanCountsBytesOrOverflows : Prop :=
  ∀ (s : State) (r : BitSource), s.err = 0 → s.src = some r →
    ((∀ b, (wholeBytes r.bits).count b < 2 ^ s.params.countW) →
      exec .freqScan s = .next { s with
        freq := countsOf (wholeBytes r.bits)
        src := some { bits := r.bits, pos := 8 * (r.bits.length / 8) } }) ∧
    (∀ (before : List Nat) (b : Nat) (after : List Nat), wholeBytes r.bits = before ++ b :: after →
      (∀ c, before.count c < 2 ^ s.params.countW) → before.count b = 2 ^ s.params.countW - 1 →
      exec .freqScan s = .next { s with
        freq := countsOf before
        src := some { bits := r.bits, pos := 8 * (before.length + 1) }
        err := 0x08, errCmd := 0x2000 })

/-! ## BUILD_TREE -/

/-- R90, R95: on every table with the sentinel's count 1, BUILD_TREE completes; it leaves one rooted tree of `2L' - 1` nodes
with one leaf for each counted symbol, the root last, each internal weight the sum of its children's, the root's weight the sum
of all counts; codes dropped, the decoder at the root, all else unchanged. -/
def Obligations.BuildTreeInstallsATree : Prop :=
  ∀ s : State, s.err = 0 → s.freq[sentinel] = 1 →
    ∃ (t : State) (T : CodeTree), exec .buildTree s = .next t ∧ IsTree t.node t.root t.nodeCount T ∧
      t = { s with
        node := t.node, nodeCount := t.nodeCount, root := t.root, treeValid := true
        code := Vector.replicate 257 { valid := false, len := 0, bits := 0 }, codesValid := false
        decState := .atRoot, cur := t.root, decSyms := 0 } ∧
      t.nodeCount.val + 1 = 2 * max (countedSymbols s.freq).length 2 ∧ t.root.val + 1 = t.nodeCount.val ∧
      (∀ a, 0 < s.freq[a] → a ∈ T.leaves) ∧ T.leaves.length = max (countedSymbols s.freq).length 2 ∧
      (∀ i : NodeIdx, i.val < t.nodeCount.val → t.node[i].kind = .internal →
        t.node[i].weight = t.node[t.node[i].left].weight + t.node[t.node[i].right].weight) ∧
      t.node[t.root].weight = (s.freq.toList).sum

/-- R91: the leaves come first, one for each symbol with a non-zero count, in ascending symbol order. -/
def Obligations.BuildTreeCreatesLeavesInSymbolOrder : Prop :=
  ∀ s : State, s.err = 0 → s.freq[sentinel] = 1 → ∃ t, exec .buildTree s = .next t ∧
    ∀ (i : NodeIdx) (a : Symbol), (countedSymbols s.freq)[i.val]? = some a →
      t.node[i] = { kind := .leaf, sym := a, left := 0, right := 0, weight := s.freq[a] }

/-- R92: with exactly one non-zero count, the placeholder is the smallest symbol of count 0, at index 1 with weight 0; it
becomes the left child of `NODE[2]`, and its code is 0, the real leaf's 1. -/
def Obligations.BuildTreeAddsThePlaceholder : Prop :=
  ∀ (s : State) (a : Symbol), s.err = 0 → 0 < s.freq[a] → (∀ b, b ≠ a → s.freq[b] = 0) →
    ∃ (p : Symbol) (t : State), s.freq[p] = 0 ∧ (∀ q, q < p → s.freq[q] ≠ 0) ∧ exec .buildTree s = .next t ∧
      t.nodeCount = 3 ∧ t.root = 2 ∧
      t.node[(0 : NodeIdx)] = { kind := .leaf, sym := a, left := 0, right := 0, weight := s.freq[a] } ∧
      t.node[(1 : NodeIdx)] = { kind := .leaf, sym := p, left := 0, right := 0, weight := 0 } ∧
      t.node[(2 : NodeIdx)] = { kind := .internal, sym := 0, left := 1, right := 0, weight := s.freq[a] } ∧
      ∃ u, exec .genCodes t = .next u ∧
        u.code[p] = { valid := true, len := 1, bits := 0 } ∧ u.code[a] = { valid := true, len := 1, bits := 1 }

/-- R94: each merge takes the two queued nodes with the smallest keys, the first as its left child, the second as its right, its
weight their sum; merging goes on until one node is left, which is the root, the last node created. -/
def Obligations.BuildTreeMergesTheTwoSmallestKeys : Prop :=
  ∀ s : State, s.err = 0 → s.freq[sentinel] = 1 → ∃ t, exec .buildTree s = .next t ∧
    (∀ k : NodeIdx, k.val < t.nodeCount.val → t.node[k].kind = .internal →
      stillQueued t.node t.node[k].left k ∧ stillQueued t.node t.node[k].right k ∧
      keyBelow t.node t.node[k].left t.node[k].right ∧
      t.node[k].weight = t.node[t.node[k].left].weight + t.node[t.node[k].right].weight ∧
      ∀ j : NodeIdx, stillQueued t.node j k → j ≠ t.node[k].left → j ≠ t.node[k].right →
        keyBelow t.node t.node[k].right j) ∧
    t.root.val + 1 = t.nodeCount.val ∧
    ∀ j : NodeIdx, j.val < t.nodeCount.val → j ≠ t.root →
      ∃ k : NodeIdx, k.val < t.nodeCount.val ∧ t.node[k].kind = .internal ∧ (t.node[k].left = j ∨ t.node[k].right = j)

/-- R95: the code of the tree BUILD_TREE builds is optimal: no tree over the same leaf symbols makes the coded input shorter. -/
def Obligations.BuildTreeCodeIsOptimal : Prop :=
  ∀ s : State, s.err = 0 → s.freq[sentinel] = 1 →
    ∃ (t : State) (T : CodeTree), exec .buildTree s = .next t ∧ IsTree t.node t.root t.nodeCount T ∧
      ∀ T' : CodeTree, T'.leaves.Perm T.leaves → T.cost s.freq ≤ T'.cost s.freq

/-- R96: a table with no non-zero count raises NO_SYMBOLS, with `NODE` all zero and no tree. -/
def Obligations.BuildTreeWithoutSymbolsRaisesNoSymbols : Prop :=
  ∀ s : State, s.err = 0 → (∀ a : Symbol, s.freq[a] = 0) →
    exec .buildTree s = .next { s with
      node := Vector.replicate 513 { kind := .internal, sym := 0, left := 0, right := 0, weight := 0 }
      code := Vector.replicate 257 { valid := false, len := 0, bits := 0 }
      treeValid := false, codesValid := false, root := 0, nodeCount := 0, err := 0x10, errCmd := 0x3000 }

/-! ## GEN_CODES -/

/-- R97: GEN_CODES gives each symbol with a leaf its root-to-leaf path and clears every other entry; without a tree it clears
them all; nothing else changes. -/
def Obligations.GenCodesAssignsEveryPath : Prop :=
  ∀ s : State, s.err = 0 →
    (∀ T, s.treeValid = true → IsTree s.node s.root s.nodeCount T →
      exec .genCodes s = .next { s with code := codeTableOf T, codesValid := true }) ∧
    (s.treeValid = false → exec .genCodes s = .next { s with
      code := Vector.replicate 257 { valid := false, len := 0, bits := 0 }, codesValid := true })

/-- R98: after GEN_CODES on a valid tree the codes are prefix-free, none is empty, and there is one for each leaf. -/
def Obligations.GeneratedCodesArePrefixFree : Prop :=
  ∀ (s : State) (T : CodeTree), s.err = 0 → s.treeValid = true → IsTree s.node s.root s.nodeCount T →
    ∃ t, exec .genCodes s = .next t ∧
      (∀ a : Symbol, t.code[a].valid = true ↔ a ∈ T.leaves) ∧
      (∀ a : Symbol, t.code[a].valid = true → codeBits t.code[a] ≠ []) ∧
      (∀ a b : Symbol, a ≠ b → t.code[a].valid = true → t.code[b].valid = true → ¬ codeBits t.code[a] <+: codeBits t.code[b])

/-- R26, R27, R99: after GEN_CODES on a valid tree every code has 1 to 256 bits and its value is below `2 ^ LEN`; an entry
without a code is 0. -/
def Obligations.GeneratedCodesFitTheirFields : Prop :=
  ∀ (s : State) (T : CodeTree), s.err = 0 → s.treeValid = true → IsTree s.node s.root s.nodeCount T →
    ∃ t, exec .genCodes s = .next t ∧ ∀ a : Symbol,
      (t.code[a].valid = true → 1 ≤ t.code[a].len.toNat ∧ t.code[a].len.toNat ≤ 256 ∧
        t.code[a].bits.toNat < 2 ^ t.code[a].len.toNat) ∧
      (t.code[a].valid = false → t.code[a].len = 0 ∧ t.code[a].bits = 0)

/-! ## The serializer -/

/-- R102: WRITE_MAGIC appends the 32 bits of `MAGIC`, most significant first, and writes no core state; on a closed sink it
raises SINK_CLOSED and writes nothing. -/
def Obligations.WriteMagicAppendsTheMagicNumber : Prop :=
  ∀ (s : State) (d : BitSink), s.err = 0 → s.snk = some d →
    (d.closed = false → exec .writeMagic s = .next { s with
      snk := some { bits := d.bits ++ (List.range 32).map (fun k => s.params.magic.getMsbD k), closed := false } }) ∧
    (d.closed = true → exec .writeMagic s = .next { s with err := 0x0F, errCmd := 0x5000 })

/-- R101, R103: WRITE_TREE appends the tree's header, `11L - 1` bits, and counts them; its errors are NO_TREE, then
SINK_CLOSED, before anything is written. -/
def Obligations.WriteTreeAppendsTheHeader : Prop :=
  ∀ s : State, s.err = 0 →
    (∀ (d : BitSink) (T : CodeTree), s.treeValid = true → IsTree s.node s.root s.nodeCount T → s.snk = some d →
      d.closed = false →
      T.header.length = 11 * T.leaves.length - 1 ∧
      exec .writeTree s = .next { s with
        snk := some { bits := d.bits ++ T.header, closed := false }
        hdrBits := BitVec.ofNat 32 (11 * T.leaves.length - 1) }) ∧
    (s.treeValid = false → exec .writeTree s = .next { s with err := 0x05, errCmd := 0x6000 }) ∧
    (∀ d, s.treeValid = true → s.snk = some d → d.closed = true →
      exec .writeTree s = .next { s with err := 0x0F, errCmd := 0x6000 })

/-- R104: READ_MAGIC moves past 32 bits when they are there, and raises BAD_MAGIC unless they are `MAGIC`; fewer than 32 bits
raise BAD_MAGIC too and move nothing. -/
def Obligations.ReadMagicChecksTheMagicNumber : Prop :=
  ∀ (s : State) (r : BitSource), s.err = 0 → s.src = some r →
    (r.pos + 32 ≤ r.bits.length →
      ((r.bits.drop r.pos).take 32 = (List.range 32).map (fun k => s.params.magic.getMsbD k) →
        exec .readMagic s = .next { s with src := some { bits := r.bits, pos := r.pos + 32 } }) ∧
      ((r.bits.drop r.pos).take 32 ≠ (List.range 32).map (fun k => s.params.magic.getMsbD k) →
        exec .readMagic s = .next { s with
          src := some { bits := r.bits, pos := r.pos + 32 }, err := 0x01, errCmd := 0xA000 })) ∧
    (r.bits.length < r.pos + 32 → exec .readMagic s = .next { s with err := 0x01, errCmd := 0xA000 })

/-- R101, R105, R106: READ_TREE on the header of a tree (internal root, depth at most 256, distinct symbols, the sentinel among
them) rebuilds a tree of the same shape and symbols, numbered in preorder, every weight 0, and consumes exactly the header. -/
def Obligations.ReadTreeRebuildsTheTreeOfAHeader : Prop :=
  ∀ (s : State) (r : BitSource) (T : CodeTree) (rest : List Bool), s.err = 0 → s.src = some r →
    r.bits.drop r.pos = T.header ++ rest →
    T.isInternal = true → T.depth ≤ 256 → T.leaves.Nodup → sentinel ∈ T.leaves →
    ∃ (t : State) (T' : CodeTree), exec .readTree s = .next t ∧ IsTree t.node 0 t.nodeCount T' ∧ T.sameShape T' = true ∧
      T'.indices.map (·.val) = List.range t.nodeCount.val ∧ (∀ i : NodeIdx, t.node[i].weight = 0) ∧
      t = { s with
        node := t.node, nodeCount := t.nodeCount, root := 0, treeValid := true
        code := Vector.replicate 257 { valid := false, len := 0, bits := 0 }, codesValid := false
        hdrBits := BitVec.ofNat 32 T.header.length, decState := .atRoot, cur := 0, decSyms := 0
        src := some { bits := r.bits, pos := r.pos + T.header.length } }

/-- R109: every tree READ_TREE accepts satisfies R25, and the bits it read are that tree's header. -/
def Obligations.ReadTreeAcceptsOnlyHeadersOfTrees : Prop :=
  ∀ (s t : State) (r : BitSource), s.err = 0 → s.src = some r → exec .readTree s = .next t → t.err = 0 →
    ∃ T, IsTree t.node t.root t.nodeCount T ∧ t.treeValid = true ∧
      ∃ r', t.src = some r' ∧ r'.bits = r.bits ∧ r.bits.drop r.pos = T.header ++ r.bits.drop r'.pos

/-- R105, R126: a READ_TREE that raises an error leaves no valid tree, no codes, the word 0xB000 in `ERR_CMD`, and the decoder's
state, the counts and the sink as they were. -/
def Obligations.FailedReadTreeLeavesNoTree : Prop :=
  ∀ (s : State) (r : BitSource), s.err = 0 → s.src = some r →
    ∃ t, exec .readTree s = .next t ∧
      (t.err ≠ 0 → t.err ∈ [0x02, 0x09, 0x0A, 0x0B, 0x0C, 0x0D, 0x0E] ∧ ¬ TreeOk t ∧
        ∃ p, t = { s with
          node := t.node, nodeCount := t.nodeCount, root := 0, treeValid := false
          code := Vector.replicate 257 { valid := false, len := 0, bits := 0 }, codesValid := false
          hdrBits := t.hdrBits, err := t.err, errCmd := 0xB000
          src := some { bits := r.bits, pos := p } })

/-- R107, R108, R109 and R105's truncation: headers that READ_TREE rejects, each with its error, and how many entries it had
allocated. -/
def Obligations.ReadTreeRejectsMalformedHeaders : Prop :=
  ∀ (s : State) (r : BitSource) (rest : List Bool), s.err = 0 → s.src = some r →
    (r.bits.drop r.pos = [] →
      ∃ t, exec .readTree s = .next t ∧ t.err = 0x02 ∧ t.nodeCount = 1) ∧
    (r.bits.drop r.pos = List.replicate 257 false ++ rest →
      ∃ t, exec .readTree s = .next t ∧ t.err = 0x0B ∧ t.nodeCount = 257) ∧
    (∀ v, 256 < v → v < 512 → r.bits.drop r.pos = true :: (bitsOf 9 v ++ rest) →
      ∃ t, exec .readTree s = .next t ∧ t.err = 0x09 ∧ t.nodeCount = 1) ∧
    (∀ a : Symbol, r.bits.drop r.pos = false :: true :: (bitsOf 9 a.val ++ true :: (bitsOf 9 a.val ++ rest)) →
      ∃ t, exec .readTree s = .next t ∧ t.err = 0x0A ∧ t.nodeCount = 3) ∧
    (∀ a : Symbol, r.bits.drop r.pos = true :: (bitsOf 9 a.val ++ rest) →
      ∃ t, exec .readTree s = .next t ∧ t.err = 0x0D ∧ t.nodeCount = 1) ∧
    (∀ T : CodeTree, r.bits.drop r.pos = T.header ++ rest → T.isInternal = true → T.depth ≤ 256 → T.leaves.Nodup →
      sentinel ∉ T.leaves → ∃ t, exec .readTree s = .next t ∧ t.err = 0x0E) ∧
    (∀ T₁ T₂ : CodeTree, r.bits.drop r.pos = false :: (T₁.header ++ false :: (T₂.header ++ false :: rest)) →
      (T₁.leaves ++ T₂.leaves).Nodup → (T₁.leaves ++ T₂.leaves).length = 256 → T₁.depth < 256 → T₂.depth < 255 →
      ∃ t, exec .readTree s = .next t ∧ t.err = 0x0C ∧ t.nodeCount = 513)

/-! ## The encoder -/

/-- R110, R111: ENCODE_SYM appends the symbol's code and adds its length to `ENC_BITS`; its errors are NO_CODES, SINK_CLOSED and
NO_CODE, in that order, before anything is written; an operand above 256 makes the word illegal (R73). -/
def Obligations.EncodeSymAppendsTheCode : Prop :=
  ∀ (s : State) (arg : BitVec 9), s.err = 0 →
    (∀ (a : Symbol) (d : BitSink), arg.toNat = a.val → s.codesValid = true → s.snk = some d → d.closed = false →
      (s.code[a].valid = true → exec (.encodeSym arg) s = .next { s with
        snk := some { bits := d.bits ++ codeBits s.code[a], closed := false }
        encBits := BitVec.ofNat 32 (s.encBits.toNat + s.code[a].len.toNat) }) ∧
      (s.code[a].valid = false → exec (.encodeSym arg) s = .next { s with
        err := 0x07, errCmd := BitVec.ofNat 16 (0x7000 + arg.toNat) })) ∧
    (arg.toNat ≤ 256 → s.codesValid = false →
      exec (.encodeSym arg) s = .next { s with err := 0x06, errCmd := BitVec.ofNat 16 (0x7000 + arg.toNat) }) ∧
    (∀ d, arg.toNat ≤ 256 → s.codesValid = true → s.snk = some d → d.closed = true →
      exec (.encodeSym arg) s = .next { s with err := 0x0F, errCmd := BitVec.ofNat 16 (0x7000 + arg.toNat) }) ∧
    (256 < arg.toNat →
      exec (.encodeSym arg) s = .next { s with err := 0x04, errCmd := BitVec.ofNat 16 (0x7000 + arg.toNat) })

/-- R112, R113: ENCODE_SCAN appends the body of the whole source's bytes, and `ENC_BITS` is its length. -/
def Obligations.EncodeScanAppendsTheBody : Prop :=
  ∀ (s : State) (r : BitSource) (d : BitSink), s.err = 0 → s.codesValid = true → s.src = some r → s.snk = some d →
    d.closed = false →
    (∀ b, b ∈ wholeBytes r.bits → s.code[byteSymbol b].valid = true) → s.code[sentinel].valid = true →
    exec .encodeScan s = .next { s with
      snk := some { bits := d.bits ++ bodyOf s.code (wholeBytes r.bits), closed := false }
      encBits := BitVec.ofNat 32 (bodyOf s.code (wholeBytes r.bits)).length
      src := some { bits := r.bits, pos := 8 * (r.bits.length / 8) } }

/-- R112: the errors of ENCODE_SCAN: NO_CODES and SINK_CLOSED before anything is read or written; NO_CODE at the first byte, or
the sentinel, without a code, the bits before it counted. What the sink then holds is left open: 93_implementation_defined.md
K1-1 lets no claim depend on it (log entry 16). -/
def Obligations.EncodeScanErrors : Prop :=
  ∀ s : State, s.err = 0 →
    (s.codesValid = false → exec .encodeScan s = .next { s with err := 0x06, errCmd := 0x8000 }) ∧
    (∀ d, s.codesValid = true → s.snk = some d → d.closed = true →
      exec .encodeScan s = .next { s with err := 0x0F, errCmd := 0x8000 }) ∧
    (∀ r d, s.codesValid = true → s.src = some r → s.snk = some d → d.closed = false →
      (∀ before b after, wholeBytes r.bits = before ++ b :: after →
        (∀ c, c ∈ before → s.code[byteSymbol c].valid = true) → s.code[byteSymbol b].valid = false →
        ∃ d', exec .encodeScan s = .next { s with
          snk := some d'
          encBits := BitVec.ofNat 32 (codesOfBytes s.code before).length
          src := some { bits := r.bits, pos := 8 * (before.length + 1) }
          err := 0x07, errCmd := 0x8000 }) ∧
      ((∀ c, c ∈ wholeBytes r.bits → s.code[byteSymbol c].valid = true) → s.code[sentinel].valid = false →
        ∃ d', exec .encodeScan s = .next { s with
          snk := some d'
          encBits := BitVec.ofNat 32 (codesOfBytes s.code (wholeBytes r.bits)).length
          src := some { bits := r.bits, pos := 8 * (r.bits.length / 8) }
          err := 0x07, errCmd := 0x8000 }))

/-- R52, R114: CLOSE_OUT pads the sink with the fewest zero bits that make whole bytes and closes it; on a closed sink it raises
SINK_CLOSED. -/
def Obligations.CloseOutPadsAndClosesTheSink : Prop :=
  ∀ (s : State) (d : BitSink), s.err = 0 → s.snk = some d →
    (d.closed = false → ∃ n, n < 8 ∧ (d.bits.length + n) % 8 = 0 ∧
      exec .closeOut s = .next { s with snk := some { bits := d.bits ++ List.replicate n false, closed := true } }) ∧
    (d.closed = true → exec .closeOut s = .next { s with err := 0x0F, errCmd := 0x9000 })

/-- R114, R151: after a close every writing command raises SINK_CLOSED with its own word and changes nothing else, once its
earlier checks pass. -/
def Obligations.ClosedSinkStopsEveryWrite : Prop :=
  ∀ (s : State) (d : BitSink), s.err = 0 → s.snk = some d → d.closed = true →
    exec .writeMagic s = .next { s with err := 0x0F, errCmd := 0x5000 } ∧
    (s.treeValid = true → exec .writeTree s = .next { s with err := 0x0F, errCmd := 0x6000 }) ∧
    (∀ arg : BitVec 9, arg.toNat ≤ 256 → s.codesValid = true →
      exec (.encodeSym arg) s = .next { s with err := 0x0F, errCmd := BitVec.ofNat 16 (0x7000 + arg.toNat) }) ∧
    (s.codesValid = true → exec .encodeScan s = .next { s with err := 0x0F, errCmd := 0x8000 }) ∧
    exec .closeOut s = .next { s with err := 0x0F, errCmd := 0x9000 } ∧
    (s.treeValid = true → s.decState ≠ .done →
      exec .decodeBit s = .next { s with err := 0x0F, errCmd := 0xC000 } ∧
      exec .decodeRun s = .next { s with err := 0x0F, errCmd := 0xD000 })

/-! ## The decoder -/

/-- R117, R118: DECODE_BIT reads one bit and moves to the left child for 0, to the right for 1; an internal node gives
`AT_NODE`, the sentinel's leaf `DONE`, any other leaf writes its symbol as a byte and returns to the root; with no bit left it
raises TRUNCATED_BODY and changes nothing else. -/
def Obligations.DecodeBitMakesOneTransition : Prop :=
  ∀ (s : State) (r : BitSource) (d : BitSink),
    s.err = 0 → s.treeValid = true → s.decState ≠ .done → s.src = some r → s.snk = some d → d.closed = false →
    (∀ (b : Bool) (rest : List Bool) (n : NodeIdx),
      r.bits.drop r.pos = b :: rest → n = (if b then s.node[s.cur].right else s.node[s.cur].left) →
      (s.node[n].kind = .internal → exec .decodeBit s = .next { s with
        src := some { bits := r.bits, pos := r.pos + 1 }, cur := n, decState := .atNode }) ∧
      (s.node[n].kind = .leaf → s.node[n].sym = sentinel → exec .decodeBit s = .next { s with
        src := some { bits := r.bits, pos := r.pos + 1 }, cur := n, decState := .done }) ∧
      (s.node[n].kind = .leaf → s.node[n].sym ≠ sentinel → exec .decodeBit s = .next { s with
        src := some { bits := r.bits, pos := r.pos + 1 }, cur := s.root, decState := .atRoot
        decSyms := BitVec.ofNat 32 (s.decSyms.toNat + 1)
        snk := some { bits := d.bits ++ bitsOf 8 s.node[n].sym.val, closed := false } })) ∧
    (r.bits.drop r.pos = [] → exec .decodeBit s = .next { s with err := 0x03, errCmd := 0xC000 })

/-- R118, R119: the other outcomes of DECODE_BIT and DECODE_RUN, checked in this order: NO_TREE; nothing at all in `DONE`;
SINK_CLOSED; TRUNCATED_BODY on an exhausted source, with nothing changed but the error. -/
def Obligations.DecodeChecksInOrder : Prop :=
  ∀ s : State, s.err = 0 →
    (s.treeValid = false →
      exec .decodeBit s = .next { s with err := 0x05, errCmd := 0xC000 } ∧
      exec .decodeRun s = .next { s with err := 0x05, errCmd := 0xD000 }) ∧
    (s.treeValid = true → s.decState = .done → exec .decodeBit s = .next s ∧ exec .decodeRun s = .next s) ∧
    (∀ d, s.treeValid = true → s.decState ≠ .done → s.snk = some d → d.closed = true →
      exec .decodeBit s = .next { s with err := 0x0F, errCmd := 0xC000 } ∧
      exec .decodeRun s = .next { s with err := 0x0F, errCmd := 0xD000 }) ∧
    (∀ r d, s.treeValid = true → s.decState ≠ .done → s.snk = some d → d.closed = false → s.src = some r →
      r.bits.length ≤ r.pos →
      exec .decodeBit s = .next { s with err := 0x03, errCmd := 0xC000 } ∧
      exec .decodeRun s = .next { s with err := 0x03, errCmd := 0xD000 })

/-- R119, R120: DECODE_RUN is DECODE_BIT until `DONE` or an error: it always ends, in `DONE` after at most as many transitions as
there are unread bits, or with TRUNCATED_BODY at one more. Only the word recorded with an error is its own. -/
def Obligations.DecodeRunRepeatsDecodeBit : Prop :=
  ∀ (s : State) (r : BitSource) (d : BitSink), s.err = 0 → s.treeValid = true → s.src = some r → s.snk = some d →
    d.closed = false →
    ∃ (n : Nat) (t : State), runHost (List.replicate n (.issue 0xC000)) s = .next t ∧
      (t.err = 0 ∧ t.decState = .done ∧ n ≤ r.bits.length - r.pos ∨ t.err = 0x03 ∧ n ≤ r.bits.length - r.pos + 1) ∧
      exec .decodeRun s = .next { t with errCmd := if t.err = 0 then t.errCmd else 0xD000 }

/-- R59, R119: on the codes of bytes followed by the sentinel's code, DECODE_RUN from the root writes exactly those bytes, ends
in `DONE` at the sentinel's leaf, and reads no bit after the sentinel's code. -/
def Obligations.DecodeRunDecodesABody : Prop :=
  ∀ (s : State) (T : CodeTree) (r : BitSource) (d : BitSink) (bytes : List (BitVec 8)) (rest : List Bool),
    s.err = 0 → s.treeValid = true → IsTree s.node s.root s.nodeCount T → s.decState = .atRoot → s.cur = s.root →
    s.src = some r → s.snk = some d → d.closed = false →
    r.bits.drop r.pos = pathBody T bytes ++ rest → (∀ b ∈ bytes, byteSymbol b.toNat ∈ T.leaves) →
    ∃ leaf, T.leafOf? sentinel = some leaf ∧
      exec .decodeRun s = .next { s with
        src := some { bits := r.bits, pos := r.pos + (pathBody T bytes).length }
        snk := some { bits := d.bits ++ bitsOfBytes bytes, closed := false }
        decState := .done, cur := leaf
        decSyms := BitVec.ofNat 32 (s.decSyms.toNat + bytes.length) }

/-- The source's property S7 (R118, R119): a body cut before the end of its sentinel's code raises TRUNCATED_BODY. -/
def Obligations.TruncatedBodyIsRejected : Prop :=
  ∀ (s : State) (T : CodeTree) (r : BitSource) (d : BitSink) (bytes : List (BitVec 8)) (missing : List Bool),
    s.err = 0 → s.treeValid = true → IsTree s.node s.root s.nodeCount T → s.decState = .atRoot → s.cur = s.root →
    s.src = some r → s.snk = some d → d.closed = false →
    r.bits.drop r.pos ++ missing = pathBody T bytes → missing ≠ [] → (∀ b ∈ bytes, byteSymbol b.toNat ∈ T.leaves) →
    ∃ t, exec .decodeRun s = .next t ∧ t.err = 0x03 ∧ t.errCmd = 0xD000

/-- R59, R119: the bits after those DECODE_RUN reads do not matter: two sources that agree up to there give the same result. -/
def Obligations.DecodeRunIgnoresWhatFollowsTheSentinel : Prop :=
  ∀ (s t : State) (bits tail tail' : List Bool) (p q : Nat), s.err = 0 →
    exec .decodeRun { s with src := some { bits := bits ++ tail, pos := p } } = .next t →
    t.err = 0 → t.src = some { bits := bits ++ tail, pos := q } → q ≤ bits.length →
    exec .decodeRun { s with src := some { bits := bits ++ tail', pos := p } } =
      .next { t with src := some { bits := bits ++ tail', pos := q } }

/-! ## Whole calls -/

/-- R58, R144, R145: compressing bytes whose counts fit succeeds, and the sink then holds, as whole bytes, the magic number, the
header of the built tree, the body and fewer than 8 zero bits; the call's last operation reads `ERR = 0` in `STATUS`. The reply
is the model's own field (log entry 10), and the call begins with the reset of R144's "reset or CLEAR" (log entry 25). -/
def Obligations.CompressWritesTheWireFormat : Prop :=
  ∀ (s : State) (bytes : List (BitVec 8)), (∀ b, bytes.count b < 2 ^ s.params.countW) →
    ∃ (t : State) (T : CodeTree) (n : Nat), runHost (compressCall bytes) s = .next t ∧ t.err = 0 ∧
      t.reply = some (.value 0x0013) ∧
      IsTree t.node t.root t.nodeCount T ∧ n < 8 ∧ (sinkBits t).length % 8 = 0 ∧
      t.snk = some { closed := true
                     bits := (List.range 32).map (fun k => s.params.magic.getMsbD k) ++ T.header ++ pathBody T bytes ++
                       List.replicate n false }

/-- R121: what the words of COMPRESS wrote on any bytes without an error, the words of DECOMPRESS turn back into those bytes, on
any core with the same `MAGIC`; and COMPRESS makes no error when the counts fit. -/
def Obligations.DecompressInvertsCompress : Prop :=
  ∀ (s c : State) (bytes : List (BitVec 8)), s.err = 0 → c.err = 0 → c.params.magic = s.params.magic →
    ((∀ b, bytes.count b < 2 ^ s.params.countW) →
      ∃ t, runHost (.bindSource (bitsOfBytes bytes) :: .bindSink :: compressWords.map .issue) s = .next t ∧ t.err = 0) ∧
    ∀ t, runHost (.bindSource (bitsOfBytes bytes) :: .bindSink :: compressWords.map .issue) s = .next t → t.err = 0 →
      ∃ u, runHost (.bindSource (sinkBits t) :: .bindSink :: decompressWords.map .issue) c = .next u ∧ u.err = 0 ∧
        u.decState = .done ∧ u.snk = some { bits := bitsOfBytes bytes, closed := true }

/-- The source's property S6 (R104, R125): decompressing a stream whose first 32 bits are not `MAGIC`, or that has fewer, ends
with BAD_MAGIC, which the call's last operation reads in `STATUS` (R144), and an empty, open sink. The reply is the model's own
field (log entry 10), and the call begins with the reset of R144's "reset or CLEAR" (log entry 25). -/
def Obligations.CorruptMagicProducesNoOutput : Prop :=
  ∀ (s : State) (stream : List Bool),
    stream.take 32 ≠ (List.range 32).map (fun k => s.params.magic.getMsbD k) →
    ∃ t, runHost (decompressCall stream) s = .next t ∧ t.err = 0x01 ∧ t.errCmd = 0xA000 ∧ t.treeValid = false ∧
      t.reply = some (.value 0x0100) ∧
      t.snk = some { bits := [], closed := false }

/-! ## The read port -/

/-- R28, R29: the register map and the fields of `STATUS`. That SINK_CLOSED reads 0 with no sink bound is the model's reading
(log entry 4), and so is the range of `COUNT_W` assumed (log entry 6). -/
def Obligations.RegisterMapReadsTheRegisters : Prop :=
  ∀ s : State, s.params.wf = true →
    (∃ st, hostRead s 0 0x00 = st ∧ st < 2 ^ 16 ∧ st % 2 = s.treeValid.toNat ∧ st / 2 % 2 = s.codesValid.toNat ∧
      st / 4 % 4 = (match s.decState with | .atRoot => 0 | .atNode => 1 | .done => 2) ∧
      st / 16 % 2 = (match s.snk with | some d => d.closed.toNat | none => 0) ∧ st / 32 % 8 = 0 ∧
      st / 256 = s.err.toNat) ∧
    hostRead s 0 0x01 = s.errCmd.toNat ∧ hostRead s 0 0x02 = s.root.val ∧ hostRead s 0 0x03 = s.nodeCount.val ∧
    hostRead s 0 0x04 = s.cur.val ∧ hostRead s 0 0x05 = s.hdrBits.toNat ∧ hostRead s 0 0x06 = s.encBits.toNat ∧
    hostRead s 0 0x07 = s.decSyms.toNat ∧ hostRead s 0 0x08 = s.params.magic.toNat ∧ hostRead s 0 0x09 = s.params.countW

/-- R60: reads outside a space's range, and of spaces above 3, return 0; space 1 returns the counts. -/
def Obligations.ReadPortRanges : Prop :=
  ∀ s : State, (∀ a : Symbol, hostRead s 1 a.val = s.freq[a]) ∧
    (∀ n, 0x09 < n → hostRead s 0 n = 0) ∧ (∀ n, 256 < n → hostRead s 1 n = 0) ∧ (∀ n, 512 < n → hostRead s 2 n = 0) ∧
    (∀ n, 256 < n → hostRead s 3 n = 0) ∧ (∀ space n, 3 < space → hostRead s space n = 0)

/-- R24: the packed word of a node entry whose weight fits `WEIGHT_W` bits holds every field at its bits and nothing above them:
71 bits with `COUNT_W = 32`, and 0 for an entry that is all 0. -/
def Obligations.PackedNodeWordHoldsEveryField : Prop :=
  ∀ (s : State) (i : NodeIdx) (w : Nat), w = hostRead s 2 i.val → s.node[i].weight < 2 ^ (s.params.countW + 9) →
    w % 2 = (match s.node[i].kind with | .internal => 0 | .leaf => 1) ∧ w / 2 % 2 ^ 9 = s.node[i].sym.val ∧
    w / 2 ^ 10 % 2 ^ 10 = s.node[i].left.val ∧ w / 2 ^ 20 % 2 ^ 10 = s.node[i].right.val ∧
    w / 2 ^ 30 = s.node[i].weight ∧ (s.params.countW = 32 → w < 2 ^ 71) ∧
    (s.node[i] = { kind := .internal, sym := 0, left := 0, right := 0, weight := 0 } → w = 0)

/-- R26: the packed word of a code entry gives back every field at its bits. -/
def Obligations.PackedCodeWordHoldsEveryField : Prop :=
  ∀ (s : State) (a : Symbol) (w : Nat), w = hostRead s 3 a.val →
    w % 2 = s.code[a].valid.toNat ∧ w / 2 % 2 ^ 9 = s.code[a].len.toNat ∧ w / 2 ^ 10 = s.code[a].bits.toNat

/-! ## The whole machine -/

/-- The invariant holds at reset. -/
def Obligations.ResetSatisfiesTheInvariant : Prop := Inv State.reset

/-- Every step keeps the invariant: FREQ[256] = 1 (R22), counts and weights fit (R21), `TREE_VALID` is 1 exactly when the node
memory holds a tree (R25, R30), the code table is that tree's (R31), the decoder stands on it (R33), `ERR_CMD` is 0 without an
error (R37), the source's position is within it (R46), a closed sink holds whole bytes (R52). -/
def Obligations.EveryStepKeepsTheInvariant : Prop := ∀ s t : State, Inv s → step s = .next t → Inv t

/-- R25: what the entries hold when `TREE_VALID = 1`, entry by entry, in every state of the invariant. -/
def Obligations.ValidTreeHasTheShapeOfR25 : Prop :=
  ∀ s : State, Inv s → s.treeValid = true →
    s.root.val < s.nodeCount.val ∧ s.node[s.root].kind = .internal ∧
    (∀ i : NodeIdx, i.val < s.nodeCount.val → s.node[i].kind = .internal →
      s.node[i].left.val < s.nodeCount.val ∧ s.node[i].right.val < s.nodeCount.val ∧ s.node[i].left ≠ s.node[i].right ∧
      s.node[i].left ≠ s.root ∧ s.node[i].right ≠ s.root) ∧
    (∀ j : NodeIdx, j.val < s.nodeCount.val → j ≠ s.root → ∃ i : NodeIdx, (i.val < s.nodeCount.val ∧
      s.node[i].kind = .internal ∧ (s.node[i].left = j ∨ s.node[i].right = j)) ∧
      ∀ k : NodeIdx, k.val < s.nodeCount.val → s.node[k].kind = .internal →
        (s.node[k].left = j ∨ s.node[k].right = j) → k = i) ∧
    (∀ i j : NodeIdx, i.val < s.nodeCount.val → j.val < s.nodeCount.val → s.node[i].kind = .leaf →
      s.node[j].kind = .leaf → s.node[i].sym = s.node[j].sym → i = j) ∧
    (∃ i : NodeIdx, i.val < s.nodeCount.val ∧ s.node[i].kind = .leaf ∧ s.node[i].sym = 256) ∧
    (∀ (p : List Bool) (i : NodeIdx), descend s.node s.root p = some i → p.length ≤ 256) ∧
    (∀ i : NodeIdx, i.val < s.nodeCount.val → ∃ p, descend s.node s.root p = some i) ∧
    (∀ i : NodeIdx, s.nodeCount.val ≤ i.val →
      s.node[i] = { kind := .internal, sym := 0, left := 0, right := 0, weight := 0 })

/-- R86, R139: in every state of the invariant every command completes, none is refused and none faults, once the streams it
needs are bound. -/
def Obligations.EveryCommandCompletes : Prop :=
  ∀ (i : Instr) (s : State), Inv s → streamsBound i s = true → ∃ t, exec i s = .next t

/-- The model's one fault arises only where `TREE_VALID = 1` and the memory holds no tree, which R30 excludes (log entry 7), and
only in GEN_CODES and WRITE_TREE. -/
def Obligations.FaultNeedsAnInvalidTree : Prop :=
  ∀ (i : Instr) (s : State) (f : Fault), exec i s = .fault f →
    (i = .genCodes ∨ i = .writeTree) ∧ s.treeValid = true ∧ ¬ TreeOk s

/-- R143, K2-10 (log entry 3): a command that reaches a stream the host never bound is refused by name, and no command is
refused otherwise. -/
def Obligations.OnlyUnboundStreamsAreRefused : Prop :=
  (∀ (i : Instr) (s : State) (x : Refusal), exec i s = .refused x →
    (x = .sourceUnbound ∧ s.src = none ∧ needsSource i = true) ∨ (x = .sinkUnbound ∧ s.snk = none ∧ needsSink i = true)) ∧
  ∀ s : State, s.err = 0 →
    (s.src = none → exec .freqScan s = .refused .sourceUnbound ∧ exec .readMagic s = .refused .sourceUnbound ∧
      exec .readTree s = .refused .sourceUnbound) ∧
    (s.snk = none → exec .writeMagic s = .refused .sinkUnbound ∧ exec .closeOut s = .refused .sinkUnbound ∧
      (s.treeValid = true → exec .writeTree s = .refused .sinkUnbound) ∧
      (s.codesValid = true → exec .encodeScan s = .refused .sinkUnbound) ∧
      (∀ arg : BitVec 9, arg.toNat ≤ 256 → s.codesValid = true → exec (.encodeSym arg) s = .refused .sinkUnbound) ∧
      (s.treeValid = true → s.decState ≠ .done →
        exec .decodeBit s = .refused .sinkUnbound ∧ exec .decodeRun s = .refused .sinkUnbound)) ∧
    (∀ d, s.src = none → s.snk = some d → d.closed = false →
      (s.codesValid = true → exec .encodeScan s = .refused .sourceUnbound) ∧
      (s.treeValid = true → s.decState ≠ .done →
        exec .decodeBit s = .refused .sourceUnbound ∧ exec .decodeRun s = .refused .sourceUnbound))

/-- The frame of every command, over all states it goes on from: what its rule's "State written" does not list, but for the
error entry, is unchanged (R83, R84, R87, R90, R97, R102 to R105, R111, R112, R114, R118, R119). -/
def Obligations.CommandsWriteOnlyWhatTheirRulesList : Prop :=
  ∀ (i : Instr) (s t : State), exec i s = .next t →
    t.params = s.params ∧ t.pending = s.pending ∧ t.reply = s.reply ∧
    (i ≠ .clear → i ≠ .freqScan → t.freq = s.freq) ∧
    (i ≠ .clear → i ≠ .buildTree → i ≠ .readTree →
      t.node = s.node ∧ t.root = s.root ∧ t.nodeCount = s.nodeCount ∧ t.treeValid = s.treeValid) ∧
    (i ≠ .clear → i ≠ .buildTree → i ≠ .readTree → i ≠ .genCodes → t.code = s.code ∧ t.codesValid = s.codesValid) ∧
    (i ≠ .clear → i ≠ .buildTree → i ≠ .readTree → i ≠ .decodeBit → i ≠ .decodeRun →
      t.decState = s.decState ∧ t.cur = s.cur ∧ t.decSyms = s.decSyms) ∧
    (i ≠ .clear → i ≠ .writeTree → i ≠ .readTree → t.hdrBits = s.hdrBits) ∧
    (i ≠ .clear → (∀ arg, i ≠ .encodeSym arg) → i ≠ .encodeScan → t.encBits = s.encBits) ∧
    (needsSource i = false → t.src = s.src) ∧ (needsSink i = false → t.snk = s.snk) ∧
    (i ≠ .clear → t.err = s.err → t.errCmd = s.errCmd)

/-- R46, R50, R57, R126: no command changes the source's bits or removes a bit from the sink; only CLOSE_OUT closes it; a closed
sink is never written. -/
def Obligations.SourceBitsAreKeptAndSinkOnlyGrows : Prop :=
  ∀ (i : Instr) (s t : State), exec i s = .next t →
    t.src.map (·.bits) = s.src.map (·.bits) ∧
    (∀ d, s.snk = some d → ∃ d', t.snk = some d' ∧ d.bits <+: d'.bits ∧ (d.closed = true → d' = d) ∧
      (i ≠ .closeOut → d'.closed = d.closed)) ∧
    (s.snk = none → t.snk = none)

/-- R124, R125, R36: an error, once recorded, is left only by CLEAR; a command raises at most one, with its own word. -/
def Obligations.FirstErrorIsKeptUntilClear : Prop :=
  ∀ (i : Instr) (s t : State), exec i s = .next t → i ≠ .clear →
    (s.err ≠ 0 → t.err = s.err ∧ t.errCmd = s.errCmd) ∧ (s.err = 0 → t.err ≠ 0 → t.errCmd = encode i)
end

