-- ==== Sys2Proof/Laws/Bits.lean ====
section
/-! SUPPORT. Bit sequences and their values determine each other (R11, R47). -/

namespace Sys2Proof.Machine

@[simp] theorem bitsOf_length (n v : Nat) : (bitsOf n v).length = n := by
  induction n with
  | zero => rfl
  | succ n ih => simp [bitsOf, ih]

theorem foldl_bits (bs : List Bool) (a : Nat) :
    bs.foldl (fun v b => 2 * v + b.toNat) a = a * 2 ^ bs.length + natOfBits bs := by
  induction bs generalizing a with
  | nil => simp [natOfBits]
  | cons b bs ih =>
    simp only [natOfBits, List.foldl_cons, List.length_cons]
    rw [ih, ih (2 * 0 + b.toNat)]
    ring

@[simp] theorem natOfBits_nil : natOfBits [] = 0 := rfl

@[simp] theorem natOfBits_cons (b : Bool) (bs : List Bool) :
    natOfBits (b :: bs) = b.toNat * 2 ^ bs.length + natOfBits bs := by
  simp [natOfBits, foldl_bits bs b.toNat]

theorem natOfBits_append (bs cs : List Bool) :
    natOfBits (bs ++ cs) = natOfBits bs * 2 ^ cs.length + natOfBits cs := by
  simp only [natOfBits, List.foldl_append]
  exact foldl_bits cs _

theorem natOfBits_lt (bs : List Bool) : natOfBits bs < 2 ^ bs.length := by
  induction bs with
  | nil => simp
  | cons b bs ih =>
    have hb : b.toNat ≤ 1 := by cases b <;> simp
    rw [natOfBits_cons, List.length_cons, pow_succ]
    nlinarith [Nat.mul_le_mul_right (2 ^ bs.length) hb]

theorem testBit_toNat_mul_add (n v : Nat) : (v.testBit n).toNat * 2 ^ n + v % 2 ^ n = v % 2 ^ (n + 1) := by
  rw [pow_succ, Nat.mod_mul, Nat.toNat_testBit]
  ring

theorem natOfBits_bitsOf (n v : Nat) : natOfBits (bitsOf n v) = v % 2 ^ n := by
  induction n with
  | zero => simp [bitsOf, Nat.mod_one]
  | succ n ih => simp [bitsOf, ih, testBit_toNat_mul_add]

theorem natOfBits_bitsOf_of_lt {n v : Nat} (h : v < 2 ^ n) : natOfBits (bitsOf n v) = v := by
  rw [natOfBits_bitsOf, Nat.mod_eq_of_lt h]

theorem natOfBits_inj {bs cs : List Bool} (hl : bs.length = cs.length) (h : natOfBits bs = natOfBits cs) : bs = cs := by
  induction bs generalizing cs with
  | nil => cases cs with
    | nil => rfl
    | cons _ _ => simp at hl
  | cons b bs ih =>
    cases cs with
    | nil => simp at hl
    | cons c cs =>
      simp only [List.length_cons, Nat.add_right_cancel_iff] at hl
      simp only [natOfBits_cons] at h
      have hb := natOfBits_lt bs
      have hc := natOfBits_lt cs
      rw [← hl] at hc h
      have hbc : b = c := by cases b <;> cases c <;> simp at h ⊢ <;> omega
      subst hbc
      rw [ih hl (by omega)]

/-- `bits_n` of the value of `n` bits gives the bits back. -/
theorem bitsOf_natOfBits (bs : List Bool) : bitsOf bs.length (natOfBits bs) = bs :=
  natOfBits_inj (by simp) (natOfBits_bitsOf_of_lt (natOfBits_lt bs))

/-- A parameter's bits, most significant first. -/
theorem bitsOf_toNat {n : Nat} (v : BitVec n) (k : Nat) (h : k ≤ n) :
    bitsOf k v.toNat = (List.range k).map fun j => v.getMsbD (n - k + j) := by
  induction k with
  | zero => rfl
  | succ k ih =>
    rw [bitsOf, ih (by omega), List.range_succ_eq_map, List.map_cons, List.map_map]
    congr 1
    · have h₁ : n - (k + 1) < n := by omega
      have h₂ : n - 1 - (n - (k + 1)) = k := by omega
      rw [BitVec.getMsbD, BitVec.testBit_toNat, Nat.add_zero, h₂]
      simp [h₁]
    · apply List.map_congr_left
      intro j _
      have : n - k + j = n - (k + 1) + (j + 1) := by omega
      simp [this]

theorem bitsOf_magic (m : BitVec 32) : bitsOf 32 m.toNat = (List.range 32).map fun j => m.getMsbD j := by
  simpa using bitsOf_toNat m 32 (Nat.le_refl 32)

theorem bitsOfBytes_append (xs ys : List (BitVec 8)) : bitsOfBytes (xs ++ ys) = bitsOfBytes xs ++ bitsOfBytes ys := by
  simp [bitsOfBytes]

@[simp] theorem bitsOfBytes_nil : bitsOfBytes [] = [] := rfl

@[simp] theorem bitsOfBytes_cons (x : BitVec 8) (ys : List (BitVec 8)) :
    bitsOfBytes (x :: ys) = bitsOf 8 x.toNat ++ bitsOfBytes ys := rfl

@[simp] theorem bitsOfBytes_length (xs : List (BitVec 8)) : (bitsOfBytes xs).length = 8 * xs.length := by
  induction xs with
  | nil => rfl
  | cons x xs ih => simp [ih]; ring

end Sys2Proof.Machine
end

