-- ==== Sys2Proof/Laws/Streams.lean ====
section
/-! SUPPORT. What the stream primitives do (R47 to R52). -/

namespace Sys2Proof.Machine

namespace BitSource

/-- R48: EXHAUSTED exactly when fewer than `n` bits are left. -/
theorem readBits_eq_none {n : Nat} {r : BitSource} : r.readBits n = none ↔ r.bits.length < r.pos + n := by
  unfold readBits
  split <;> simp <;> omega

/-- R47: what a successful read returns and how it moves. -/
theorem readBits_eq_some {n v : Nat} {r r' : BitSource} :
    r.readBits n = some (v, r') ↔
      r.pos + n ≤ r.bits.length ∧ v = natOfBits ((r.bits.drop r.pos).take n) ∧ r' = { r with pos := r.pos + n } := by
  unfold readBits
  split
  · next h => simp [h, eq_comm]
  · next h => simp [h]

theorem readBits_bits {n v : Nat} {r r' : BitSource} (h : r.readBits n = some (v, r')) : r'.bits = r.bits := by
  rw [(readBits_eq_some.1 h).2.2]

theorem readBits_pos {n v : Nat} {r r' : BitSource} (h : r.readBits n = some (v, r')) : r'.pos = r.pos + n := by
  rw [(readBits_eq_some.1 h).2.2]

theorem readBits_lt {n v : Nat} {r r' : BitSource} (h : r.readBits n = some (v, r')) : v < 2 ^ n := by
  obtain ⟨hle, rfl, -⟩ := readBits_eq_some.1 h
  have := natOfBits_lt ((r.bits.drop r.pos).take n)
  simpa [Nat.min_eq_left (show n ≤ r.bits.length - r.pos by omega)] using this

theorem readBits_le {n v : Nat} {r r' : BitSource} (h : r.readBits n = some (v, r')) : r'.pos ≤ r'.bits.length := by
  obtain ⟨hle, -, rfl⟩ := readBits_eq_some.1 h
  exact hle

/-- A read of bits that stand next in the source gives their value. -/
theorem readBits_of_drop {r : BitSource} {bs rest : List Bool} (h : r.bits.drop r.pos = bs ++ rest) (hne : bs ≠ []) :
    r.readBits bs.length = some (natOfBits bs, { r with pos := r.pos + bs.length }) := by
  have hl := congrArg List.length h
  have hpos : 0 < bs.length := List.length_pos_iff.2 hne
  simp only [List.length_drop, List.length_append] at hl
  exact readBits_eq_some.2 ⟨by omega, by simp [h], rfl⟩

theorem readBits_one_of_drop {r : BitSource} {b : Bool} {rest : List Bool} (h : r.bits.drop r.pos = b :: rest) :
    r.readBits 1 = some (b.toNat, { r with pos := r.pos + 1 }) := by
  simpa using readBits_of_drop (bs := [b]) h (by simp)

theorem readBits_bitsOf {r : BitSource} {n v : Nat} {rest : List Bool} (h : r.bits.drop r.pos = bitsOf n v ++ rest)
    (hn : 0 < n) (hv : v < 2 ^ n) : r.readBits n = some (v, { r with pos := r.pos + n }) := by
  have hne : bitsOf n v ≠ [] := List.ne_nil_of_length_pos (by simpa using hn)
  have := readBits_of_drop h hne
  rwa [bitsOf_length, natOfBits_bitsOf_of_lt hv] at this

/-- What stands next after a move past `bs`. -/
theorem drop_of_drop {bits bs rest : List Bool} {p : Nat} (h : bits.drop p = bs ++ rest) :
    bits.drop (p + bs.length) = rest := by
  rw [← List.drop_drop, h, List.drop_left]

theorem drop_of_drop_bitsOf {bits rest : List Bool} {p n v : Nat} (h : bits.drop p = bitsOf n v ++ rest) :
    bits.drop (p + n) = rest := by
  have := drop_of_drop h
  rwa [bitsOf_length] at this

theorem drop_of_drop_cons {bits rest : List Bool} {b : Bool} {p : Nat} (h : bits.drop p = b :: rest) :
    bits.drop (p + 1) = rest := drop_of_drop (bs := [b]) h

theorem remaining_eq_length_drop (r : BitSource) : r.remaining = (r.bits.drop r.pos).length := by
  simp [remaining]

/-- A successful read, in terms of what stands next. -/
theorem drop_of_readBits {n v : Nat} {r r' : BitSource} (h : r.readBits n = some (v, r')) :
    r.bits.drop r.pos = bitsOf n v ++ r'.bits.drop r'.pos := by
  obtain ⟨hle, rfl, rfl⟩ := readBits_eq_some.1 h
  have hl : ((r.bits.drop r.pos).take n).length = n := by simp; omega
  have hb := bitsOf_natOfBits ((r.bits.drop r.pos).take n)
  rw [hl] at hb
  rw [hb, ← List.drop_drop, List.take_append_drop]

@[simp] theorem resetToStart_bits (r : BitSource) : r.resetToStart.bits = r.bits := rfl
@[simp] theorem resetToStart_pos (r : BitSource) : r.resetToStart.pos = 0 := rfl
@[simp] theorem bind_bits (bits : List Bool) : (BitSource.bind bits).bits = bits := rfl
@[simp] theorem bind_pos (bits : List Bool) : (BitSource.bind bits).pos = 0 := rfl

end BitSource

namespace BitSink

@[simp] theorem writeBits_bits (n v : Nat) (d : BitSink) : (d.writeBits n v).bits = d.bits ++ bitsOf n v := rfl
@[simp] theorem writeBits_closed (n v : Nat) (d : BitSink) : (d.writeBits n v).closed = d.closed := rfl
@[simp] theorem close_closed (d : BitSink) : d.close.closed = true := rfl

/-- R52: after a close the sink holds whole bytes. -/
theorem padLength_spec (len : Nat) : padLength len < 8 ∧ (len + padLength len) % 8 = 0 := by
  unfold padLength
  omega

theorem close_bits (d : BitSink) : d.close.bits = d.bits ++ List.replicate (padLength d.bits.length) false := rfl

theorem close_whole (d : BitSink) : d.close.bits.length % 8 = 0 := by
  simpa [close_bits] using (padLength_spec d.bits.length).2

end BitSink

theorem symbolOf?_eq_none {v : Nat} : symbolOf? v = none ↔ 256 < v := by
  unfold symbolOf?
  split <;> simp <;> omega

theorem symbolOf?_eq_some {v : Nat} {a : Symbol} : symbolOf? v = some a ↔ v = a.val := by
  unfold symbolOf?
  split
  · next h => simp [Fin.ext_iff, eq_comm]
  · next h => simp; omega

@[simp] theorem symbolOf?_val (a : Symbol) : symbolOf? a.val = some a := symbolOf?_eq_some.2 rfl

theorem byteSymbol_val {b : Nat} (h : b < 256) : (byteSymbol b).val = b := Nat.mod_eq_of_lt h

theorem byteSymbol_ne_sentinel (b : Nat) : byteSymbol b ≠ sentinel := by
  intro h
  have := congrArg Fin.val h
  have : (byteSymbol b).val < 256 := Nat.mod_lt _ (by omega)
  simp_all

end Sys2Proof.Machine
end

