-- ==== Sys2Proof/Laws/Bytes.lean ====
section
/-! SUPPORT. A source read byte by byte (R53, R55). -/

namespace Sys2Proof.Machine

theorem wholeBytes_eq_nil {bs : List Bool} (h : bs.length < 8) : wholeBytes bs = [] := by
  match bs, h with
  | [], _ | [_], _ | [_, _], _ | [_, _, _], _ | [_, _, _, _], _ | [_, _, _, _, _], _ | [_, _, _, _, _, _], _
  | [_, _, _, _, _, _, _], _ => rfl
  | _ :: _ :: _ :: _ :: _ :: _ :: _ :: _ :: _, h => simp at h; omega

theorem wholeBytes_append {bs : List Bool} (h : bs.length = 8) (rest : List Bool) :
    wholeBytes (bs ++ rest) = natOfBits bs :: wholeBytes rest := by
  match bs, h with
  | [_, _, _, _, _, _, _, _], _ => rfl

theorem wholeBytes_bitsOf {v : Nat} (h : v < 256) (rest : List Bool) :
    wholeBytes (bitsOf 8 v ++ rest) = v :: wholeBytes rest := by
  rw [wholeBytes_append (by simp), natOfBits_bitsOf_of_lt (by simpa using h)]

theorem wholeBytes_step {bs : List Bool} (h : 8 ≤ bs.length) :
    wholeBytes bs = natOfBits (bs.take 8) :: wholeBytes (bs.drop 8) := by
  conv_lhs => rw [← List.take_append_drop 8 bs]
  exact wholeBytes_append (by simp; omega) _

theorem wholeBytes_length (bs : List Bool) : (wholeBytes bs).length = bs.length / 8 := by
  induction hn : bs.length using Nat.strong_induction_on generalizing bs with
  | _ n ih =>
    by_cases h : bs.length < 8
    · rw [wholeBytes_eq_nil h, List.length_nil]
      omega
    · rw [wholeBytes_step (by omega), List.length_cons, ih (n - 8) (by omega) (bs.drop 8) (by simp [hn])]
      omega

theorem lt_of_mem_wholeBytes {bs : List Bool} {b : Nat} (h : b ∈ wholeBytes bs) : b < 256 := by
  induction hn : bs.length using Nat.strong_induction_on generalizing bs with
  | _ n ih =>
    by_cases h8 : bs.length < 8
    · simp [wholeBytes_eq_nil h8] at h
    · rw [wholeBytes_step (by omega), List.mem_cons] at h
      rcases h with rfl | h
      · have := natOfBits_lt (bs.take 8)
        rwa [List.length_take, Nat.min_eq_left (by omega)] at this
      · exact ih (n - 8) (by omega) h (by simp [hn])

theorem wholeBytes_bitsOfBytes (bytes : List (BitVec 8)) :
    wholeBytes (bitsOfBytes bytes) = bytes.map (·.toNat) := by
  induction bytes with
  | nil => rfl
  | cons b bytes ih => rw [bitsOfBytes_cons, wholeBytes_bitsOf b.isLt, ih, List.map_cons]

/-- With a whole byte next, `ReadBits(8)` returns it. -/
theorem readBits_byte {r : BitSource} {b : Nat} {bs : List Nat} (h : wholeBytes (r.bits.drop r.pos) = b :: bs) :
    r.readBits 8 = some (b, { r with pos := r.pos + 8 }) ∧ wholeBytes (r.bits.drop (r.pos + 8)) = bs := by
  have h8 : 8 ≤ (r.bits.drop r.pos).length := by
    by_contra hc
    rw [wholeBytes_eq_nil (by omega)] at h
    simp at h
  rw [wholeBytes_step h8, List.cons.injEq, List.drop_drop] at h
  rw [List.length_drop] at h8
  exact ⟨BitSource.readBits_eq_some.2 ⟨by omega, h.1.symm, rfl⟩, h.2⟩

/-- With no whole byte left, `ReadBits(8)` is EXHAUSTED. -/
theorem readBits_no_byte {r : BitSource} (h : wholeBytes (r.bits.drop r.pos) = []) : r.readBits 8 = none := by
  rw [BitSource.readBits_eq_none]
  by_contra hc
  rw [wholeBytes_step (by simp; omega)] at h
  simp at h

end Sys2Proof.Machine
end

