-- ==== Sys2Proof/Laws/State.lean ====
section
/-! SUPPORT. What each shared update of the state leaves in each field, so that no proof unfolds a record update. -/

namespace Sys2Proof.Machine

/-! `errorEntry` -/

@[simp] theorem errorEntry_params (e : Err) (w : Word) (s : State) : (errorEntry e w s).params = s.params := rfl
@[simp] theorem errorEntry_freq (e : Err) (w : Word) (s : State) : (errorEntry e w s).freq = s.freq := rfl
@[simp] theorem errorEntry_node (e : Err) (w : Word) (s : State) : (errorEntry e w s).node = s.node := rfl
@[simp] theorem errorEntry_code (e : Err) (w : Word) (s : State) : (errorEntry e w s).code = s.code := rfl
@[simp] theorem errorEntry_root (e : Err) (w : Word) (s : State) : (errorEntry e w s).root = s.root := rfl
@[simp] theorem errorEntry_nodeCount (e : Err) (w : Word) (s : State) : (errorEntry e w s).nodeCount = s.nodeCount := rfl
@[simp] theorem errorEntry_treeValid (e : Err) (w : Word) (s : State) : (errorEntry e w s).treeValid = s.treeValid := rfl
@[simp] theorem errorEntry_codesValid (e : Err) (w : Word) (s : State) : (errorEntry e w s).codesValid = s.codesValid := rfl
@[simp] theorem errorEntry_decState (e : Err) (w : Word) (s : State) : (errorEntry e w s).decState = s.decState := rfl
@[simp] theorem errorEntry_cur (e : Err) (w : Word) (s : State) : (errorEntry e w s).cur = s.cur := rfl
@[simp] theorem errorEntry_err (e : Err) (w : Word) (s : State) : (errorEntry e w s).err = e.code := rfl
@[simp] theorem errorEntry_errCmd (e : Err) (w : Word) (s : State) : (errorEntry e w s).errCmd = w := rfl
@[simp] theorem errorEntry_hdrBits (e : Err) (w : Word) (s : State) : (errorEntry e w s).hdrBits = s.hdrBits := rfl
@[simp] theorem errorEntry_encBits (e : Err) (w : Word) (s : State) : (errorEntry e w s).encBits = s.encBits := rfl
@[simp] theorem errorEntry_decSyms (e : Err) (w : Word) (s : State) : (errorEntry e w s).decSyms = s.decSyms := rfl
@[simp] theorem errorEntry_src (e : Err) (w : Word) (s : State) : (errorEntry e w s).src = s.src := rfl
@[simp] theorem errorEntry_snk (e : Err) (w : Word) (s : State) : (errorEntry e w s).snk = s.snk := rfl
@[simp] theorem errorEntry_pending (e : Err) (w : Word) (s : State) : (errorEntry e w s).pending = s.pending := rfl
@[simp] theorem errorEntry_reply (e : Err) (w : Word) (s : State) : (errorEntry e w s).reply = s.reply := rfl

/-! `dropTree` -/

@[simp] theorem dropTree_params (s : State) : (dropTree s).params = s.params := rfl
@[simp] theorem dropTree_freq (s : State) : (dropTree s).freq = s.freq := rfl
@[simp] theorem dropTree_node (s : State) : (dropTree s).node = emptyNodes := rfl
@[simp] theorem dropTree_code (s : State) : (dropTree s).code = emptyCodes := rfl
@[simp] theorem dropTree_root (s : State) : (dropTree s).root = 0 := rfl
@[simp] theorem dropTree_nodeCount (s : State) : (dropTree s).nodeCount = 0 := rfl
@[simp] theorem dropTree_treeValid (s : State) : (dropTree s).treeValid = false := rfl
@[simp] theorem dropTree_codesValid (s : State) : (dropTree s).codesValid = false := rfl
@[simp] theorem dropTree_decState (s : State) : (dropTree s).decState = s.decState := rfl
@[simp] theorem dropTree_cur (s : State) : (dropTree s).cur = s.cur := rfl
@[simp] theorem dropTree_err (s : State) : (dropTree s).err = s.err := rfl
@[simp] theorem dropTree_errCmd (s : State) : (dropTree s).errCmd = s.errCmd := rfl
@[simp] theorem dropTree_hdrBits (s : State) : (dropTree s).hdrBits = s.hdrBits := rfl
@[simp] theorem dropTree_encBits (s : State) : (dropTree s).encBits = s.encBits := rfl
@[simp] theorem dropTree_decSyms (s : State) : (dropTree s).decSyms = s.decSyms := rfl
@[simp] theorem dropTree_src (s : State) : (dropTree s).src = s.src := rfl
@[simp] theorem dropTree_snk (s : State) : (dropTree s).snk = s.snk := rfl
@[simp] theorem dropTree_pending (s : State) : (dropTree s).pending = s.pending := rfl
@[simp] theorem dropTree_reply (s : State) : (dropTree s).reply = s.reply := rfl

/-! `installTree` -/

@[simp] theorem installTree_params (i : NodeIdx) (s : State) : (installTree i s).params = s.params := rfl
@[simp] theorem installTree_freq (i : NodeIdx) (s : State) : (installTree i s).freq = s.freq := rfl
@[simp] theorem installTree_node (i : NodeIdx) (s : State) : (installTree i s).node = s.node := rfl
@[simp] theorem installTree_code (i : NodeIdx) (s : State) : (installTree i s).code = s.code := rfl
@[simp] theorem installTree_root (i : NodeIdx) (s : State) : (installTree i s).root = i := rfl
@[simp] theorem installTree_nodeCount (i : NodeIdx) (s : State) : (installTree i s).nodeCount = s.nodeCount := rfl
@[simp] theorem installTree_treeValid (i : NodeIdx) (s : State) : (installTree i s).treeValid = true := rfl
@[simp] theorem installTree_codesValid (i : NodeIdx) (s : State) : (installTree i s).codesValid = s.codesValid := rfl
@[simp] theorem installTree_decState (i : NodeIdx) (s : State) : (installTree i s).decState = .atRoot := rfl
@[simp] theorem installTree_cur (i : NodeIdx) (s : State) : (installTree i s).cur = i := rfl
@[simp] theorem installTree_err (i : NodeIdx) (s : State) : (installTree i s).err = s.err := rfl
@[simp] theorem installTree_errCmd (i : NodeIdx) (s : State) : (installTree i s).errCmd = s.errCmd := rfl
@[simp] theorem installTree_hdrBits (i : NodeIdx) (s : State) : (installTree i s).hdrBits = s.hdrBits := rfl
@[simp] theorem installTree_encBits (i : NodeIdx) (s : State) : (installTree i s).encBits = s.encBits := rfl
@[simp] theorem installTree_decSyms (i : NodeIdx) (s : State) : (installTree i s).decSyms = 0 := rfl
@[simp] theorem installTree_src (i : NodeIdx) (s : State) : (installTree i s).src = s.src := rfl
@[simp] theorem installTree_snk (i : NodeIdx) (s : State) : (installTree i s).snk = s.snk := rfl
@[simp] theorem installTree_pending (i : NodeIdx) (s : State) : (installTree i s).pending = s.pending := rfl
@[simp] theorem installTree_reply (i : NodeIdx) (s : State) : (installTree i s).reply = s.reply := rfl

/-! `clearCore` -/

@[simp] theorem clearCore_params (s : State) : (clearCore s).params = s.params := rfl
@[simp] theorem clearCore_freq (s : State) : (clearCore s).freq = emptyFreq := rfl
@[simp] theorem clearCore_node (s : State) : (clearCore s).node = emptyNodes := rfl
@[simp] theorem clearCore_code (s : State) : (clearCore s).code = emptyCodes := rfl
@[simp] theorem clearCore_root (s : State) : (clearCore s).root = 0 := rfl
@[simp] theorem clearCore_nodeCount (s : State) : (clearCore s).nodeCount = 0 := rfl
@[simp] theorem clearCore_treeValid (s : State) : (clearCore s).treeValid = false := rfl
@[simp] theorem clearCore_codesValid (s : State) : (clearCore s).codesValid = false := rfl
@[simp] theorem clearCore_decState (s : State) : (clearCore s).decState = .atRoot := rfl
@[simp] theorem clearCore_cur (s : State) : (clearCore s).cur = 0 := rfl
@[simp] theorem clearCore_err (s : State) : (clearCore s).err = 0 := rfl
@[simp] theorem clearCore_errCmd (s : State) : (clearCore s).errCmd = 0 := rfl
@[simp] theorem clearCore_hdrBits (s : State) : (clearCore s).hdrBits = 0 := rfl
@[simp] theorem clearCore_encBits (s : State) : (clearCore s).encBits = 0 := rfl
@[simp] theorem clearCore_decSyms (s : State) : (clearCore s).decSyms = 0 := rfl
@[simp] theorem clearCore_src (s : State) : (clearCore s).src = s.src := rfl
@[simp] theorem clearCore_snk (s : State) : (clearCore s).snk = s.snk := rfl
@[simp] theorem clearCore_pending (s : State) : (clearCore s).pending = s.pending := rfl
@[simp] theorem clearCore_reply (s : State) : (clearCore s).reply = s.reply := rfl

/-! `Counting.store` -/

@[simp] theorem Counting.store_params (c : Counting) (s : State) : (c.store s).params = s.params := rfl
@[simp] theorem Counting.store_freq (c : Counting) (s : State) : (c.store s).freq = c.freq := rfl
@[simp] theorem Counting.store_node (c : Counting) (s : State) : (c.store s).node = s.node := rfl
@[simp] theorem Counting.store_code (c : Counting) (s : State) : (c.store s).code = s.code := rfl
@[simp] theorem Counting.store_root (c : Counting) (s : State) : (c.store s).root = s.root := rfl
@[simp] theorem Counting.store_nodeCount (c : Counting) (s : State) : (c.store s).nodeCount = s.nodeCount := rfl
@[simp] theorem Counting.store_treeValid (c : Counting) (s : State) : (c.store s).treeValid = s.treeValid := rfl
@[simp] theorem Counting.store_codesValid (c : Counting) (s : State) : (c.store s).codesValid = s.codesValid := rfl
@[simp] theorem Counting.store_decState (c : Counting) (s : State) : (c.store s).decState = s.decState := rfl
@[simp] theorem Counting.store_cur (c : Counting) (s : State) : (c.store s).cur = s.cur := rfl
@[simp] theorem Counting.store_err (c : Counting) (s : State) : (c.store s).err = s.err := rfl
@[simp] theorem Counting.store_errCmd (c : Counting) (s : State) : (c.store s).errCmd = s.errCmd := rfl
@[simp] theorem Counting.store_hdrBits (c : Counting) (s : State) : (c.store s).hdrBits = s.hdrBits := rfl
@[simp] theorem Counting.store_encBits (c : Counting) (s : State) : (c.store s).encBits = s.encBits := rfl
@[simp] theorem Counting.store_decSyms (c : Counting) (s : State) : (c.store s).decSyms = s.decSyms := rfl
@[simp] theorem Counting.store_src (c : Counting) (s : State) : (c.store s).src = some c.src := rfl
@[simp] theorem Counting.store_snk (c : Counting) (s : State) : (c.store s).snk = s.snk := rfl
@[simp] theorem Counting.store_pending (c : Counting) (s : State) : (c.store s).pending = s.pending := rfl
@[simp] theorem Counting.store_reply (c : Counting) (s : State) : (c.store s).reply = s.reply := rfl

/-! `HeaderReader.store` -/

@[simp] theorem HeaderReader.store_params (h : HeaderReader) (s : State) : (h.store s).params = s.params := rfl
@[simp] theorem HeaderReader.store_freq (h : HeaderReader) (s : State) : (h.store s).freq = s.freq := rfl
@[simp] theorem HeaderReader.store_node (h : HeaderReader) (s : State) : (h.store s).node = h.node := rfl
@[simp] theorem HeaderReader.store_code (h : HeaderReader) (s : State) : (h.store s).code = s.code := rfl
@[simp] theorem HeaderReader.store_root (h : HeaderReader) (s : State) : (h.store s).root = s.root := rfl
@[simp] theorem HeaderReader.store_nodeCount (h : HeaderReader) (s : State) : (h.store s).nodeCount = h.count := rfl
@[simp] theorem HeaderReader.store_treeValid (h : HeaderReader) (s : State) : (h.store s).treeValid = s.treeValid := rfl
@[simp] theorem HeaderReader.store_codesValid (h : HeaderReader) (s : State) : (h.store s).codesValid = s.codesValid := rfl
@[simp] theorem HeaderReader.store_decState (h : HeaderReader) (s : State) : (h.store s).decState = s.decState := rfl
@[simp] theorem HeaderReader.store_cur (h : HeaderReader) (s : State) : (h.store s).cur = s.cur := rfl
@[simp] theorem HeaderReader.store_err (h : HeaderReader) (s : State) : (h.store s).err = s.err := rfl
@[simp] theorem HeaderReader.store_errCmd (h : HeaderReader) (s : State) : (h.store s).errCmd = s.errCmd := rfl
@[simp] theorem HeaderReader.store_hdrBits (h : HeaderReader) (s : State) : (h.store s).hdrBits = h.hdrBits := rfl
@[simp] theorem HeaderReader.store_encBits (h : HeaderReader) (s : State) : (h.store s).encBits = s.encBits := rfl
@[simp] theorem HeaderReader.store_decSyms (h : HeaderReader) (s : State) : (h.store s).decSyms = s.decSyms := rfl
@[simp] theorem HeaderReader.store_src (h : HeaderReader) (s : State) : (h.store s).src = some h.src := rfl
@[simp] theorem HeaderReader.store_snk (h : HeaderReader) (s : State) : (h.store s).snk = s.snk := rfl
@[simp] theorem HeaderReader.store_pending (h : HeaderReader) (s : State) : (h.store s).pending = s.pending := rfl
@[simp] theorem HeaderReader.store_reply (h : HeaderReader) (s : State) : (h.store s).reply = s.reply := rfl

/-! `Encoding.store` -/

@[simp] theorem Encoding.store_params (e : Encoding) (s : State) : (e.store s).params = s.params := rfl
@[simp] theorem Encoding.store_freq (e : Encoding) (s : State) : (e.store s).freq = s.freq := rfl
@[simp] theorem Encoding.store_node (e : Encoding) (s : State) : (e.store s).node = s.node := rfl
@[simp] theorem Encoding.store_code (e : Encoding) (s : State) : (e.store s).code = s.code := rfl
@[simp] theorem Encoding.store_root (e : Encoding) (s : State) : (e.store s).root = s.root := rfl
@[simp] theorem Encoding.store_nodeCount (e : Encoding) (s : State) : (e.store s).nodeCount = s.nodeCount := rfl
@[simp] theorem Encoding.store_treeValid (e : Encoding) (s : State) : (e.store s).treeValid = s.treeValid := rfl
@[simp] theorem Encoding.store_codesValid (e : Encoding) (s : State) : (e.store s).codesValid = s.codesValid := rfl
@[simp] theorem Encoding.store_decState (e : Encoding) (s : State) : (e.store s).decState = s.decState := rfl
@[simp] theorem Encoding.store_cur (e : Encoding) (s : State) : (e.store s).cur = s.cur := rfl
@[simp] theorem Encoding.store_err (e : Encoding) (s : State) : (e.store s).err = s.err := rfl
@[simp] theorem Encoding.store_errCmd (e : Encoding) (s : State) : (e.store s).errCmd = s.errCmd := rfl
@[simp] theorem Encoding.store_hdrBits (e : Encoding) (s : State) : (e.store s).hdrBits = s.hdrBits := rfl
@[simp] theorem Encoding.store_encBits (e : Encoding) (s : State) : (e.store s).encBits = e.encBits := rfl
@[simp] theorem Encoding.store_decSyms (e : Encoding) (s : State) : (e.store s).decSyms = s.decSyms := rfl
@[simp] theorem Encoding.store_src (e : Encoding) (s : State) : (e.store s).src = some e.src := rfl
@[simp] theorem Encoding.store_snk (e : Encoding) (s : State) : (e.store s).snk = some e.snk := rfl
@[simp] theorem Encoding.store_pending (e : Encoding) (s : State) : (e.store s).pending = s.pending := rfl
@[simp] theorem Encoding.store_reply (e : Encoding) (s : State) : (e.store s).reply = s.reply := rfl

/-! `Decoding.store` -/

@[simp] theorem Decoding.store_params (d : Decoding) (s : State) : (d.store s).params = s.params := rfl
@[simp] theorem Decoding.store_freq (d : Decoding) (s : State) : (d.store s).freq = s.freq := rfl
@[simp] theorem Decoding.store_node (d : Decoding) (s : State) : (d.store s).node = s.node := rfl
@[simp] theorem Decoding.store_code (d : Decoding) (s : State) : (d.store s).code = s.code := rfl
@[simp] theorem Decoding.store_root (d : Decoding) (s : State) : (d.store s).root = s.root := rfl
@[simp] theorem Decoding.store_nodeCount (d : Decoding) (s : State) : (d.store s).nodeCount = s.nodeCount := rfl
@[simp] theorem Decoding.store_treeValid (d : Decoding) (s : State) : (d.store s).treeValid = s.treeValid := rfl
@[simp] theorem Decoding.store_codesValid (d : Decoding) (s : State) : (d.store s).codesValid = s.codesValid := rfl
@[simp] theorem Decoding.store_decState (d : Decoding) (s : State) : (d.store s).decState = d.decState := rfl
@[simp] theorem Decoding.store_cur (d : Decoding) (s : State) : (d.store s).cur = d.cur := rfl
@[simp] theorem Decoding.store_err (d : Decoding) (s : State) : (d.store s).err = s.err := rfl
@[simp] theorem Decoding.store_errCmd (d : Decoding) (s : State) : (d.store s).errCmd = s.errCmd := rfl
@[simp] theorem Decoding.store_hdrBits (d : Decoding) (s : State) : (d.store s).hdrBits = s.hdrBits := rfl
@[simp] theorem Decoding.store_encBits (d : Decoding) (s : State) : (d.store s).encBits = s.encBits := rfl
@[simp] theorem Decoding.store_decSyms (d : Decoding) (s : State) : (d.store s).decSyms = d.decSyms := rfl
@[simp] theorem Decoding.store_src (d : Decoding) (s : State) : (d.store s).src = some d.src := rfl
@[simp] theorem Decoding.store_snk (d : Decoding) (s : State) : (d.store s).snk = some d.snk := rfl
@[simp] theorem Decoding.store_pending (d : Decoding) (s : State) : (d.store s).pending = s.pending := rfl
@[simp] theorem Decoding.store_reply (d : Decoding) (s : State) : (d.store s).reply = s.reply := rfl

end Sys2Proof.Machine
end

