-- ==== Sys2Proof/Laws/Control.lean ====
section
/-! SUPPORT. What the shared checks and the error entry answer: one inversion lemma each. -/

namespace Sys2Proof.Machine

@[simp] theorem raise_eq (e : Err) (w : Word) (s : State) : raise e w s = .next (errorEntry e w s) := rfl

theorem whenNoError_of_zero {s : State} (h : s.err = 0) (body : Result) : whenNoError s body = body := if_pos h

theorem whenNoError_of_ne {s : State} (h : s.err ≠ 0) (body : Result) : whenNoError s body = .next s := if_neg h

/-- R85: a command other than CLEAR either runs without an error recorded, or does nothing. -/
theorem whenNoError_next {s t : State} {body : Result} (h : whenNoError s body = .next t) :
    (s.err = 0 ∧ body = .next t) ∨ (s.err ≠ 0 ∧ t = s) := by
  unfold whenNoError at h
  split at h
  · exact .inl ⟨‹_›, h⟩
  · exact .inr ⟨‹_›, by simpa [eq_comm] using h⟩

theorem needSource_of_some {s : State} {r : BitSource} (h : s.src = some r) (k : BitSource → Result) :
    needSource s k = k r := by
  simp [needSource, h]

theorem needSource_of_none {s : State} (h : s.src = none) (k : BitSource → Result) :
    needSource s k = .refused .sourceUnbound := by
  simp [needSource, h]

theorem needSource_next {s t : State} {k : BitSource → Result} (h : needSource s k = .next t) :
    ∃ r, s.src = some r ∧ k r = .next t := by
  unfold needSource at h
  split at h
  · simp at h
  · exact ⟨_, ‹_›, h⟩

theorem needOpenSink_of_open {s : State} {d : BitSink} (w : Word) (h : s.snk = some d) (ho : d.closed = false)
    (k : BitSink → Result) : needOpenSink w s k = k d := by
  simp [needOpenSink, h, ho]

theorem needOpenSink_of_closed {s : State} {d : BitSink} (w : Word) (h : s.snk = some d) (hc : d.closed = true)
    (k : BitSink → Result) : needOpenSink w s k = .next (errorEntry .sinkClosed w s) := by
  simp [needOpenSink, h, hc]

theorem needOpenSink_of_none {s : State} (w : Word) (h : s.snk = none) (k : BitSink → Result) :
    needOpenSink w s k = .refused .sinkUnbound := by
  simp [needOpenSink, h]

/-- R51: a writing command that goes on either found the sink closed and only entered the error, or has it open. -/
theorem needOpenSink_next {s t : State} {w : Word} {k : BitSink → Result} (h : needOpenSink w s k = .next t) :
    ∃ d, s.snk = some d ∧
      ((d.closed = true ∧ t = errorEntry .sinkClosed w s) ∨ (d.closed = false ∧ k d = .next t)) := by
  unfold needOpenSink at h
  split at h
  · simp at h
  · next d hd =>
    refine ⟨d, hd, ?_⟩
    split at h
    · exact .inl ⟨‹_›, by simpa [eq_comm] using h⟩
    · exact .inr ⟨by simpa using ‹¬ d.closed = true›, h⟩

/-- R123: no error has code 0. -/
theorem code_ne_zero (e : Err) : e.code ≠ 0 := by cases e <;> decide

/-- R123: codes above 0x10 are never written. -/
theorem code_le (e : Err) : e.code.toNat ≤ 0x10 := by cases e <;> decide

@[simp] theorem bump_zero (n : Nat) : bump 0 n = BitVec.ofNat 32 n := by simp [bump]

theorem bump_eq (c : BitVec 32) (n : Nat) : bump c n = BitVec.ofNat 32 (c.toNat + n) := by
  apply BitVec.eq_of_toNat_eq
  simp [bump]

@[simp] theorem bump_ofNat (m n : Nat) : bump (BitVec.ofNat 32 m) n = BitVec.ofNat 32 (m + n) := by
  apply BitVec.eq_of_toNat_eq
  simp [bump]

theorem bump_bump (c : BitVec 32) (m n : Nat) : bump (bump c m) n = bump c (m + n) := by
  rw [bump_eq c m, bump_ofNat, bump_eq c, Nat.add_assoc]

end Sys2Proof.Machine
end

