-- ==== Sys2Proof/Laws/Frequency.lean ====
section
/-! SUPPORT. What FREQ_SCAN's loop does (R87 to R89). -/

namespace Sys2Proof.Machine

@[simp] theorem emptyFreq_getElem (i : Nat) (h : i < 257) : emptyFreq[i] = if i = 256 then 1 else 0 := by
  simp only [emptyFreq, Vector.getElem_set, Vector.getElem_replicate, eq_comm]

@[simp] theorem emptyNodes_getElem (i : Nat) (h : i < 513) : emptyNodes[i] = Node.zero := by simp [emptyNodes]

@[simp] theorem emptyCodes_getElem (i : Nat) (h : i < 257) : emptyCodes[i] = CodeEntry.zero := by simp [emptyCodes]

/-- Reading a table just written at an index. -/
theorem set_get {α : Type} {n : Nat} (v : Vector α n) (i j : Fin n) (x : α) :
    (v.set i.val x)[j] = if i = j then x else v[j] := by
  simp [Vector.getElem_set, Fin.ext_iff]

theorem eq_sentinel_iff {i : Nat} (h : i < 257) : (⟨i, h⟩ : Symbol) = sentinel ↔ i = 256 := by simp [Fin.ext_iff]

@[simp] theorem countsOf_getElem (bytes : List Nat) (i : Nat) (h : i < 257) :
    (countsOf bytes)[i] = if i = 256 then 1 else bytes.count i := by
  simp only [countsOf, Vector.getElem_ofFn, eq_sentinel_iff]

/-- A table with the occurrences of some bytes added. -/
def addCounts (f : FreqTable) (bytes : List Nat) : FreqTable :=
  Vector.ofFn fun a => f[a] + if a = sentinel then 0 else bytes.count a.val

@[simp] theorem addCounts_getElem (f : FreqTable) (bytes : List Nat) (i : Nat) (h : i < 257) :
    (addCounts f bytes)[i] = f[i] + if i = 256 then 0 else bytes.count i := by
  simp only [addCounts, Vector.getElem_ofFn, eq_sentinel_iff, Fin.getElem_fin]

theorem addCounts_emptyFreq (bytes : List Nat) : addCounts emptyFreq bytes = countsOf bytes := by
  ext i hi
  by_cases h : i = 256 <;> simp [h]

@[simp] theorem addCounts_nil (f : FreqTable) : addCounts f [] = f := by
  ext i hi
  simp

/-- Counting one byte, then others. -/
theorem addCounts_cons {f : FreqTable} {b : Nat} (hb : b < 256) (bytes : List Nat) :
    addCounts (f.set (byteSymbol b).val (f[byteSymbol b] + 1)) bytes = addCounts f (b :: bytes) := by
  ext i hi
  simp only [addCounts_getElem, Vector.getElem_set, Fin.getElem_fin, byteSymbol_val hb, List.count_cons, beq_iff_eq]
  by_cases hbi : b = i
  · subst hbi
    simp [show b ≠ 256 by omega]
    omega
  · simp [hbi]

/-- R87, R88: bytes whose counts fit are counted, one pass each. -/
theorem countBytes_append (countW : Nat) (pre post : List Nat) (fuel : Nat) (c : Counting)
    (h : wholeBytes (c.src.bits.drop c.src.pos) = pre ++ post)
    (hfit : ∀ b, (addCounts c.freq pre)[byteSymbol b] < 2 ^ countW) :
    countBytes countW (pre.length + fuel) c =
      countBytes countW fuel
        { src := { c.src with pos := c.src.pos + 8 * pre.length }, freq := addCounts c.freq pre } := by
  induction pre generalizing c with
  | nil =>
    simp
  | cons b pre ih =>
    have hb : b < 256 := lt_of_mem_wholeBytes (h ▸ by simp : b ∈ wholeBytes (c.src.bits.drop c.src.pos))
    obtain ⟨hread, hrest⟩ := readBits_byte h
    have hne : ¬ c.freq[byteSymbol b] = 2 ^ countW - 1 := by
      have := hfit b
      simp only [Fin.getElem_fin, addCounts_getElem, byteSymbol_val hb, List.count_cons_self] at this ⊢
      rw [if_neg (show b ≠ 256 by omega)] at this
      omega
    rw [show (b :: pre).length + fuel = (pre.length + fuel) + 1 by simp; omega, countBytes, hread]
    simp only [hne, if_false]
    rw [ih _ hrest (by rwa [addCounts_cons hb])]
    simp only [addCounts_cons hb, List.length_cons, Nat.mul_add]
    rw [Nat.add_assoc, Nat.add_comm 8 (8 * pre.length)]

theorem countBytes_nil (countW fuel : Nat) (c : Counting) (h : wholeBytes (c.src.bits.drop c.src.pos) = []) :
    countBytes countW fuel c = .done () c := by
  cases fuel with
  | zero => rfl
  | succ fuel => rw [countBytes, readBits_no_byte h]

/-- R88: a byte whose count is full raises COUNT_OVERFLOW, the count kept. -/
theorem countBytes_overflow (countW fuel : Nat) (c : Counting) {b : Nat} {bs : List Nat}
    (h : wholeBytes (c.src.bits.drop c.src.pos) = b :: bs) (hfull : c.freq[byteSymbol b] = 2 ^ countW - 1) :
    countBytes countW (fuel + 1) c = .raised .countOverflow { c with src := { c.src with pos := c.src.pos + 8 } } := by
  rw [countBytes, (readBits_byte h).1]
  simp only [hfull, if_true]

/-- R22, R46, R88: what every scan keeps: the sentinel's count, counts that fit, the source's bits, a position within them. -/
theorem countBytes_keeps {countW : Nat} (fuel : Nat) (c : Counting) (hpos : c.src.pos ≤ c.src.bits.length)
    (hs : c.freq[sentinel] = 1) (hlt : ∀ a : Symbol, c.freq[a] < 2 ^ countW) :
    ∀ c', (countBytes countW fuel c = .done () c' ∨ ∃ e, countBytes countW fuel c = .raised e c') →
      c'.src.bits = c.src.bits ∧ c'.src.pos ≤ c'.src.bits.length ∧ c'.freq[sentinel] = 1 ∧
        ∀ a : Symbol, c'.freq[a] < 2 ^ countW := by
  induction fuel generalizing c with
  | zero =>
    rintro c' (h | ⟨e, h⟩) <;> simp [countBytes] at h
    exact h ▸ ⟨rfl, hpos, hs, hlt⟩
  | succ fuel ih =>
    intro c' h
    rw [countBytes] at h
    split at h
    · rcases h with h | ⟨e, h⟩ <;> simp at h
      exact h ▸ ⟨rfl, hpos, hs, hlt⟩
    · next b src hread =>
      have hsrc := BitSource.readBits_bits hread
      have hle := BitSource.readBits_le hread
      dsimp only at h
      split at h
      · rcases h with h | ⟨e, h⟩ <;> simp at h
        exact h.2 ▸ ⟨hsrc, hle, hs, hlt⟩
      · next hne =>
        have := ih { src := src, freq := c.freq.set (byteSymbol b).val (c.freq[byteSymbol b] + 1) } hle
          (by rw [set_get, if_neg (byteSymbol_ne_sentinel b), hs])
          (by
            intro a
            rw [set_get]
            split
            · have := hlt (byteSymbol b)
              omega
            · exact hlt a) c' h
        exact ⟨this.1.trans hsrc, this.2⟩

end Sys2Proof.Machine
end

