-- ==== Sys2Proof/Laws/Trees.lean ====
section
/-! SUPPORT. Trees: their sizes, headers and paths, and how a node memory holds them (R25, R27, R100, R101). -/

namespace Sys2Proof.Machine.CodeTree

@[simp] theorem root_leaf (i : NodeIdx) (s : Symbol) : (leaf i s).root = i := rfl
@[simp] theorem root_node (i : NodeIdx) (l r : CodeTree) : (node i l r).root = i := rfl

theorem leaves_pos (t : CodeTree) : 0 < t.leaves.length := by
  induction t with
  | leaf => simp [leaves]
  | node i l r ihl ihr => simp [leaves]; omega

/-- R95: `L` leaves make `2L - 1` nodes. -/
theorem indices_length (t : CodeTree) : t.indices.length + 1 = 2 * t.leaves.length := by
  induction t with
  | leaf => rfl
  | node i l r ihl ihr => simp [indices, leaves]; omega

/-- R101: a header of `L` leaves is `11L - 1` bits long. -/
theorem header_length (t : CodeTree) : t.header.length + 1 = 11 * t.leaves.length := by
  induction t with
  | leaf => simp [header, leaves]
  | node i l r ihl ihr => simp [header, leaves]; omega

theorem header_length_pos (t : CodeTree) : 0 < t.header.length := by cases t <;> simp [header]

theorem root_mem_indices (t : CodeTree) : t.root ∈ t.indices := by cases t <;> simp [root, indices]

theorem depth_lt_leaves (t : CodeTree) : t.depth < t.leaves.length := by
  induction t with
  | leaf => simp [depth, leaves]
  | node i l r ihl ihr =>
    have := l.leaves_pos
    have := r.leaves_pos
    simp [depth, leaves]
    omega

/-! ## Same shape -/

theorem sameShape_header {t u : CodeTree} (h : t.sameShape u = true) : t.header = u.header := by
  induction t generalizing u with
  | leaf i s => cases u <;> simp_all [sameShape, header]
  | node i l r ihl ihr =>
    cases u with
    | leaf => simp [sameShape] at h
    | node j l' r' =>
      simp only [sameShape, Bool.and_eq_true] at h
      simp [header, ihl h.1, ihr h.2]

theorem sameShape_leaves {t u : CodeTree} (h : t.sameShape u = true) : t.leaves = u.leaves := by
  induction t generalizing u with
  | leaf i s => cases u <;> simp_all [sameShape, leaves]
  | node i l r ihl ihr =>
    cases u with
    | leaf => simp [sameShape] at h
    | node j l' r' =>
      simp only [sameShape, Bool.and_eq_true] at h
      simp [leaves, ihl h.1, ihr h.2]

theorem sameShape_depth {t u : CodeTree} (h : t.sameShape u = true) : t.depth = u.depth := by
  induction t generalizing u with
  | leaf i s => cases u <;> simp_all [sameShape, depth]
  | node i l r ihl ihr =>
    cases u with
    | leaf => simp [sameShape] at h
    | node j l' r' =>
      simp only [sameShape, Bool.and_eq_true] at h
      simp [depth, ihl h.1, ihr h.2]

theorem sameShape_isInternal {t u : CodeTree} (h : t.sameShape u = true) : t.isInternal = u.isInternal := by
  cases t <;> cases u <;> simp_all [sameShape, isInternal]

theorem sameShape_path? {t u : CodeTree} (h : t.sameShape u = true) (a : Symbol) : t.path? a = u.path? a := by
  induction t generalizing u with
  | leaf i s => cases u <;> simp_all [sameShape, path?]
  | node i l r ihl ihr =>
    cases u with
    | leaf => simp [sameShape] at h
    | node j l' r' =>
      simp only [sameShape, Bool.and_eq_true] at h
      simp [path?, ihl h.1, ihr h.2]

theorem sameShape_path {t u : CodeTree} (h : t.sameShape u = true) (a : Symbol) : t.path a = u.path a := by
  simp [path, sameShape_path? h]

/-! ## Paths -/

theorem path?_eq_none {t : CodeTree} {a : Symbol} : t.path? a = none ↔ a ∉ t.leaves := by
  induction t with
  | leaf i s => simp [path?, leaves, eq_comm]
  | node i l r ihl ihr =>
    cases hl : l.path? a with
    | none => simp [path?, leaves, hl, ihr, ihl.1 hl]
    | some p =>
      have : a ∈ l.leaves := by
        by_contra hn
        simp [ihl.2 hn] at hl
      simp [path?, leaves, hl, this]

theorem path?_of_mem {t : CodeTree} {a : Symbol} (h : a ∈ t.leaves) : t.path? a = some (t.path a) := by
  cases hp : t.path? a with
  | none => exact absurd h (path?_eq_none.1 hp)
  | some p => simp [path, hp]

theorem path_of_path? {t : CodeTree} {a : Symbol} {p : List Bool} (h : t.path? a = some p) : t.path a = p := by
  simp [path, h]

theorem mem_of_path? {t : CodeTree} {a : Symbol} {p : List Bool} (h : t.path? a = some p) : a ∈ t.leaves := by
  by_contra hn
  simp [path?_eq_none.2 hn] at h

theorem path?_length_le {t : CodeTree} {a : Symbol} {p : List Bool} (h : t.path? a = some p) : p.length ≤ t.depth := by
  induction t generalizing p with
  | leaf i s =>
    simp only [path?] at h
    split at h <;> cases h
    simp
  | node i l r ihl ihr =>
    simp only [path?] at h
    split at h
    · next q hq =>
      simp only [Option.some.injEq] at h
      subst h
      have := ihl hq
      simp [depth]
      omega
    · obtain ⟨q, hq, rfl⟩ := Option.map_eq_some_iff.1 h
      have := ihr hq
      simp [depth]
      omega

theorem leafOf?_eq_none {t : CodeTree} {a : Symbol} : t.leafOf? a = none ↔ a ∉ t.leaves := by
  induction t with
  | leaf i s => simp [leafOf?, leaves, eq_comm]
  | node i l r ihl ihr => simp [leafOf?, leaves, ihl, ihr]

/-- A code is not empty when the root is internal (R98). -/
theorem path?_ne_nil {t : CodeTree} {a : Symbol} {p : List Bool} (hi : t.isInternal = true) (h : t.path? a = some p) :
    p ≠ [] := by
  cases t with
  | leaf => simp [isInternal] at hi
  | node i l r =>
    simp only [path?] at h
    split at h
    · cases h
      simp
    · obtain ⟨q, -, rfl⟩ := Option.map_eq_some_iff.1 h
      simp

/-- R98: no path is a prefix of another symbol's path. -/
theorem path?_prefix_free {t : CodeTree} {a b : Symbol} {p q : List Bool} (ha : t.path? a = some p)
    (hb : t.path? b = some q) (h : p <+: q) : a = b := by
  induction t generalizing p q with
  | leaf i s =>
    simp only [path?] at ha hb
    split at ha <;> split at hb <;> simp_all
  | node i l r ihl ihr =>
    simp only [path?] at ha hb
    split at ha
    · next p' hp' =>
      simp only [Option.some.injEq] at ha
      subst ha
      split at hb
      · next q' hq' =>
        simp only [Option.some.injEq] at hb
        subst hb
        exact ihl hp' hq' (by simpa using h)
      · obtain ⟨q', -, rfl⟩ := Option.map_eq_some_iff.1 hb
        simp at h
    · obtain ⟨p', hp', rfl⟩ := Option.map_eq_some_iff.1 ha
      split at hb
      · simp only [Option.some.injEq] at hb
        subst hb
        simp at h
      · obtain ⟨q', hq', rfl⟩ := Option.map_eq_some_iff.1 hb
        exact ihr hp' hq' (by simpa using h)

/-! ## A memory that holds a tree -/

theorem heldBy_leaf {mem : NodeMem} {i : NodeIdx} {s : Symbol} :
    (leaf i s).heldBy mem = true ↔
      mem[i].kind = .leaf ∧ mem[i].sym = s ∧ mem[i].left = 0 ∧ mem[i].right = 0 := by
  simp [heldBy]

theorem heldBy_node {mem : NodeMem} {i : NodeIdx} {l r : CodeTree} :
    (node i l r).heldBy mem = true ↔
      (mem[i].kind = .internal ∧ mem[i].sym = 0 ∧ mem[i].left = l.root ∧ mem[i].right = r.root) ∧
        l.heldBy mem = true ∧ r.heldBy mem = true := by
  simp [heldBy, and_assoc]

/-- Two memories with the same entries at a tree's indices hold it alike. -/
theorem heldBy_congr {mem mem' : NodeMem} {t : CodeTree} (h : ∀ i ∈ t.indices, mem'[i] = mem[i])
    (ht : t.heldBy mem = true) : t.heldBy mem' = true := by
  induction t with
  | leaf i s =>
    rw [heldBy_leaf] at ht ⊢
    rwa [h i (by simp [indices])]
  | node i l r ihl ihr =>
    rw [heldBy_node] at ht ⊢
    rw [h i (by simp [indices])]
    exact ⟨ht.1, ihl (fun j hj => h j (by simp [indices, hj])) ht.2.1,
      ihr (fun j hj => h j (by simp [indices, hj])) ht.2.2⟩

/-- A memory holds at most one tree with a given topmost node. -/
theorem heldBy_unique {mem : NodeMem} {t u : CodeTree} (ht : t.heldBy mem = true) (hu : u.heldBy mem = true)
    (h : t.root = u.root) : t = u := by
  induction t generalizing u with
  | leaf i s =>
    rw [heldBy_leaf] at ht
    cases u with
    | leaf j s' =>
      rw [heldBy_leaf] at hu
      simp only [root] at h
      subst h
      rw [← ht.2.1, ← hu.2.1]
    | node j l' r' =>
      rw [heldBy_node] at hu
      simp only [root] at h
      subst h
      exact absurd (ht.1.symm.trans hu.1.1) (by decide)
  | node i l r ihl ihr =>
    rw [heldBy_node] at ht
    cases u with
    | leaf j s' =>
      rw [heldBy_leaf] at hu
      simp only [root] at h
      subst h
      exact absurd (ht.1.1.symm.trans hu.1) (by decide)
    | node j l' r' =>
      rw [heldBy_node] at hu
      simp only [root] at h
      subst h
      rw [ihl ht.2.1 hu.2.1 (ht.1.2.2.1.symm.trans hu.1.2.2.1), ihr ht.2.2 hu.2.2 (ht.1.2.2.2.symm.trans hu.1.2.2.2)]

end Sys2Proof.Machine.CodeTree

namespace Sys2Proof.Machine.IsTree

/-- R25: the tree a state holds is one. -/
theorem unique {mem : NodeMem} {root : NodeIdx} {count : NodeCount} {t u : CodeTree} (ht : IsTree mem root count t)
    (hu : IsTree mem root count u) : t = u :=
  CodeTree.heldBy_unique ht.held hu.held (ht.root_eq.trans hu.root_eq.symm)

theorem root_lt {mem : NodeMem} {root : NodeIdx} {count : NodeCount} {t : CodeTree} (h : IsTree mem root count t) :
    root.val < count.val :=
  (h.indices_iff root).1 (h.root_eq ▸ t.root_mem_indices)

end Sys2Proof.Machine.IsTree
end

