-- ==== Sys2Proof/Laws/CodeTable.lean ====
section
/-! SUPPORT. What `walk` does on a tree the memory holds (R97). -/

namespace Sys2Proof.Machine

/-- The bits of a path, written behind given bits (R97). -/
def behind (bits : BitVec 256) (p : List Bool) : BitVec 256 :=
  BitVec.ofNat 256 (bits.toNat * 2 ^ p.length + natOfBits p)

@[simp] theorem behind_nil (bits : BitVec 256) : behind bits [] = bits := by simp [behind]

theorem behind_zero (p : List Bool) : behind 0#256 p = BitVec.ofNat 256 (natOfBits p) := by simp [behind]

theorem behind_ofNat (n : Nat) (p : List Bool) :
    behind (BitVec.ofNat 256 n) p = BitVec.ofNat 256 (n * 2 ^ p.length + natOfBits p) := by
  apply BitVec.eq_of_toNat_eq
  simp only [behind, BitVec.toNat_ofNat]
  rw [Nat.add_mod, Nat.mod_mul_mod, ← Nat.add_mod]

theorem behind_false (bits : BitVec 256) (p : List Bool) : behind (2#256 * bits) p = behind bits (false :: p) := by
  have h : 2#256 * bits = BitVec.ofNat 256 (2 * bits.toNat) := by
    apply BitVec.eq_of_toNat_eq
    simp [BitVec.toNat_mul]
  rw [h, behind_ofNat, behind]
  congr 1
  simp only [List.length_cons, natOfBits_cons, Bool.toNat_false, pow_succ]
  ring

theorem behind_true (bits : BitVec 256) (p : List Bool) : behind (2#256 * bits + 1#256) p = behind bits (true :: p) := by
  have h : 2#256 * bits + 1#256 = BitVec.ofNat 256 (2 * bits.toNat + 1) := by
    apply BitVec.eq_of_toNat_eq
    simp [BitVec.toNat_mul, BitVec.toNat_add]
  rw [h, behind_ofNat, behind]
  congr 1
  simp only [List.length_cons, natOfBits_cons, Bool.toNat_true, pow_succ]
  ring

/-- The entry `walk` gives a leaf at the end of path `p` below a node of depth `len`. -/
def entryBelow (len : Nat) (bits : BitVec 256) (p : List Bool) : CodeEntry :=
  { valid := true, len := BitVec.ofNat 9 (len + p.length), bits := behind bits p }

theorem entryBelow_zero (p : List Bool) : entryBelow 0 0#256 p = entryOfPath p := by
  simp [entryBelow, entryOfPath, behind_zero]

/-- R97: `walk` over a tree no deeper than the paths it may follow gives each of its symbols its path and leaves the other
entries. -/
theorem walk_eq {mem : NodeMem} {t : CodeTree} (r len : Nat) (bits : BitVec 256) (codes : CodeTable)
    (hheld : t.heldBy mem = true) (hdepth : t.depth < r) (hnd : t.leaves.Nodup) :
    ∃ codes', walk mem r t.root len bits codes = some codes' ∧
      ∀ a : Symbol, codes'[a] = match t.path? a with
        | some p => entryBelow len bits p
        | none => codes[a] := by
  induction t generalizing r len bits codes with
  | leaf i s =>
    obtain ⟨r, rfl⟩ : ∃ k, r = k + 1 := ⟨r - 1, by omega⟩
    rw [CodeTree.heldBy_leaf] at hheld
    refine ⟨_, by rw [CodeTree.root_leaf, walk, hheld.1], fun a => ?_⟩
    rw [set_get, hheld.2.1]
    by_cases ha : s = a <;> simp [CodeTree.path?, ha, entryBelow]
  | node i l rt ihl ihr =>
    obtain ⟨r, rfl⟩ : ∃ k, r = k + 1 := ⟨r - 1, by omega⟩
    rw [CodeTree.heldBy_node] at hheld
    obtain ⟨⟨hk, -, hleft, hright⟩, hl, hr⟩ := hheld
    simp only [CodeTree.depth] at hdepth
    simp only [CodeTree.leaves, List.nodup_append] at hnd
    obtain ⟨c₁, hw₁, hc₁⟩ := ihl r (len + 1) (2 * bits) codes hl (by omega) hnd.1
    obtain ⟨c₂, hw₂, hc₂⟩ := ihr r (len + 1) (2 * bits + 1) c₁ hr (by omega) hnd.2.1
    refine ⟨c₂, by simp only [CodeTree.root_node, walk, hk, hleft, hright, hw₁, hw₂], fun a => ?_⟩
    rw [hc₂ a, hc₁ a]
    cases hpl : l.path? a with
    | some p =>
      have hnr : rt.path? a = none :=
        CodeTree.path?_eq_none.2 fun hm => hnd.2.2 a (CodeTree.mem_of_path? hpl) a hm rfl
      simp [CodeTree.path?, hpl, hnr, entryBelow, behind_false, Nat.add_assoc, Nat.add_comm 1]
    | none =>
      cases hpr : rt.path? a with
      | none => simp [CodeTree.path?, hpl, hpr]
      | some p => simp [CodeTree.path?, hpl, hpr, entryBelow, behind_true, Nat.add_assoc, Nat.add_comm 1]

theorem codeTableOf_get (t : CodeTree) (a : Symbol) :
    (codeTableOf t)[a] = match t.path? a with
      | some p => entryOfPath p
      | none => CodeEntry.zero :=
  Vector.getElem_ofFn a.isLt

/-- R97: the whole walk from the root of a valid tree. -/
theorem walk_root {mem : NodeMem} {root : NodeIdx} {count : NodeCount} {t : CodeTree} (h : IsTree mem root count t) :
    walk mem (maxDepth + 1) root 0 0 emptyCodes = some (codeTableOf t) := by
  have hd : t.depth < maxDepth + 1 := Nat.lt_succ_of_le h.depth_le
  obtain ⟨codes, hw, hc⟩ := walk_eq (maxDepth + 1) 0 0 emptyCodes h.held hd h.leaves_nodup
  have hcodes : codes = codeTableOf t := Vector.ext fun i hi => by
    have hi' := hc ⟨i, hi⟩
    have ht := codeTableOf_get t ⟨i, hi⟩
    simp only [Fin.getElem_fin] at hi' ht
    rw [hi', ht]
    cases t.path? ⟨i, hi⟩ <;> simp [entryBelow_zero]
  rw [← h.root_eq, hw, hcodes]

/-- R27: the entry of a path of at most 256 bits stands for that path. -/
theorem codeBits_entryOfPath {p : List Bool} (h : p.length ≤ 256) : codeBits (entryOfPath p) = p := by
  have hlt : natOfBits p < 2 ^ 256 := (natOfBits_lt p).trans_le (Nat.pow_le_pow_right (by omega) h)
  simp only [codeBits, entryOfPath, BitVec.toNat_ofNat, Nat.mod_eq_of_lt hlt]
  rw [Nat.mod_eq_of_lt (by omega), bitsOf_natOfBits]

/-- R27: the code a tree's table gives a symbol is its path. -/
theorem codeBits_codeTableOf {mem : NodeMem} {root : NodeIdx} {count : NodeCount} {t : CodeTree}
    (h : IsTree mem root count t) {a : Symbol} (ha : a ∈ t.leaves) : codeBits (codeTableOf t)[a] = t.path a := by
  have hp := CodeTree.path?_of_mem ha
  have hle := CodeTree.path?_length_le hp
  have hd := h.depth_le
  rw [codeTableOf_get, hp]
  exact codeBits_entryOfPath (hle.trans hd)

theorem codeTableOf_valid (t : CodeTree) (a : Symbol) : (codeTableOf t)[a].valid = true ↔ a ∈ t.leaves := by
  rw [codeTableOf_get]
  cases hp : t.path? a with
  | none => simpa [CodeEntry.zero] using CodeTree.path?_eq_none.1 hp
  | some p => simpa [entryOfPath] using CodeTree.mem_of_path? hp

end Sys2Proof.Machine
end

