-- ==== Sys2Proof/Laws/Decoder.lean ====
section
/-! SUPPORT. What the decoder does: one transition (R117), the transitions along a path (R119), the whole body (R59). -/

namespace Sys2Proof.Machine

/-- R117: one transition on a bit that is there. -/
theorem transition_of_drop {mem : NodeMem} {root : NodeIdx} {d : Decoding} {b : Bool} {rest : List Bool}
    (h : d.src.bits.drop d.src.pos = b :: rest) :
    transition mem root d = .done () (arrive mem root (if b then mem[d.cur].right else mem[d.cur].left)
      { d with src := { d.src with pos := d.src.pos + 1 } }) := by
  rw [transition, BitSource.readBits_one_of_drop h]
  cases b <;> simp [childOf]

/-- R117, R118: an exhausted source raises TRUNCATED_BODY with nothing changed. -/
theorem transition_exhausted {mem : NodeMem} {root : NodeIdx} {d : Decoding} (h : d.src.bits.length ≤ d.src.pos) :
    transition mem root d = .raised .truncatedBody d := by
  rw [transition, BitSource.readBits_eq_none.2 (by omega)]

theorem arrive_internal {mem : NodeMem} {n : NodeIdx} (root : NodeIdx) (d : Decoding) (h : mem[n].kind = .internal) :
    arrive mem root n d = { d with cur := n, decState := .atNode } := by
  simp only [arrive, h]

theorem arrive_sentinel {mem : NodeMem} {n : NodeIdx} (root : NodeIdx) (d : Decoding) (h : mem[n].kind = .leaf)
    (hs : mem[n].sym = sentinel) : arrive mem root n d = { d with cur := n, decState := .done } := by
  simp only [arrive, h, if_pos hs]

theorem arrive_symbol {mem : NodeMem} {n : NodeIdx} (root : NodeIdx) (d : Decoding) (h : mem[n].kind = .leaf)
    (hs : mem[n].sym ≠ sentinel) :
    arrive mem root n d = { d with
      snk := { d.snk with bits := d.snk.bits ++ bitsOf 8 mem[n].sym.val }
      decSyms := bump d.decSyms 1, cur := root, decState := .atRoot } := by
  simp only [arrive, h, if_neg hs, BitSink.writeBits]

/-- R46, R50, R57: what a move keeps: the source, the sink's bits so far, its flag. -/
theorem arrive_keeps (mem : NodeMem) (root n : NodeIdx) (d : Decoding) :
    (arrive mem root n d).src = d.src ∧ d.snk.bits <+: (arrive mem root n d).snk.bits ∧
      (arrive mem root n d).snk.closed = d.snk.closed := by
  unfold arrive
  split
  · exact ⟨rfl, List.prefix_rfl, rfl⟩
  · split
    · exact ⟨rfl, List.prefix_rfl, rfl⟩
    · exact ⟨rfl, List.prefix_append _ _, rfl⟩

/-- Everything one transition can do (R117). -/
theorem transition_cases (mem : NodeMem) (root : NodeIdx) (d : Decoding) :
    (d.src.bits.length ≤ d.src.pos ∧ transition mem root d = .raised .truncatedBody d) ∨
      ∃ b rest, d.src.bits.drop d.src.pos = b :: rest ∧
        transition mem root d = .done () (arrive mem root (if b then mem[d.cur].right else mem[d.cur].left)
          { d with src := { d.src with pos := d.src.pos + 1 } }) := by
  cases h : d.src.bits.drop d.src.pos with
  | nil => exact .inl ⟨List.drop_eq_nil_iff.1 h, transition_exhausted (List.drop_eq_nil_iff.1 h)⟩
  | cons b rest => exact .inr ⟨b, rest, rfl, transition_of_drop h⟩

theorem transition_keeps {mem : NodeMem} {root : NodeIdx} {d d' : Decoding}
    (hpos : d.src.pos ≤ d.src.bits.length)
    (h : transition mem root d = .done () d' ∨ ∃ e, transition mem root d = .raised e d') :
    d'.src.bits = d.src.bits ∧ d'.src.pos ≤ d'.src.bits.length ∧ d.snk.bits <+: d'.snk.bits ∧
      d'.snk.closed = d.snk.closed := by
  rcases transition_cases mem root d with ⟨-, ht⟩ | ⟨b, rest, hb, ht⟩ <;> rw [ht] at h <;>
    rcases h with h | ⟨e, h⟩ <;> simp only [Ran.done.injEq, Ran.raised.injEq, reduceCtorEq, true_and] at h
  · exact h.2 ▸ ⟨rfl, hpos, List.prefix_rfl, rfl⟩
  · subst h
    have hk := arrive_keeps mem root (if b then mem[d.cur].right else mem[d.cur].left)
      { d with src := { d.src with pos := d.src.pos + 1 } }
    have hl := congrArg List.length hb
    simp only [List.length_drop, List.length_cons] at hl
    rw [hk.1]
    exact ⟨rfl, by show d.src.pos + 1 ≤ d.src.bits.length; omega, hk.2⟩

/-- R119: the loop ends at once in `DONE`. -/
theorem transitions_of_done {mem : NodeMem} {root : NodeIdx} (n : Nat) {d : Decoding} (h : d.decState = .done) :
    transitions mem root n d = .done () d := by
  cases n <;> simp [transitions, h]

/-- R119: one pass of the loop. -/
theorem transitions_succ {mem : NodeMem} {root : NodeIdx} {n : Nat} {d d' : Decoding} (h : d.decState ≠ .done)
    (ht : transition mem root d = .done () d') : transitions mem root (n + 1) d = transitions mem root n d' := by
  rw [transitions, if_neg h, ht]

/-- R46, R50, R57, R119: what the loop keeps, and how it ends. -/
theorem transitions_keeps {mem : NodeMem} {root : NodeIdx} (n : Nat) (d : Decoding)
    (hpos : d.src.pos ≤ d.src.bits.length) :
    ∀ d', (transitions mem root n d = .done () d' ∨ ∃ e, transitions mem root n d = .raised e d') →
      d'.src.bits = d.src.bits ∧ d'.src.pos ≤ d'.src.bits.length ∧ d.snk.bits <+: d'.snk.bits ∧
        d'.snk.closed = d.snk.closed := by
  induction n generalizing d with
  | zero =>
    intro d' h
    rw [transitions] at h
    split at h <;> rcases h with h | ⟨e, h⟩ <;> simp at h
    · exact h ▸ ⟨rfl, hpos, List.prefix_rfl, rfl⟩
    · exact h.2 ▸ ⟨rfl, hpos, List.prefix_rfl, rfl⟩
  | succ n ih =>
    intro d' h
    rw [transitions] at h
    split at h
    · rcases h with h | ⟨e, h⟩ <;> simp at h
      exact h ▸ ⟨rfl, hpos, List.prefix_rfl, rfl⟩
    · split at h
      · next e d₁ ht =>
        rcases h with h | ⟨e', h⟩ <;> simp at h
        exact h.2 ▸ transition_keeps hpos (.inr ⟨e, ht⟩)
      · next u d₁ ht =>
        have hk := transition_keeps hpos (.inl ht)
        have := ih d₁ hk.2.1 d' h
        exact ⟨this.1.trans hk.1, this.2.1, hk.2.2.1.trans this.2.2.1, this.2.2.2.trans hk.2.2.2⟩

/-- R119: the loop ends with `DONE`, or with TRUNCATED_BODY. -/
theorem transitions_ends {mem : NodeMem} {root : NodeIdx} (n : Nat) (d : Decoding) :
    (∃ d', transitions mem root n d = .done () d' ∧ d'.decState = .done) ∨
      ∃ d', transitions mem root n d = .raised .truncatedBody d' ∧ d'.decState ≠ .done := by
  induction n generalizing d with
  | zero =>
    by_cases h : d.decState = .done <;> simp [transitions, h]
  | succ n ih =>
    by_cases h : d.decState = .done
    · exact .inl ⟨d, transitions_of_done _ h, h⟩
    · rcases transition_cases mem root d with ⟨-, ht⟩ | ⟨b, rest, -, ht⟩
      · exact .inr ⟨d, by rw [transitions, if_neg h, ht], h⟩
      · rw [transitions_succ h ht]
        exact ih _

/-- R59, R119: the bits of a symbol's path below the node the decoder stands on lead it to that symbol's leaf. -/
theorem transitions_path {mem : NodeMem} {root : NodeIdx} {t : CodeTree} {a : Symbol} {p : List Bool}
    (hheld : t.heldBy mem = true) (hp : t.path? a = some p) (hne : p ≠ []) (n : Nat) (d : Decoding) {rest : List Bool}
    (hcur : d.cur = t.root) (hs : d.decState ≠ .done) (hbits : d.src.bits.drop d.src.pos = p ++ rest) :
    ∃ leaf, t.leafOf? a = some leaf ∧ mem[leaf].kind = .leaf ∧ mem[leaf].sym = a ∧
      transitions mem root (p.length + n) d =
        transitions mem root n (arrive mem root leaf { d with src := { d.src with pos := d.src.pos + p.length } }) := by
  induction t generalizing p d with
  | leaf i s =>
    simp only [CodeTree.path?] at hp
    split at hp <;> simp at hp
    exact absurd hp hne
  | node i l r ihl ihr =>
    rw [CodeTree.heldBy_node] at hheld
    obtain ⟨⟨-, -, hleft, hright⟩, hl, hr⟩ := hheld
    simp only [CodeTree.root_node] at hcur
    have hstep : ∀ (b : Bool) (q : List Bool) (u : CodeTree), p = b :: q →
        (if b then mem[d.cur].right else mem[d.cur].left) = u.root → u.heldBy mem = true → u.path? a = some q →
        (q ≠ [] → ∀ d' : Decoding, d'.cur = u.root → d'.decState ≠ .done → d'.src.bits.drop d'.src.pos = q ++ rest →
          ∃ leaf, u.leafOf? a = some leaf ∧ mem[leaf].kind = .leaf ∧ mem[leaf].sym = a ∧
            transitions mem root (q.length + n) d' =
              transitions mem root n
                (arrive mem root leaf { d' with src := { d'.src with pos := d'.src.pos + q.length } })) →
        ∃ leaf, u.leafOf? a = some leaf ∧ mem[leaf].kind = .leaf ∧ mem[leaf].sym = a ∧
          transitions mem root (p.length + n) d =
            transitions mem root n
              (arrive mem root leaf { d with src := { d.src with pos := d.src.pos + p.length } }) := by
      intro b q u hpq hchild hu huq ih
      subst hpq
      have ht := transition_of_drop (mem := mem) (root := root) (d := d) (b := b) (rest := q ++ rest) (by simpa using hbits)
      rw [hchild] at ht
      rw [show (b :: q).length + n = (q.length + n) + 1 by simp; omega, transitions_succ hs ht]
      cases u with
      | leaf j s =>
        simp only [CodeTree.path?] at huq
        split at huq <;> simp at huq
        next hsa =>
        subst huq
        rw [CodeTree.heldBy_leaf] at hu
        exact ⟨j, by simp [CodeTree.leafOf?, hsa], hu.1, hu.2.1.trans hsa, by simp⟩
      | node j l' r' =>
        have hq : q ≠ [] := CodeTree.path?_ne_nil rfl huq
        have hk := (CodeTree.heldBy_node.1 hu).1.1
        simp only [CodeTree.root_node] at ht hchild ⊢
        rw [arrive_internal _ _ hk]
        obtain ⟨leaf, hlf, hkl, hsl, htr⟩ := ih hq
          { d with src := { d.src with pos := d.src.pos + 1 }, cur := j, decState := .atNode } rfl (by simp)
          (BitSource.drop_of_drop_cons (by simpa using hbits))
        refine ⟨leaf, hlf, hkl, hsl, ?_⟩
        rw [htr]
        simp only [arrive, List.length_cons]
        have hpos : d.src.pos + 1 + q.length = d.src.pos + (q.length + 1) := by omega
        rw [hkl, hpos]
    simp only [CodeTree.path?] at hp
    split at hp
    · next q hq =>
      simp only [Option.some.injEq] at hp
      obtain ⟨leaf, hlf, hres⟩ := hstep false q l hp.symm (by simpa [hcur] using hleft) hl hq
        fun hqne d' hc hd hb => ihl hl hq hqne d' hc hd hb
      exact ⟨leaf, by simp [CodeTree.leafOf?, hlf], hres⟩
    · next hnone =>
      obtain ⟨q, hq, rfl⟩ := Option.map_eq_some_iff.1 hp
      obtain ⟨leaf, hlf, hres⟩ := hstep true q r rfl (by simpa [hcur] using hright) hr hq
        fun hqne d' hc hd hb => ihr hr hq hqne d' hc hd hb
      refine ⟨leaf, ?_, hres⟩
      have : l.leafOf? a = none := CodeTree.leafOf?_eq_none.2 (CodeTree.path?_eq_none.1 hnone)
      simp [CodeTree.leafOf?, this, hlf]

end Sys2Proof.Machine
end

