-- ==== Sys2Proof/Laws/Encoder.lean ====
section
/-! SUPPORT. What the encoder does: one symbol's code (R110), the loop over bytes (R112), the body (R113). -/

namespace Sys2Proof.Machine

/-- R110: a symbol with a code is written and counted. -/
theorem emit_of_valid {codes : CodeTable} {a : Symbol} (h : codes[a].valid = true) (d : BitSink) (n : BitVec 32) :
    emit codes a d n = some ({ d with bits := d.bits ++ codeBits codes[a] }, bump n (codeBits codes[a]).length) := by
  simp only [emit, h, if_true, BitSink.writeBits, codeBits, bitsOf_length]

/-- R110: a symbol without a code is NO_CODE. -/
theorem emit_of_invalid {codes : CodeTable} {a : Symbol} (h : codes[a].valid = false) (d : BitSink) (n : BitVec 32) :
    emit codes a d n = none := by
  simp only [emit, h, Bool.false_eq_true, if_false]

/-- An encoder that has written the codes of some bytes, read from the source. -/
def Encoding.coded (codes : CodeTable) (bytes : List Nat) (e : Encoding) : Encoding where
  src := { e.src with pos := e.src.pos + 8 * bytes.length }
  snk := { e.snk with bits := e.snk.bits ++ codesOfBytes codes bytes }
  encBits := bump e.encBits (codesOfBytes codes bytes).length

theorem Encoding.emit_of_valid {codes : CodeTable} {a : Symbol} (h : codes[a].valid = true) (e : Encoding) :
    e.emit codes a = .done () { e with
      snk := { e.snk with bits := e.snk.bits ++ codeBits codes[a] }
      encBits := bump e.encBits (codeBits codes[a]).length } := by
  simp only [Encoding.emit, Machine.emit_of_valid h]

theorem Encoding.emit_of_invalid {codes : CodeTable} {a : Symbol} (h : codes[a].valid = false) (e : Encoding) :
    e.emit codes a = .raised .noCode e := by
  simp only [Encoding.emit, Machine.emit_of_invalid h]

@[simp] theorem Encoding.coded_nil (codes : CodeTable) (e : Encoding) : e.coded codes [] = e := by
  simp [Encoding.coded, codesOfBytes, bump]

theorem codesOfBytes_cons (codes : CodeTable) (b : Nat) (bytes : List Nat) :
    codesOfBytes codes (b :: bytes) = codeBits codes[byteSymbol b] ++ codesOfBytes codes bytes := by
  simp [codesOfBytes]

/-- R112: bytes with codes are encoded, one pass each. -/
theorem encodeBytes_append {codes : CodeTable} (pre post : List Nat) (fuel : Nat) (e : Encoding)
    (h : wholeBytes (e.src.bits.drop e.src.pos) = pre ++ post)
    (hvalid : ∀ b ∈ pre, codes[byteSymbol b].valid = true) :
    encodeBytes codes (pre.length + fuel) e = encodeBytes codes fuel (e.coded codes pre) := by
  induction pre generalizing e with
  | nil => simp
  | cons b pre ih =>
    obtain ⟨hread, hrest⟩ := readBits_byte h
    rw [show (b :: pre).length + fuel = (pre.length + fuel) + 1 by simp; omega, encodeBytes, hread]
    dsimp only
    rw [Encoding.emit_of_valid (hvalid b (by simp))]
    dsimp only
    rw [ih _ hrest fun c hc => hvalid c (by simp [hc])]
    congr 1
    simp only [Encoding.coded, codesOfBytes_cons, bump_bump, List.length_append, List.append_assoc, List.length_cons]
    congr 2
    omega

theorem encodeBytes_nil {codes : CodeTable} (fuel : Nat) (e : Encoding)
    (h : wholeBytes (e.src.bits.drop e.src.pos) = []) : encodeBytes codes fuel e = .done () e := by
  cases fuel with
  | zero => rfl
  | succ fuel => rw [encodeBytes, readBits_no_byte h]

/-- R112: a byte without a code is read and raises NO_CODE. -/
theorem encodeBytes_noCode {codes : CodeTable} (fuel : Nat) (e : Encoding) {b : Nat} {bs : List Nat}
    (h : wholeBytes (e.src.bits.drop e.src.pos) = b :: bs) (hc : codes[byteSymbol b].valid = false) :
    encodeBytes codes (fuel + 1) e = .raised .noCode { e with src := { e.src with pos := e.src.pos + 8 } } := by
  rw [encodeBytes, (readBits_byte h).1]
  dsimp only
  rw [Encoding.emit_of_invalid hc]

/-- R112, R113: with a code for every byte and the sentinel, the body is written. -/
theorem encodeBody_done {codes : CodeTable} (e : Encoding)
    (hbytes : ∀ b ∈ wholeBytes (e.src.bits.drop e.src.pos), codes[byteSymbol b].valid = true)
    (hs : codes[sentinel].valid = true) :
    encodeBody codes e = .done () {
      src := { e.src with pos := e.src.pos + 8 * (wholeBytes (e.src.bits.drop e.src.pos)).length }
      snk := { e.snk with bits := e.snk.bits ++ bodyOf codes (wholeBytes (e.src.bits.drop e.src.pos)) }
      encBits := bump e.encBits (bodyOf codes (wholeBytes (e.src.bits.drop e.src.pos))).length } := by
  generalize hbs : wholeBytes (e.src.bits.drop e.src.pos) = bytes at *
  have hlen : bytes.length ≤ e.src.remaining := by
    rw [← hbs, wholeBytes_length, BitSource.remaining_eq_length_drop]
    omega
  obtain ⟨k, hk⟩ := Nat.exists_eq_add_of_le hlen
  have hstop : wholeBytes ((e.coded codes bytes).src.bits.drop (e.coded codes bytes).src.pos) = [] := by
    apply wholeBytes_eq_nil
    have hl := congrArg List.length hbs
    rw [wholeBytes_length, List.length_drop] at hl
    simp only [Encoding.coded, List.length_drop]
    omega
  rw [encodeBody, hk, encodeBytes_append bytes [] k e (by simpa using hbs) hbytes, encodeBytes_nil k _ hstop]
  dsimp only
  rw [Encoding.emit_of_valid hs]
  simp only [Encoding.coded, bodyOf, bump_bump, List.length_append, List.append_assoc]

/-- R46, R50: what every emission keeps. -/
theorem Encoding.emit_keeps {codes : CodeTable} {a : Symbol} {e e' : Encoding}
    (h : e.emit codes a = .done () e' ∨ ∃ er, e.emit codes a = .raised er e') :
    e'.src = e.src ∧ e.snk.bits <+: e'.snk.bits ∧ e'.snk.closed = e.snk.closed := by
  cases hv : codes[a].valid with
  | true =>
    rw [Encoding.emit_of_valid hv] at h
    rcases h with h | ⟨er, h⟩ <;> simp at h
    subst h
    exact ⟨rfl, List.prefix_append _ _, rfl⟩
  | false =>
    rw [Encoding.emit_of_invalid hv] at h
    rcases h with h | ⟨er, h⟩ <;> simp at h
    obtain ⟨-, rfl⟩ := h
    exact ⟨rfl, List.prefix_rfl, rfl⟩

/-- R46, R50, R57: what the loop keeps: the source's bits, a position within them, the sink's bits so far, its flag. -/
theorem encodeBytes_keeps {codes : CodeTable} (fuel : Nat) (e : Encoding) (hpos : e.src.pos ≤ e.src.bits.length) :
    ∀ e', (encodeBytes codes fuel e = .done () e' ∨ ∃ er, encodeBytes codes fuel e = .raised er e') →
      e'.src.bits = e.src.bits ∧ e'.src.pos ≤ e'.src.bits.length ∧ e.snk.bits <+: e'.snk.bits ∧
        e'.snk.closed = e.snk.closed := by
  induction fuel generalizing e with
  | zero =>
    rintro e' (h | ⟨er, h⟩) <;> simp [encodeBytes] at h
    exact h ▸ ⟨rfl, hpos, List.prefix_rfl, rfl⟩
  | succ fuel ih =>
    intro e' h
    rw [encodeBytes] at h
    split at h
    · rcases h with h | ⟨er, h⟩ <;> simp at h
      exact h ▸ ⟨rfl, hpos, List.prefix_rfl, rfl⟩
    · next b src hread =>
      have hsrc := BitSource.readBits_bits hread
      have hle := BitSource.readBits_le hread
      split at h
      · next er e₁ he =>
        have hk := Encoding.emit_keeps (.inr ⟨er, he⟩)
        rcases h with h | ⟨er', h⟩ <;> simp at h
        obtain ⟨-, rfl⟩ := h
        rw [hk.1]
        exact ⟨hsrc, hle, hk.2⟩
      · next u e₁ he =>
        have hk := Encoding.emit_keeps (.inl he)
        have := ih e₁ (by rw [hk.1]; exact hle) e' h
        rw [hk.1] at this
        exact ⟨this.1.trans hsrc, this.2.1, hk.2.1.trans this.2.2.1, this.2.2.2.trans hk.2.2⟩

theorem encodeBody_keeps {codes : CodeTable} (e : Encoding) (hpos : e.src.pos ≤ e.src.bits.length) :
    ∀ e', (encodeBody codes e = .done () e' ∨ ∃ er, encodeBody codes e = .raised er e') →
      e'.src.bits = e.src.bits ∧ e'.src.pos ≤ e'.src.bits.length ∧ e.snk.bits <+: e'.snk.bits ∧
        e'.snk.closed = e.snk.closed := by
  intro e' h
  rw [encodeBody] at h
  split at h
  · next er e₁ he =>
    rcases h with h | ⟨er', h⟩ <;> simp at h
    obtain ⟨-, rfl⟩ := h
    exact encodeBytes_keeps _ e hpos _ (.inr ⟨er, he⟩)
  · next u e₁ he =>
    have hb := encodeBytes_keeps _ e hpos _ (.inl he)
    have hk := Encoding.emit_keeps h
    rw [hk.1]
    exact ⟨hb.1, hb.2.1, hb.2.2.1.trans hk.2.1, hk.2.2.trans hb.2.2.2⟩

end Sys2Proof.Machine
end

