-- ==== Sys2Proof/Laws/PerInstr.lean ====
section
/-! SUPPORT. The family WordShape: one lemma per command about its word (R68 to R73). -/

namespace Sys2Proof.Laws.WordShape

/-- R68, R71 to R74: the word of a well-formed command has `RSV = 0`, an opcode that is not reserved, and in `ARG` a symbol. -/
def Statement (i : Instr) : Prop :=
  i.wf = true → rsvField (encode i) = 0 ∧ (opField (encode i)).toNat < 14 ∧ (argField (encode i)).toNat ≤ 256

theorem nop : Statement .nop := by unfold Statement; decide
theorem clear : Statement .clear := by unfold Statement; decide
theorem freqScan : Statement .freqScan := by unfold Statement; decide
theorem buildTree : Statement .buildTree := by unfold Statement; decide
theorem genCodes : Statement .genCodes := by unfold Statement; decide
theorem writeMagic : Statement .writeMagic := by unfold Statement; decide
theorem writeTree : Statement .writeTree := by unfold Statement; decide
theorem encodeScan : Statement .encodeScan := by unfold Statement; decide
theorem closeOut : Statement .closeOut := by unfold Statement; decide
theorem readMagic : Statement .readMagic := by unfold Statement; decide
theorem readTree : Statement .readTree := by unfold Statement; decide
theorem decodeBit : Statement .decodeBit := by unfold Statement; decide
theorem decodeRun : Statement .decodeRun := by unfold Statement; decide

theorem encodeSym (arg : BitVec 9) : Statement (.encodeSym arg) := by
  revert arg
  unfold Statement
  decide +kernel

end Sys2Proof.Laws.WordShape
end

