-- ==== Sys2Proof/Laws/Port.lean ====
section
/-! SUPPORT. What sequences of host operations do (R143, R144). -/

namespace Sys2Proof.Machine

@[simp] theorem runHost_nil (s : State) : runHost [] s = .next s := rfl

/-- An operation that answers a next state, then the others. -/
theorem runHost_cons {op : HostOp} {ops : List HostOp} {s t : State} (h : hostStep op s = .next t) :
    runHost (op :: ops) s = runHost ops t := by
  simp only [runHost, h]

/-- Operations that answer a next state, then others. -/
theorem runHost_append {ops ops' : List HostOp} {s t : State} (h : runHost ops s = .next t) :
    runHost (ops ++ ops') s = runHost ops' t := by
  induction ops generalizing s with
  | nil =>
    simp only [runHost_nil, Host.Outcome.next.injEq] at h
    rw [List.nil_append, h]
  | cons op ops ih =>
    rw [List.cons_append, runHost]
    rw [runHost] at h
    split at h
    · exact ih h
    · simp at h
    · simp at h

/-- R144: a call whose commands all complete ends with the word of `STATUS` as the reply. -/
theorem runHost_hostCall {bits : List Bool} {words : List Word} {s t : State}
    (h : runHost (words.map .issue)
      { clearCore s with src := some (BitSource.bind bits), snk := some BitSink.empty } = .next t) :
    runHost (hostCall bits words) s = .next { t with reply := some (.value (statusWord t)) } := by
  have h' : runHost ([.powerOn, .bindSource bits, .bindSink] ++ words.map .issue) s = .next t := h
  rw [hostCall, runHost_append h']
  rfl

end Sys2Proof.Machine
end

