-- ==== Sys2Proof/Laws/Serializer.lean ====
section
/-! SUPPORT. What `ser` and `des` do: the header of the tree the memory holds is written (R103), and reading succeeds exactly on
headers, rebuilding the tree in preorder (R105 to R108). -/

namespace Sys2Proof.Machine

/-! ## Writing -/

/-- Header bits written and counted. -/
def HeaderWriter.wrote (h : HeaderWriter) (bs : List Bool) : HeaderWriter :=
  { snk := { h.snk with bits := h.snk.bits ++ bs }, hdrBits := bump h.hdrBits bs.length }

theorem HeaderWriter.put_eq (n v : Nat) (h : HeaderWriter) : h.put n v = h.wrote (bitsOf n v) := by
  simp [put, wrote, BitSink.writeBits]

theorem HeaderWriter.wrote_wrote (h : HeaderWriter) (bs cs : List Bool) :
    (h.wrote bs).wrote cs = h.wrote (bs ++ cs) := by
  simp [wrote, bump_bump]

/-- R103: `ser` over a tree no deeper than the paths it may follow writes that tree's header. -/
theorem ser_eq {mem : NodeMem} {t : CodeTree} (r : Nat) (h : HeaderWriter) (hheld : t.heldBy mem = true)
    (hdepth : t.depth < r) : ser mem r t.root h = some (h.wrote t.header) := by
  induction t generalizing r h with
  | leaf i s =>
    obtain ⟨r, rfl⟩ : ∃ k, r = k + 1 := ⟨r - 1, by omega⟩
    rw [CodeTree.heldBy_leaf] at hheld
    simp only [CodeTree.root_leaf, ser, hheld.1, hheld.2.1, HeaderWriter.put_eq, HeaderWriter.wrote_wrote]
    rfl
  | node i l rt ihl ihr =>
    obtain ⟨r, rfl⟩ : ∃ k, r = k + 1 := ⟨r - 1, by omega⟩
    rw [CodeTree.heldBy_node] at hheld
    simp only [CodeTree.depth] at hdepth
    simp only [CodeTree.root_node, ser, hheld.1.1, hheld.1.2.2.1, hheld.1.2.2.2, HeaderWriter.put_eq,
      ihl r _ hheld.2.1 (by omega), ihr r _ hheld.2.2 (by omega), HeaderWriter.wrote_wrote]
    rfl

/-! ## Reading -/

/-- What `des` leaves when it has read the subtree `t`: its header consumed and counted, its nodes allocated in preorder from
the old `NODE_COUNT` on, its leaves' symbols seen, every other entry as it was. -/
structure ReadSubtree (h h' : HeaderReader) (t : CodeTree) : Prop where
  held : t.heldBy h'.node = true
  root_eq : t.root.val = h.count.val
  indices_eq : t.indices.map (·.val) = List.range' h.count.val t.indices.length
  count_eq : h'.count.val = h.count.val + t.indices.length
  others : ∀ i : NodeIdx, i.val < h.count.val ∨ h'.count.val ≤ i.val → h'.node[i] = h.node[i]
  weights : (∀ i : NodeIdx, h.node[i].weight = 0) → ∀ i : NodeIdx, h'.node[i].weight = 0
  src_eq : h'.src = { h.src with pos := h.src.pos + t.header.length }
  consumed : h.src.bits.drop h.src.pos = t.header ++ h'.src.bits.drop h'.src.pos
  hdrBits_eq : h'.hdrBits = bump h.hdrBits t.header.length
  seen_eq : ∀ a, a ∈ h'.seen ↔ a ∈ h.seen ∨ a ∈ t.leaves
  seen_new : ∀ a ∈ t.leaves, a ∉ h.seen
  nodup : t.leaves.Nodup

/-- The state of the reader once a node's index is allocated and its tag read. -/
def HeaderReader.tagged (h : HeaderReader) (hroom : h.count.val < 513) : HeaderReader :=
  { h with
    count := ⟨h.count.val + 1, by omega⟩
    src := { h.src with pos := h.src.pos + 1 }
    hdrBits := bump h.hdrBits 1 }

/-- R105, R107: one call of `des`, its tag read. -/
theorem des_succ_of_tag {r : Nat} {h : HeaderReader} {b : Bool} {rest : List Bool} (hroom : h.count.val < 513)
    (hb : h.src.bits.drop h.src.pos = b :: rest) :
    des (r + 1) h =
      if b then desLeaf ⟨h.count.val, hroom⟩ (h.tagged hroom)
      else
        match des r (h.tagged hroom) with
        | .raised e h₃ => .raised e h₃
        | .done left h₃ =>
          match des r (h₃.setLeft ⟨h.count.val, hroom⟩ left) with
          | .raised e h₄ => .raised e h₄
          | .done right h₄ => .done ⟨h.count.val, hroom⟩ (h₄.setRight ⟨h.count.val, hroom⟩ right) := by
  rw [des, dif_pos hroom]
  simp only [BitSource.readBits_one_of_drop hb]
  cases b <;> rfl

/-- A leaf read with its checks passed (R108). -/
theorem desLeaf_eq {i : NodeIdx} {h : HeaderReader} {a : Symbol} {rest : List Bool}
    (hb : h.src.bits.drop h.src.pos = bitsOf 9 a.val ++ rest) (hnew : a ∉ h.seen) :
    desLeaf i h = .done i { h with
      src := { h.src with pos := h.src.pos + 9 }
      hdrBits := bump h.hdrBits 9
      seen := a :: h.seen
      node := h.node.set i.val { kind := .leaf, sym := a, left := 0, right := 0, weight := 0 } } := by
  have hlt : a.val < 2 ^ 9 := by have := a.isLt; omega
  simp only [desLeaf, BitSource.readBits_bitsOf hb (by omega) hlt, symbolOf?_val, hnew, if_false]

theorem readSubtree_leaf {h : HeaderReader} (hroom : h.count.val < 513) {a : Symbol} {rest : List Bool}
    (hb : h.src.bits.drop h.src.pos = true :: (bitsOf 9 a.val ++ rest)) (hnew : a ∉ h.seen) (r : Nat) :
    ∃ h', des (r + 1) h = .done ⟨h.count.val, hroom⟩ h' ∧ ReadSubtree h h' (.leaf ⟨h.count.val, hroom⟩ a) := by
  have hb' : (h.tagged hroom).src.bits.drop (h.tagged hroom).src.pos = bitsOf 9 a.val ++ rest :=
    BitSource.drop_of_drop_cons hb
  refine ⟨_, by rw [des_succ_of_tag hroom hb, if_pos rfl, desLeaf_eq hb' hnew], ?_⟩
  constructor
  · rw [CodeTree.heldBy_leaf]
    simp
  · rfl
  · rfl
  · rfl
  · intro i hi
    have : (⟨h.count.val, hroom⟩ : NodeIdx) ≠ i := by
      simp only [HeaderReader.tagged] at hi
      rintro rfl
      simp at hi
    rw [set_get, if_neg this]
    rfl
  · intro hw i
    rw [set_get]
    split
    · rfl
    · exact hw i
  · simp [HeaderReader.tagged, CodeTree.header, Nat.add_assoc]
  · have := BitSource.drop_of_drop_bitsOf hb'
    simp only [CodeTree.header, List.cons_append]
    rw [hb]
    congr 2
    exact this.symm
  · simp [HeaderReader.tagged, CodeTree.header, bump_bump, Nat.add_comm 1 9]
  · intro x
    simp [HeaderReader.tagged, CodeTree.leaves, or_comm]
  · simpa [CodeTree.leaves] using hnew
  · simp [CodeTree.leaves]

@[simp] theorem setLeft_get (i l j : NodeIdx) (h : HeaderReader) :
    (h.setLeft i l).node[j] = if i = j then { h.node[j] with left := l } else h.node[j] := by
  simp only [HeaderReader.setLeft, set_get]
  split
  · next hij => rw [hij]
  · rfl

@[simp] theorem setRight_get (i l j : NodeIdx) (h : HeaderReader) :
    (h.setRight i l).node[j] = if i = j then { h.node[j] with right := l } else h.node[j] := by
  simp only [HeaderReader.setRight, set_get]
  split
  · next hij => rw [hij]
  · rfl

theorem ReadSubtree.lt_of_mem {h h' : HeaderReader} {t : CodeTree} (hs : ReadSubtree h h' t) {i : NodeIdx}
    (hi : i ∈ t.indices) : h.count.val ≤ i.val ∧ i.val < h'.count.val := by
  have : i.val ∈ t.indices.map (·.val) := List.mem_map_of_mem hi
  rw [hs.indices_eq, List.mem_range'_1] at this
  rw [hs.count_eq]
  exact this

theorem ReadSubtree.root_eq' {h h' : HeaderReader} {t : CodeTree} (hs : ReadSubtree h h' t) (hroom : h.count.val < 513) :
    t.root = ⟨h.count.val, hroom⟩ := Fin.ext hs.root_eq

/-- R105, R106: two subtrees read one after the other make an internal node's subtree. -/
theorem readSubtree_node {h h₃ h₄ : HeaderReader} (hroom : h.count.val < 513) {l r : CodeTree} {rest : List Bool}
    (hb : h.src.bits.drop h.src.pos = false :: rest) (hzero : h.node[(⟨h.count.val, hroom⟩ : NodeIdx)] = Node.zero)
    (hl : ReadSubtree (h.tagged hroom) h₃ l)
    (hr : ReadSubtree (h₃.setLeft ⟨h.count.val, hroom⟩ l.root) h₄ r) :
    ReadSubtree h (h₄.setRight ⟨h.count.val, hroom⟩ r.root) (.node ⟨h.count.val, hroom⟩ l r) := by
  have hc₁ : (h.tagged hroom).count.val = h.count.val + 1 := rfl
  have hc₂ : (h₃.setLeft ⟨h.count.val, hroom⟩ l.root).count = h₃.count := rfl
  have hc₃ := hl.count_eq
  have hc₄ := hr.count_eq
  have hentry : h₄.node[(⟨h.count.val, hroom⟩ : NodeIdx)] = { Node.zero with left := l.root } := by
    rw [hr.others _ (.inl (by rw [hc₂, hc₃, hc₁]; simp only; omega)), setLeft_get, if_pos rfl,
      hl.others _ (.inl (by rw [hc₁]; simp only; omega))]
    exact congrArg (fun n : Node => { n with left := l.root }) hzero
  constructor
  · rw [CodeTree.heldBy_node, setRight_get, if_pos rfl, hentry]
    refine ⟨⟨rfl, rfl, rfl, rfl⟩, ?_, ?_⟩
    · refine CodeTree.heldBy_congr (fun i hi => ?_) hl.held
      have hi' := hl.lt_of_mem hi
      have hne : (⟨h.count.val, hroom⟩ : NodeIdx) ≠ i := by
        rintro rfl
        simp only at hi'
        omega
      rw [setRight_get, if_neg hne, hr.others i (.inl (by rw [hc₂]; omega)), setLeft_get, if_neg hne]
    · refine CodeTree.heldBy_congr (fun i hi => ?_) hr.held
      have hi' := hr.lt_of_mem hi
      have hne : (⟨h.count.val, hroom⟩ : NodeIdx) ≠ i := by
        rintro rfl
        rw [hc₂] at hi'
        simp only at hi'
        omega
      rw [setRight_get, if_neg hne]
  · rfl
  · simp only [CodeTree.indices, List.map_cons, List.map_append, hl.indices_eq, hr.indices_eq, hc₁, hc₂, hc₃,
      List.length_cons, List.length_append, List.range'_succ, List.range'_append_1]
  · simp only [CodeTree.indices, List.length_cons, List.length_append]
    show h₄.count.val = _
    rw [hc₄, hc₂, hc₃, hc₁]
    omega
  · intro i hi
    have hi' : i.val < h.count.val ∨ h₄.count.val ≤ i.val := hi
    have hne : (⟨h.count.val, hroom⟩ : NodeIdx) ≠ i := by
      rintro rfl
      simp only at hi'
      rw [hc₂] at hc₄
      omega
    rw [hc₂] at hc₄
    rw [setRight_get, if_neg hne, hr.others i (by rw [hc₂]; omega), setLeft_get, if_neg hne, hl.others i (by omega)]
    rfl
  · intro hw i
    have hw₃ := hl.weights hw
    have hw₄ := hr.weights fun j => by
      rw [setLeft_get]
      split <;> exact hw₃ j
    rw [setRight_get]
    split <;> exact hw₄ i
  · have h₁ : (h₃.setLeft ⟨h.count.val, hroom⟩ l.root).src = h₃.src := rfl
    show h₄.src = _
    rw [hr.src_eq, h₁, hl.src_eq]
    simp only [HeaderReader.tagged, CodeTree.header, List.length_cons, List.length_append]
    congr 1
    omega
  · have h₁ : (h₃.setLeft ⟨h.count.val, hroom⟩ l.root).src = h₃.src := rfl
    have h₂ := hl.consumed
    have h₃' := hr.consumed
    rw [h₁] at h₃'
    rw [h₃'] at h₂
    have h₄' := BitSource.drop_of_drop_cons hb
    rw [hb, ← h₄']
    show false :: (h.tagged hroom).src.bits.drop (h.tagged hroom).src.pos = _
    rw [h₂]
    simp only [CodeTree.header, List.cons_append, List.append_assoc]
    rfl
  · have h₁ : (h₃.setLeft ⟨h.count.val, hroom⟩ l.root).hdrBits = h₃.hdrBits := rfl
    show h₄.hdrBits = _
    rw [hr.hdrBits_eq, h₁, hl.hdrBits_eq]
    simp only [HeaderReader.tagged, bump_bump, CodeTree.header, List.length_cons, List.length_append]
    congr 1
    omega
  · intro a
    have h₁ : (h₃.setLeft ⟨h.count.val, hroom⟩ l.root).seen = h₃.seen := rfl
    have h₂ : (h.tagged hroom).seen = h.seen := rfl
    show a ∈ h₄.seen ↔ _
    rw [hr.seen_eq, h₁, hl.seen_eq, h₂]
    simp only [CodeTree.leaves, List.mem_append, or_assoc]
  · intro a ha
    have h₁ : (h₃.setLeft ⟨h.count.val, hroom⟩ l.root).seen = h₃.seen := rfl
    have h₂ : (h.tagged hroom).seen = h.seen := rfl
    simp only [CodeTree.leaves, List.mem_append] at ha
    rcases ha with ha | ha
    · exact h₂ ▸ hl.seen_new a ha
    · have := hr.seen_new a ha
      rw [h₁, hl.seen_eq, h₂] at this
      exact fun hm => this (.inl hm)
  · simp only [CodeTree.leaves, List.nodup_append]
    refine ⟨hl.nodup, hr.nodup, fun a ha b hb hab => ?_⟩
    subst hab
    have h₁ : (h₃.setLeft ⟨h.count.val, hroom⟩ l.root).seen = h₃.seen := rfl
    have := hr.seen_new a hb
    rw [h₁, hl.seen_eq] at this
    exact this (.inr ha)

/-- R105, R106: on the header of a tree with new, distinct symbols, no deeper than the bound and with room for its nodes, `des`
rebuilds a tree of the same shape. -/
theorem des_of_header (t : CodeTree) (r : Nat) (h : HeaderReader) (rest : List Bool)
    (hbits : h.src.bits.drop h.src.pos = t.header ++ rest) (hdepth : t.depth < r)
    (hroom : h.count.val + t.indices.length ≤ 513) (hnd : t.leaves.Nodup) (hnew : ∀ a ∈ t.leaves, a ∉ h.seen)
    (hzero : ∀ i : NodeIdx, h.count.val ≤ i.val → h.node[i] = Node.zero) :
    ∃ h' t', des r h = .done t'.root h' ∧ t.sameShape t' = true ∧ ReadSubtree h h' t' := by
  induction t generalizing r h rest with
  | leaf i s =>
    obtain ⟨r, rfl⟩ : ∃ k, r = k + 1 := ⟨r - 1, by omega⟩
    simp only [CodeTree.indices, List.length_singleton] at hroom
    obtain ⟨h', hd, hs⟩ := readSubtree_leaf (h := h) (by omega) (a := s) (rest := rest) hbits
      (hnew s (by simp [CodeTree.leaves])) r
    exact ⟨h', .leaf ⟨h.count.val, by omega⟩ s, hd, by simp [CodeTree.sameShape], hs⟩
  | node i l rt ihl ihr =>
    obtain ⟨r, rfl⟩ : ∃ k, r = k + 1 := ⟨r - 1, by omega⟩
    simp only [CodeTree.indices, List.length_cons, List.length_append] at hroom
    simp only [CodeTree.depth] at hdepth
    simp only [CodeTree.leaves, List.nodup_append] at hnd
    simp only [CodeTree.header, List.cons_append, List.append_assoc] at hbits
    have hr' : h.count.val < 513 := by omega
    have hb₁ : (h.tagged hr').src.bits.drop (h.tagged hr').src.pos = l.header ++ (rt.header ++ rest) :=
      BitSource.drop_of_drop_cons hbits
    obtain ⟨h₃, l', hd₃, hsh₃, hs₃⟩ := ihl r (h.tagged hr') _ hb₁ (by omega)
      (by simp only [HeaderReader.tagged]; omega) hnd.1
      (fun a ha => hnew a (by simp [CodeTree.leaves, ha]))
      (fun j hj => hzero j (by simp only [HeaderReader.tagged] at hj; omega))
    have hlen : l'.indices.length = l.indices.length := by
      have h₁ := l'.indices_length
      have h₂ := l.indices_length
      rw [← CodeTree.sameShape_leaves hsh₃] at h₁
      omega
    have hc₃ := hs₃.count_eq
    simp only [HeaderReader.tagged] at hc₃
    have hb₃ : (h₃.setLeft ⟨h.count.val, hr'⟩ l'.root).src.bits.drop (h₃.setLeft ⟨h.count.val, hr'⟩ l'.root).src.pos =
        rt.header ++ rest := by
      have := hs₃.consumed
      rw [hb₁, CodeTree.sameShape_header hsh₃] at this
      exact (List.append_cancel_left this).symm
    obtain ⟨h₄, r', hd₄, hsh₄, hs₄⟩ := ihr r (h₃.setLeft ⟨h.count.val, hr'⟩ l'.root) rest hb₃ (by omega)
      (by simp only [HeaderReader.setLeft]; omega) hnd.2.1
      (fun a ha => by
        simp only [HeaderReader.setLeft, hs₃.seen_eq, HeaderReader.tagged, not_or]
        refine ⟨hnew a (by simp [CodeTree.leaves, ha]), fun hm => ?_⟩
        rw [← CodeTree.sameShape_leaves hsh₃] at hm
        exact hnd.2.2 a hm a ha rfl)
      (fun j hj => by
        simp only [HeaderReader.setLeft] at hj
        have hne : (⟨h.count.val, hr'⟩ : NodeIdx) ≠ j := by
          rintro rfl
          simp only at hj
          omega
        rw [setLeft_get, if_neg hne, hs₃.others j (.inr hj)]
        exact hzero j (by omega))
    refine ⟨_, .node ⟨h.count.val, hr'⟩ l' r', ?_, by simp [CodeTree.sameShape, hsh₃, hsh₄],
      readSubtree_node hr' hbits (hzero _ (Nat.le_refl _)) hs₃ hs₄⟩
    rw [des_succ_of_tag hr' hbits]
    simp [hd₃, hd₄]

/-- R105 to R108: `des` succeeds only on a header. -/
theorem des_done (r : Nat) (h h' : HeaderReader) (i : NodeIdx) (hd : des r h = .done i h')
    (hzero : ∀ j : NodeIdx, h.count.val ≤ j.val → h.node[j] = Node.zero) :
    ∃ t, t.root = i ∧ t.depth < r ∧ ReadSubtree h h' t := by
  induction r generalizing h h' i with
  | zero => simp [des] at hd
  | succ r ih =>
    by_cases hroom : h.count.val < 513
    swap
    · rw [des, dif_neg hroom] at hd
      simp at hd
    cases hbits : h.src.bits.drop h.src.pos with
    | nil =>
      have hnone : h.src.readBits 1 = none := by
        rw [BitSource.readBits_eq_none]
        have := congrArg List.length hbits
        simp at this
        omega
      rw [des, dif_pos hroom] at hd
      simp [hnone] at hd
    | cons b rest =>
      rw [des_succ_of_tag hroom hbits] at hd
      cases b with
      | true =>
        rw [if_pos rfl] at hd
        unfold desLeaf at hd
        split at hd
        · simp at hd
        · next v src hread =>
          have hdrop := BitSource.drop_of_readBits hread
          dsimp only at hd
          split at hd
          · simp at hd
          · next a ha =>
            obtain rfl := symbolOf?_eq_some.1 ha
            split at hd
            · simp at hd
            · next hnew =>
              have hb' : h.src.bits.drop h.src.pos = true :: (bitsOf 9 a.val ++ src.bits.drop src.pos) := by
                rw [hbits, ← hdrop]
                exact congrArg _ (BitSource.drop_of_drop_cons hbits).symm
              obtain ⟨h'', hd'', hs⟩ := readSubtree_leaf hroom hb' hnew r
              rw [des_succ_of_tag hroom hb', if_pos rfl, desLeaf, hread] at hd''
              dsimp only at hd''
              rw [ha] at hd''
              dsimp only at hd''
              rw [if_neg hnew] at hd''
              rw [hd''] at hd
              simp only [Ran.done.injEq] at hd
              obtain ⟨rfl, rfl⟩ := hd
              exact ⟨_, rfl, by simp [CodeTree.depth], hs⟩
      | false =>
        rw [if_neg (by simp)] at hd
        split at hd
        · simp at hd
        · next left h₃ hd₃ =>
          split at hd
          · simp at hd
          · next right h₄ hd₄ =>
            simp only [Ran.done.injEq] at hd
            obtain ⟨rfl, rfl⟩ := hd
            obtain ⟨l, rfl, hdl, hs₃⟩ := ih _ _ _ hd₃ fun j hj => hzero j (by
              simp only [HeaderReader.tagged] at hj
              omega)
            have hc₃ := hs₃.count_eq
            simp only [HeaderReader.tagged] at hc₃
            obtain ⟨rt, rfl, hdr, hs₄⟩ := ih _ _ _ hd₄ fun j hj => by
              simp only [HeaderReader.setLeft] at hj
              have hne : (⟨h.count.val, hroom⟩ : NodeIdx) ≠ j := by
                rintro rfl
                simp only at hj
                omega
              rw [setLeft_get, if_neg hne, hs₃.others j (.inr hj)]
              exact hzero j (by omega)
            refine ⟨.node _ l rt, rfl, by simp only [CodeTree.depth]; omega,
              readSubtree_node hroom hbits (hzero _ (Nat.le_refl _)) hs₃ hs₄⟩

/-- R105: a leaf that is not read leaves the memory as it was. -/
theorem desLeaf_raised {i : NodeIdx} {h h' : HeaderReader} {e : Err} (hd : desLeaf i h = .raised e h') :
    h'.node = h.node ∧ h'.count = h.count := by
  unfold desLeaf at hd
  split at hd
  · simp only [Ran.raised.injEq] at hd
    exact hd.2 ▸ ⟨rfl, rfl⟩
  · dsimp only at hd
    split at hd
    · simp only [Ran.raised.injEq] at hd
      exact hd.2 ▸ ⟨rfl, rfl⟩
    · split at hd
      · simp only [Ran.raised.injEq] at hd
        exact hd.2 ▸ ⟨rfl, rfl⟩
      · simp at hd

/-- R105, R126: a `des` that raises leaves the entries before its own as they were, and its own, if it has one, internal with
no right child: a tree with no node 0 below its root cannot have such a root. -/
theorem des_raised (r : Nat) (h h' : HeaderReader) (e : Err) (hd : des r h = .raised e h')
    (hzero : ∀ j : NodeIdx, h.count.val ≤ j.val → h.node[j] = Node.zero) :
    (∀ i : NodeIdx, i.val < h.count.val → h'.node[i] = h.node[i]) ∧
      ∀ i : NodeIdx, i.val = h.count.val → h'.node[i].kind = .internal ∧ h'.node[i].right = 0 := by
  induction r generalizing h h' e with
  | zero =>
    simp only [des, Ran.raised.injEq] at hd
    obtain ⟨-, rfl⟩ := hd
    exact ⟨fun _ _ => rfl, fun i hi => by rw [hzero i (by omega)]; exact ⟨rfl, rfl⟩⟩
  | succ r ih =>
    have hstop : ∀ k : HeaderReader, k.node = h.node →
        (∀ i : NodeIdx, i.val < h.count.val → k.node[i] = h.node[i]) ∧
          ∀ i : NodeIdx, i.val = h.count.val → k.node[i].kind = .internal ∧ k.node[i].right = 0 := by
      intro k hk
      rw [hk]
      exact ⟨fun _ _ => rfl, fun i hi => by rw [hzero i (by omega)]; exact ⟨rfl, rfl⟩⟩
    by_cases hroom : h.count.val < 513
    swap
    · rw [des, dif_neg hroom, Ran.raised.injEq] at hd
      exact hstop h' (hd.2 ▸ rfl)
    cases hbits : h.src.bits.drop h.src.pos with
    | nil =>
      have hnone : h.src.readBits 1 = none := by
        rw [BitSource.readBits_eq_none]
        have := congrArg List.length hbits
        simp at this
        omega
      rw [des, dif_pos hroom] at hd
      simp only [hnone, Ran.raised.injEq] at hd
      exact hstop h' (hd.2 ▸ rfl)
    | cons b rest =>
      rw [des_succ_of_tag hroom hbits] at hd
      cases b with
      | true =>
        rw [if_pos rfl] at hd
        exact hstop h' (desLeaf_raised hd).1
      | false =>
        rw [if_neg (by simp)] at hd
        have hz₁ : ∀ j : NodeIdx, (h.tagged hroom).count.val ≤ j.val → (h.tagged hroom).node[j] = Node.zero :=
          fun j hj => hzero j (by simp only [HeaderReader.tagged] at hj; omega)
        split at hd
        · next e₁ h₁ hd₁ =>
          simp only [Ran.raised.injEq] at hd
          obtain ⟨-, rfl⟩ := hd
          have hfr := (ih _ _ _ hd₁ hz₁).1
          refine ⟨fun i hi => hfr i (by simp only [HeaderReader.tagged]; omega), fun i hi => ?_⟩
          rw [hfr i (by simp only [HeaderReader.tagged]; omega)]
          show h.node[i].kind = _ ∧ h.node[i].right = 0
          rw [hzero i (by omega)]
          exact ⟨rfl, rfl⟩
        · next left h₃ hd₃ =>
          obtain ⟨l, rfl, -, hs₃⟩ := des_done _ _ _ _ hd₃ hz₁
          have hc₃ := hs₃.count_eq
          simp only [HeaderReader.tagged] at hc₃
          split at hd
          · next e₄ h₄ hd₄ =>
            simp only [Ran.raised.injEq] at hd
            obtain ⟨-, rfl⟩ := hd
            have hfr := (ih _ _ _ hd₄ (fun j hj => by
              simp only [HeaderReader.setLeft] at hj
              have hne : (⟨h.count.val, hroom⟩ : NodeIdx) ≠ j := by
                rintro rfl
                simp only at hj
                omega
              rw [setLeft_get, if_neg hne, hs₃.others j (.inr hj)]
              exact hzero j (by omega))).1
            refine ⟨fun i hi => ?_, fun i hi => ?_⟩
            · have hne : (⟨h.count.val, hroom⟩ : NodeIdx) ≠ i := by
                rintro rfl
                simp only at hi
                omega
              rw [hfr i (by simp only [HeaderReader.setLeft]; omega), setLeft_get, if_neg hne,
                hs₃.others i (.inl (by simp only [HeaderReader.tagged]; omega))]
              rfl
            · have heq : (⟨h.count.val, hroom⟩ : NodeIdx) = i := Fin.ext hi.symm
              rw [hfr i (by simp only [HeaderReader.setLeft]; omega), setLeft_get, if_pos heq,
                hs₃.others i (.inl (by simp only [HeaderReader.tagged]; omega))]
              show h.node[i].kind = _ ∧ h.node[i].right = 0
              rw [hzero i (by omega)]
              exact ⟨rfl, rfl⟩
          · simp at hd

end Sys2Proof.Machine
end

