-- ==== Sys2Proof/Laws/TreeBuilder.lean ====
section
/-! SUPPORT. What the tree builder's operations do: a new node (R90), the leaves (R91), the placeholder (R92), the smallest key
(R93), one merge (R94). -/

namespace Sys2Proof.Machine

theorem newNode_of_room {b : Builder} (n : Node) (h : b.count.val < 513) :
    b.newNode n = some (⟨b.count.val, h⟩, { node := b.node.set b.count.val n, count := ⟨b.count.val + 1, by omega⟩ }) :=
  dif_pos h

theorem add_of_room {b : Builder} (n : Node) (h : b.count.val < 513) :
    b.add n = { node := b.node.set b.count.val n, count := ⟨b.count.val + 1, by omega⟩ } := by
  rw [Builder.add, newNode_of_room n h]

/-- The symbols among the given ones with a non-zero count. -/
def countedOf (freq : FreqTable) (syms : List Symbol) : List Symbol := syms.filter fun s => decide (0 < freq[s])

theorem countedSymbols_eq (freq : FreqTable) : countedSymbols freq = countedOf freq allSymbols := rfl

/-- R91: the leaves are added one after another from `NODE_COUNT` on. -/
theorem addLeaves_spec (freq : FreqTable) (syms : List Symbol) (b : Builder)
    (hroom : b.count.val + (countedOf freq syms).length ≤ 513) :
    (addLeaves freq b syms).count.val = b.count.val + (countedOf freq syms).length ∧
      ∀ i : NodeIdx, (addLeaves freq b syms).node[i] =
        if i.val < b.count.val then b.node[i]
        else match (countedOf freq syms)[i.val - b.count.val]? with
          | some a => leafNode a freq[a]
          | none => b.node[i] := by
  induction syms generalizing b with
  | nil => simp [addLeaves, countedOf]
  | cons a syms ih =>
    by_cases ha : 0 < freq[a]
    · have hc : countedOf freq (a :: syms) = a :: countedOf freq syms := List.filter_cons_of_pos (by simpa using ha)
      rw [hc, List.length_cons] at hroom
      have hb : b.count.val < 513 := by omega
      have hstep : addLeaves freq b (a :: syms) = addLeaves freq (b.add (leafNode a freq[a])) syms := by
        simp only [addLeaves, List.foldl_cons, if_pos ha]
      rw [hstep, add_of_room _ hb, hc]
      obtain ⟨h₁, h₂⟩ := ih { node := b.node.set b.count.val (leafNode a freq[a]), count := ⟨b.count.val + 1, by omega⟩ }
        (by simp only; omega)
      refine ⟨by rw [h₁, List.length_cons]; simp only; omega, fun i => ?_⟩
      have hset : (b.node.set b.count.val (leafNode a freq[a]))[i] =
          if (⟨b.count.val, hb⟩ : NodeIdx) = i then leafNode a freq[a] else b.node[i] := set_get b.node ⟨b.count.val, hb⟩ i _
      rw [h₂ i]
      simp only [hset, Fin.ext_iff]
      rcases Nat.lt_trichotomy i.val b.count.val with hlt | heq | hgt
      · rw [if_pos (by omega), if_neg (by omega), if_pos hlt]
      · rw [if_pos (by omega), if_pos heq.symm, if_neg (by omega),
          show i.val - b.count.val = 0 by omega, List.getElem?_cons_zero]
      · rw [if_neg (by omega), if_neg (by omega), if_neg (by omega),
          show i.val - b.count.val = (i.val - (b.count.val + 1)) + 1 by omega, List.getElem?_cons_succ]
    · have hc : countedOf freq (a :: syms) = countedOf freq syms := List.filter_cons_of_neg (by simpa using ha)
      have hstep : addLeaves freq b (a :: syms) = addLeaves freq b syms := by
        simp only [addLeaves, List.foldl_cons, if_neg ha]
      rw [hc] at hroom ⊢
      rw [hstep]
      exact ih b hroom

/-- R92: the placeholder is the smallest symbol whose count is 0. -/
theorem placeholder?_eq_some {freq : FreqTable} {p : Symbol} :
    placeholder? freq = some p ↔ freq[p] = 0 ∧ ∀ q, q < p → freq[q] ≠ 0 := by
  simp only [placeholder?, allSymbols, List.find?_eq_some_iff_getElem, decide_eq_true_eq, List.getElem_finRange,
    List.length_finRange]
  constructor
  · rintro ⟨h0, i, hi, rfl, hlt⟩
    refine ⟨h0, fun q hq => ?_⟩
    have := hlt q.val hq
    simpa using this
  · rintro ⟨h0, hlt⟩
    refine ⟨h0, p.val, p.isLt, rfl, fun j hj => ?_⟩
    have := hlt ⟨j, by omega⟩ hj
    simpa using this

/-! ## The smallest key -/

theorem keyLt_iff {mem : NodeMem} {i j : NodeIdx} :
    keyLt mem i j = true ↔ mem[i].weight < mem[j].weight ∨ (mem[i].weight = mem[j].weight ∧ i.val < j.val) := by
  simp [keyLt]

theorem keyLt_iff_keyBelow {mem : NodeMem} {i j : NodeIdx} : keyLt mem i j = true ↔ keyBelow mem i j := keyLt_iff

theorem keyLt_irrefl (mem : NodeMem) (i : NodeIdx) : ¬ keyLt mem i i = true := by simp [keyLt_iff]

theorem keyLt_trans {mem : NodeMem} {i j k : NodeIdx} (h₁ : keyLt mem i j = true) (h₂ : keyLt mem j k = true) :
    keyLt mem i k = true := by
  rw [keyLt_iff] at *
  omega

/-- R93: two different nodes never have equal keys. -/
theorem keyLt_total {mem : NodeMem} {i j : NodeIdx} (h : i ≠ j) : keyLt mem i j = true ∨ keyLt mem j i = true := by
  have : i.val ≠ j.val := fun he => h (Fin.ext he)
  rw [keyLt_iff, keyLt_iff]
  omega

theorem minKeyFrom_mem (mem : NodeMem) (i : NodeIdx) (q : List NodeIdx) : minKeyFrom mem i q ∈ i :: q := by
  induction q generalizing i with
  | nil => simp [minKeyFrom]
  | cons j q ih =>
    rw [minKeyFrom]
    have := ih (if keyLt mem j i then j else i)
    rw [List.mem_cons] at this ⊢
    rcases this with h | h
    · rw [h]
      split <;> simp
    · exact .inr (List.mem_cons_of_mem _ h)

/-- R93: no node of the queue has a smaller key. -/
theorem minKeyFrom_le (mem : NodeMem) (i : NodeIdx) (q : List NodeIdx) :
    ∀ j ∈ i :: q, ¬ keyLt mem j (minKeyFrom mem i q) = true := by
  induction q generalizing i with
  | nil =>
    intro j hj
    rw [List.mem_singleton] at hj
    exact hj ▸ keyLt_irrefl mem i
  | cons k q ih =>
    intro j hj hlt
    rw [minKeyFrom] at hlt
    have hq := ih (if keyLt mem k i then k else i)
    have hhead := hq _ List.mem_cons_self
    rw [List.mem_cons, List.mem_cons] at hj
    by_cases hki : keyLt mem k i = true
    · rw [if_pos hki] at hlt hhead hq
      rcases hj with rfl | rfl | hj
      · exact hhead (keyLt_trans hki hlt)
      · exact hhead hlt
      · exact hq j (List.mem_cons_of_mem _ hj) hlt
    · rw [if_neg hki] at hlt hhead hq
      rcases hj with rfl | rfl | hj
      · exact hhead hlt
      · by_cases heq : j = i
        · exact hhead (heq ▸ hlt)
        · rcases keyLt_total heq with h | h
          · exact hki h
          · exact hhead (keyLt_trans h hlt)
      · exact hq j (List.mem_cons_of_mem _ hj) hlt

/-- R90, R93: what `MinKey` and its removal leave. -/
theorem extractMin_spec {mem : NodeMem} {q q' : List NodeIdx} {a : NodeIdx} (h : extractMin mem q = some (a, q')) :
    a ∈ q ∧ q' = q.erase a ∧ q'.length + 1 = q.length ∧ ∀ j ∈ q, ¬ keyLt mem j a = true := by
  cases q with
  | nil => simp [extractMin] at h
  | cons i q =>
    simp only [extractMin, Option.some.injEq, Prod.mk.injEq] at h
    obtain ⟨rfl, rfl⟩ := h
    refine ⟨minKeyFrom_mem mem i q, rfl, ?_, minKeyFrom_le mem i q⟩
    rw [List.length_erase_of_mem (minKeyFrom_mem mem i q)]
    simp

theorem extractMin_of_ne_nil {mem : NodeMem} {q : List NodeIdx} (h : q ≠ []) :
    ∃ a, extractMin mem q = some (a, q.erase a) := by
  cases q with
  | nil => exact absurd rfl h
  | cons i q => exact ⟨_, rfl⟩

/-- R94: one merge, with at least two nodes queued and room for the new one. -/
theorem mergeLoop_succ {b : Builder} {q : List NodeIdx} (fuel : Nat) (hq : 1 < q.length) (hroom : b.count.val < 513) :
    ∃ a c, extractMin b.node q = some (a, q.erase a) ∧
      extractMin b.node (q.erase a) = some (c, (q.erase a).erase c) ∧
      mergeLoop (fuel + 1) b q =
        mergeLoop fuel
          { node := b.node.set b.count.val (mergedNode b.node a c), count := ⟨b.count.val + 1, by omega⟩ }
          (⟨b.count.val, hroom⟩ :: (q.erase a).erase c) := by
  obtain ⟨a, ha⟩ := extractMin_of_ne_nil (mem := b.node) (q := q) (by rintro rfl; simp at hq)
  have hlen := (extractMin_spec ha).2.2.1
  obtain ⟨c, hc⟩ := extractMin_of_ne_nil (mem := b.node) (q := q.erase a) (by
    intro h
    rw [h] at hlen
    simp at hlen
    omega)
  exact ⟨a, c, ha, hc, by rw [mergeLoop, ha]; dsimp only; rw [hc]; dsimp only; rw [newNode_of_room _ hroom]⟩

/-- R94: with one node queued the loop ends. -/
theorem mergeLoop_single (fuel : Nat) (b : Builder) (i : NodeIdx) : mergeLoop fuel b [i] = b := by
  cases fuel with
  | zero => rfl
  | succ fuel => simp [mergeLoop, extractMin, minKeyFrom]

end Sys2Proof.Machine
end

