-- ==== Sys2Proof/Tests/Slice0.lean ====
section
/-! SUPPORT. Tests on single steps, their expected results from spec/95_test_vectors.md (the vector is named) or written out from
the cited rule, and for every statement with hypotheses a state and operands that meet them. -/

namespace Sys2Proof.Tests

open Sys2Proof Sys2Proof.Machine

set_option Elab.async false

/-! ## Small states -/

/-- An answer that is a next state with a property. -/
def goesTo (r : Result) (p : State → Bool) : Bool :=
  match r with
  | .next t => p t
  | .fault _ => false
  | .refused _ => false

theorem goesTo_next {r : Result} {p : State → Bool} (h : goesTo r p = true) : ∃ t, r = .next t ∧ p t = true := by
  cases r with
  | next t => exact ⟨t, rfl, h⟩
  | fault _ => simp [goesTo] at h
  | refused _ => simp [goesTo] at h

/-- An answer that is a fault. -/
def faults (r : Result) : Bool :=
  match r with
  | .next _ => false
  | .fault _ => true
  | .refused _ => false

theorem faults_fault {r : Result} (h : faults r = true) : ∃ f, r = .fault f := by
  cases r with
  | next _ => simp [faults] at h
  | fault f => exact ⟨f, rfl⟩
  | refused _ => simp [faults] at h

/-- Equality of states, decided through the lists of their tables. -/
def same (t u : State) : Bool :=
  decide (t.freq.toList = u.freq.toList) && decide (t.node.toList = u.node.toList) &&
    decide (t.code.toList = u.code.toList) &&
    decide ((t.params, t.root, t.nodeCount, t.treeValid, t.codesValid, t.decState, t.cur) =
      (u.params, u.root, u.nodeCount, u.treeValid, u.codesValid, u.decState, u.cur)) &&
    decide ((t.err, t.errCmd, t.hdrBits, t.encBits, t.decSyms) = (u.err, u.errCmd, u.hdrBits, u.encBits, u.decSyms)) &&
    decide ((t.src, t.snk, t.pending, t.reply) = (u.src, u.snk, u.pending, u.reply))

theorem eq_of_same {t u : State} (h : same t u = true) : t = u := by
  simp only [same, Bool.and_eq_true, decide_eq_true_eq, Prod.mk.injEq, Vector.toList_inj] at h
  cases t
  cases u
  simp_all

/-- An answer that is one given next state. -/
theorem answers {r : Result} {u : State} (h : goesTo r (fun t => same t u) = true) : r = .next u := by
  obtain ⟨t, rfl, ht⟩ := goesTo_next h
  rw [eq_of_same ht]

/-- Reset, with parameters of known value. -/
def base : State := { State.reset with params := { magic := 0x12345678, countW := 32 } }

/-- A state with both streams bound. -/
def bound (s : State) (src snk : List Bool) : State :=
  { s with src := some { bits := src, pos := 0 }, snk := some { bits := snk, closed := false } }

/-- A state whose sink is closed. -/
def closed (s : State) : State := { s with snk := some { bits := [], closed := true } }

def leafEntry (a : Symbol) (w : Nat) : Node := { kind := .leaf, sym := a, left := 0, right := 0, weight := w }
def innerEntry (l r : NodeIdx) (w : Nat) : Node := { kind := .internal, sym := 0, left := l, right := r, weight := w }
def entry (n : Nat) (bits : BitVec 256) : CodeEntry := { valid := true, len := BitVec.ofNat 9 n, bits := bits }

/-- "AAB". -/
def aab : List Bool := bitsOf 24 0x414142

/-- The header of V-SER-04. -/
def aabHeader : List Bool := bitsOf 32 0x48290B00

/-- The body of V-ENC-01. -/
def aabBody : List Bool := [false, false, true, false, true, true]

/-- The nodes of V-BLD-04. -/
def aabNodes : NodeMem :=
  ((((emptyNodes.set 0 (leafEntry 0x41 2)).set 1 (leafEntry 0x42 1)).set 2 (leafEntry 256 1)).set 3 (innerEntry 1 2 2)).set 4
    (innerEntry 0 3 4)

/-- The tree of V-BLD-04. -/
def aabTree : CodeTree := .node 4 (.leaf 0 0x41) (.node 3 (.leaf 1 0x42) (.leaf 2 256))

/-- The codes of V-GEN-04. -/
def aabCodes : CodeTable := ((emptyCodes.set 0x41 (entry 1 0b0)).set 0x42 (entry 2 0b10)).set 256 (entry 2 0b11)

/-- The counts of V-FRQ-02. -/
def aabFreq : FreqTable := (emptyFreq.set 0x41 2).set 0x42 1

/-- The state after BUILD_TREE on "AAB", then GEN_CODES. -/
def built : State :=
  { base with
    freq := aabFreq, node := aabNodes, root := 4, nodeCount := 5, cur := 4, treeValid := true, code := aabCodes
    codesValid := true }

/-- The same with "AAB" as the source and an empty open sink. -/
def ready : State := bound built aab []

/-- The same with its body as the source. -/
def coded : State := bound built aabBody []

theorem aab_isTree : IsTree aabNodes 4 5 aabTree where
  held := by decide +kernel
  root_eq := rfl
  root_internal := rfl
  indices_nodup := by decide +kernel
  indices_iff := by decide +kernel
  depth_le := by decide +kernel
  leaves_nodup := by decide +kernel
  sentinel_mem := by decide +kernel
  rest_zero := by
    have h : aabNodes.toList.drop 5 = List.replicate 508 Node.zero := by decide +kernel
    intro i hi
    have := congrArg (·[i.val - 5]?) h
    simp only [List.getElem?_drop, List.getElem?_replicate, Vector.getElem?_toList] at this
    rw [show 5 + (i.val - 5) = i.val by omega, if_pos (by omega)] at this
    simpa using this

/-! ## Words -/

/-- The smoke test of WellFormed: a symbol above 256 is refused (R73). -/
theorem test_ill_formed_symbol_refused : (Instr.encodeSym 257).wf = false ∧ (Instr.encodeSym 511).wf = false := by decide

theorem test_well_formed_boundary : (Instr.encodeSym 256).wf = true ∧ (Instr.encodeSym 0).wf = true ∧ Instr.nop.wf = true := by
  decide

/-- R70's words, bit by bit: `OP` 15:12, `RSV` 11:9, `ARG` 8:0. -/
theorem test_decode_words_first_half :
    decode 0b0000000000000000 = .command .nop ∧ decode 0b0001000000000000 = .command .clear ∧
    decode 0b0010000000000000 = .command .freqScan ∧ decode 0b0011000000000000 = .command .buildTree ∧
    decode 0b0100000000000000 = .command .genCodes ∧ decode 0b0101000000000000 = .command .writeMagic ∧
    decode 0b0110000000000000 = .command .writeTree := by decide

theorem test_decode_words_second_half :
    decode 0b0111000001000001 = .command (.encodeSym 65) ∧ decode 0b1000000000000000 = .command .encodeScan ∧
    decode 0b1001000000000000 = .command .closeOut ∧ decode 0b1010000000000000 = .command .readMagic ∧
    decode 0b1011000000000000 = .command .readTree ∧ decode 0b1100000000000000 = .command .decodeBit ∧
    decode 0b1101000000000000 = .command .decodeRun := by decide

/-- V-CMD-06 to V-CMD-14. -/
theorem test_decode_illegal :
    decode 0x0001 = .illegal .operandNotZero ∧ decode 0x0200 = .illegal .reservedField ∧
    decode 0x1001 = .illegal .operandNotZero ∧ decode 0x7101 = .illegal .symbolOutOfRange ∧
    decode 0x71FF = .illegal .symbolOutOfRange ∧ decode 0x7E00 = .illegal .reservedField ∧
    decode 0x9200 = .illegal .reservedField ∧ decode 0xE000 = .illegal .reservedOpcode ∧
    decode 0xF123 = .illegal .reservedOpcode := by decide

theorem test_table_word : decodeTableWord 16 0x7100 = some (.encodeSym 256) ∧ decodeTableWord 16 0x7101 = none := by decide

/-- R79's own examples, and a comment. -/
theorem test_assembler_examples :
    assembleLine "ENCODE_SYM 'A'".toList = some [0x7041] ∧ assembleLine "ENCODE_SYM EOS ; end".toList = some [0x7100] := by
  decide +kernel

/-- R79 to R81 on two lines. -/
theorem test_assembler_lines :
    assemble "FREQ_SCAN\nDECOMPRESS".toList = some [0x2000, 0xA000, 0xB000, 0xD000, 0x9000] := by decide +kernel

/-! ## One command each -/

/-- V-CTL-01. -/
theorem test_nop : exec .nop ready = .next ready := answers (by decide +kernel)

/-- V-CTL-03. -/
theorem test_clear :
    goesTo (exec .clear { closed built with err := 0x0F, errCmd := 0x9000 }) (fun t =>
      statusWord t == 0x0010 && t.errCmd == 0 && t.nodeCount == 0 && t.root == 0 && t.freq == emptyFreq &&
        t.snk == (closed built).snk) = true := by decide +kernel

/-- V-FRQ-03. -/
theorem test_freq_scan :
    exec .freqScan (bound base (aab ++ [true, false, true]) []) =
      .next { bound base (aab ++ [true, false, true]) [] with
        freq := aabFreq, src := some { bits := aab ++ [true, false, true], pos := 24 } } := answers (by decide +kernel)

/-- V-FRQ-05. -/
theorem test_freq_scan_overflow :
    goesTo (exec .freqScan { bound base (bitsOf 32 0x41414141) [] with params := { magic := 0, countW := 2 } }) (fun t =>
      t.err == 0x08 && t.errCmd == 0x2000 && t.freq[(0x41 : Symbol)] == 3 && t.src.map (·.pos) == some 32) = true := by
  decide +kernel

/-- V-BLD-04. -/
theorem test_build_tree :
    exec .buildTree { base with freq := aabFreq } =
      .next { base with freq := aabFreq, node := aabNodes, nodeCount := 5, root := 4, cur := 4, treeValid := true } :=
  answers (by decide +kernel)

/-- V-BLD-01. -/
theorem test_build_tree_placeholder :
    goesTo (exec .buildTree base) (fun t =>
      t.nodeCount == 3 && t.root == 2 &&
        t.node.toList.take 4 == [leafEntry 256 1, leafEntry 0 0, innerEntry 1 0 1, Node.zero]) = true := by
  decide +kernel

/-- V-GEN-04. -/
theorem test_gen_codes :
    exec .genCodes { built with code := emptyCodes, codesValid := false } = .next built := answers (by decide +kernel)

/-- V-GEN-11. -/
theorem test_gen_codes_no_tree :
    goesTo (exec .genCodes base) (fun t => statusWord t == 0x0002 && t.code == emptyCodes) = true := by decide +kernel

/-- R102, on a magic number whose bits tell its ends apart. -/
theorem test_write_magic :
    exec .writeMagic (bound base [] [true]) =
      .next { bound base [] [true] with snk := some { bits := true :: bitsOf 32 0x12345678, closed := false } } :=
  answers (by decide +kernel)

/-- V-ENC-05. -/
theorem test_write_magic_closed :
    goesTo (exec .writeMagic (closed base)) (fun t => statusWord t == 0x0F10 && t.errCmd == 0x5000) = true := by
  decide +kernel

/-- V-SER-04. -/
theorem test_write_tree :
    exec .writeTree ready = .next { ready with snk := some { bits := aabHeader, closed := false }, hdrBits := 32 } :=
  answers (by decide +kernel)

/-- V-ENC-08. -/
theorem test_write_tree_no_tree :
    goesTo (exec .writeTree (bound base [] [])) (fun t => statusWord t == 0x0500 && t.errCmd == 0x6000) = true := by
  decide +kernel

/-- V-ENC-02, its first word. -/
theorem test_encode_sym :
    exec (.encodeSym 0x42) ready =
      .next { ready with snk := some { bits := [true, false], closed := false }, encBits := 2 } := answers (by decide +kernel)

/-- V-GEN-11, its second word. -/
theorem test_encode_sym_no_code :
    goesTo (exec (.encodeSym 0x41) { bound base [] [] with codesValid := true }) (fun t =>
      statusWord t == 0x0702 && t.errCmd == 0x7041) = true := by decide +kernel

/-- V-ENC-01. -/
theorem test_encode_scan :
    exec .encodeScan ready = .next { ready with
      snk := some { bits := aabBody, closed := false }, encBits := 6, src := some { bits := aab, pos := 24 } } :=
  answers (by decide +kernel)

/-- V-ENC-09, its last word. -/
theorem test_encode_scan_no_code :
    goesTo (exec .encodeScan (bound built (bitsOf 24 0x424143) [])) (fun t =>
      statusWord t == 0x0703 && t.snk == some { bits := [true, false, false], closed := false } && t.encBits == 3 &&
        t.src.map (·.pos) == some 24) = true := by decide +kernel

/-- V-ENC-03. -/
theorem test_close_out :
    exec .closeOut (bound built [] (bitsOf 5 0b10011)) =
      .next { bound built [] [] with snk := some { bits := bitsOf 8 0b10011000, closed := true } } := answers (by decide +kernel)

/-- V-ENC-04. -/
theorem test_close_out_twice :
    goesTo (exec .closeOut (closed built)) (fun t => statusWord t == 0x0F13 && t.errCmd == 0x9000) = true := by
  decide +kernel

/-- R104. -/
theorem test_read_magic :
    exec .readMagic (bound base (bitsOf 32 0x12345678 ++ aabHeader) []) =
      .next { bound base [] [] with src := some { bits := bitsOf 32 0x12345678 ++ aabHeader, pos := 32 } } :=
  answers (by decide +kernel)

/-- V-ERR-02. -/
theorem test_read_magic_short :
    goesTo (exec .readMagic (bound base [true, false, true] [])) (fun t =>
      t.err == 0x01 && t.errCmd == 0xA000 && t.src.map (·.pos) == some 0) = true := by decide +kernel

/-- V-SER-08. -/
theorem test_read_tree :
    goesTo (exec .readTree (bound built (aabHeader ++ aabBody) [])) (fun t =>
      statusWord t == 0x0001 && t.root == 0 && t.cur == 0 && t.nodeCount == 5 && t.hdrBits == 32 &&
        t.src.map (·.pos) == some 32 &&
        t.node.toList.take 6 ==
          [innerEntry 1 2 0, leafEntry 65 0, innerEntry 3 4 0, leafEntry 66 0, leafEntry 256 0, Node.zero]) = true := by decide +kernel

/-- V-SER-17: the leaf at depth 256 is accepted, and its sibling's tag is missing. -/
theorem test_read_tree_deepest :
    goesTo (exec .readTree (bound base (List.replicate 256 false ++ true :: bitsOf 9 65) [])) (fun t =>
      statusWord t == 0x0200 && t.nodeCount == 258 && t.hdrBits == 266 && t.src.map (·.pos) == some 266) = true := by
  decide +kernel

/-- V-DEC-01, a bit 0 at the root: 'A' is written. -/
theorem test_decode_bit :
    exec .decodeBit coded = .next { coded with
      snk := some { bits := bitsOf 8 0x41, closed := false }, decSyms := 1
      src := some { bits := aabBody, pos := 1 } } := answers (by decide +kernel)

/-- V-DEC-01, its last two steps: a bit 1 at the inner node is the sentinel. -/
theorem test_decode_bit_sentinel :
    goesTo (exec .decodeBit { bound built [true] [] with decState := .atNode, cur := 3 }) (fun t =>
      t.decState == .done && t.cur == 2 && t.decSyms == 0 && t.snk == some { bits := [], closed := false }) = true := by
  decide +kernel

/-- V-DEC-02: the padding is not read. -/
theorem test_decode_run :
    exec .decodeRun (bound built (aabBody ++ [false, false]) []) = .next { bound built [] [] with
      src := some { bits := aabBody ++ [false, false], pos := 6 }, snk := some { bits := aab, closed := false }
      decState := .done, cur := 2, decSyms := 3 } := answers (by decide +kernel)

/-- V-DEC-15: the body one bit short. -/
theorem test_decode_run_truncated :
    goesTo (exec .decodeRun (bound { built with codesValid := false } (aabBody.take 5) [])) (fun t =>
      statusWord t == 0x0305 && t.errCmd == 0xD000 && t.decSyms == 3 && t.snk == some { bits := aab, closed := false } &&
        t.src.map (·.pos) == some 5) = true := by decide +kernel

/-! ## Steps and the host's port -/

/-- V-CMD-03 as a step from the host's queue. -/
theorem test_step_issues :
    goesTo (step { ready with pending := [.issue 0x7041, .bindSink] }) (fun t =>
      t.pending == [.bindSink] && t.snk == some { bits := [false], closed := false }) = true := by decide +kernel

/-- V-ERR-05, its illegal word. -/
theorem test_step_illegal_word :
    step { ready with pending := [.issue 0x4001] } = .next { ready with err := 0x04, errCmd := 0x4001 } := answers (by decide +kernel)

/-- Every command's word, placed to run next after reset, is run. -/
theorem test_with_fetch_word_runs :
    (List.range 14).all (fun k => goesTo (step (State.reset.withFetchWord 16 (4096 * k))) fun t => t.pending == []) = true := by
  decide +kernel

/-- R26, R29: V-GEN-04's entry `(1, 2, 0b10)` and program P1's `STATUS`. -/
theorem test_host_read :
    hostRead built 3 0x42 = 1 + 2 * 2 + 1024 * 2 ∧ hostRead (closed built) 0 0 = 0x0013 ∧ hostRead built 0 9 = 32 := by
  decide +kernel

/-- R144: the operations of a compression and of a decompression, the read of `ERR` last. -/
theorem test_host_calls :
    compressCall [0x41] =
      [.powerOn, .bindSource (bitsOf 8 0x41), .bindSink, .issue 0x2000, .issue 0x3000, .issue 0x4000, .issue 0x5000,
        .issue 0x6000, .issue 0x8000, .issue 0x9000, .hostRead 0 0] ∧
    decompressCall [true] =
      [.powerOn, .bindSource [true], .bindSink, .issue 0xA000, .issue 0xB000, .issue 0xD000, .issue 0x9000, .hostRead 0 0] := by
  decide

/-- R24: node 3 of V-BLD-04, packed. -/
theorem test_host_read_node : hostRead built 2 3 = 2 ^ 10 * 1 + 2 ^ 20 * 2 + 2 ^ 30 * 2 := by decide +kernel

/-! ## The hypotheses of the statements can be met

One theorem for each statement of Obligations.lean that has hypotheses, named after it; a clause of it per line. -/

/-- A queue with one operation. -/
def queued (op : HostOp) (s : State) : State := { s with pending := [op] }

/-- A right caterpillar: each node has a leaf on its left (V-SER-11). -/
def caterpillar : List Symbol → CodeTree
  | [] => .leaf 0 0
  | [a] => .leaf 0 a
  | a :: b :: rest => .node 0 (.leaf 0 a) (caterpillar (b :: rest))

/-- Symbols `a` to `a + n - 1`. -/
def symbolsFrom (a n : Nat) : List Symbol := (List.range n).map fun k => byteSymbol (a + k)

/-- A bare two-leaf tree over 'A' and the sentinel, as a header's tree. -/
def pair (a b : Symbol) : CodeTree := .node 0 (.leaf 0 a) (.leaf 0 b)

theorem aab_treeOk : TreeOk ready := ⟨aabTree, aab_isTree⟩

theorem ready_inv : Inv ready where
  params_wf := by decide
  freq_sentinel := by decide +kernel
  freq_lt := by
    have h : ∀ n ∈ aabFreq.toList, n < 2 ^ 32 := by decide +kernel
    intro a
    exact h _ (by simp [ready, bound, built])
  weight_lt := by
    have h : ∀ n ∈ aabNodes.toList, n.weight < 2 ^ 41 := by decide +kernel
    intro i
    exact h _ (by simp [ready, bound, built])
  tree_iff := ⟨fun _ => aab_treeOk, fun _ => rfl⟩
  codes_tree := by
    intro _ _
    refine ⟨aabTree, aab_isTree, Vector.toList_inj.1 ?_⟩
    have h : aabCodes.toList = (codeTableOf aabTree).toList := by decide +kernel
    exact h
  codes_none := fun h => absurd ⟨rfl, rfl⟩ h
  decoder_ok := fun _ => by decide +kernel
  errCmd_zero := fun _ => rfl
  err_le := by decide
  pos_le := by
    rintro r hr
    cases hr
    decide
  closed_whole := by
    rintro d hd hc
    cases hd
    exact absurd hc (by decide)

theorem witness_DecodeOfEncodeIsTheCommand : (Instr.encodeSym 256).wf = true ∧ Instr.decodeRun.wf = true := by decide

theorem witness_LegalWordIsTheWordOfItsCommand : decode 0x7100 = .command (.encodeSym 256) := by decide

theorem witness_StepExecutesTheDecodedCommand :
    (queued (.issue 0x3000) ready).pending = .issue 0x3000 :: [] ∧ decode 0x3000 = .command .buildTree := by decide

theorem witness_IllegalWordOnlyEntersTheError :
    decode 0x1001 = .illegal .operandNotZero ∧ ready.err = 0 ∧ ({ ready with err := 0x10 } : State).err ≠ 0 := by decide

theorem witness_StickyErrorIgnoresEveryWordButClear :
    ({ ready with err := 0x10 } : State).err ≠ 0 ∧ Instr.nop ≠ .clear ∧ ∀ w ∈ ([0x1001, 0x0FFF] : List Word), w ≠ 0x1000 :=
  ⟨by decide, by decide, by simp⟩

theorem witness_IdleCoreKeepsItsState : ready.pending = [] := rfl

theorem witness_HostOperationsHaveTheirEffects :
    (queued (.issue 0xF123) ready).pending = .issue 0xF123 :: [] ∧
    (queued (.bindSource [true]) ready).pending = .bindSource [true] :: [] ∧
    (queued .bindSink ready).pending = .bindSink :: [] ∧
    (queued (.hostRead 3 256) ready).pending = .hostRead 3 256 :: [] ∧
    (queued .takeSink ready).pending = .takeSink :: [] ∧
      (queued .takeSink ready).snk = some { bits := [], closed := false } := by decide

theorem witness_AssemblerReadsTheWrittenForm :
    Instr.decodeRun ∈ operandFreeCommands ∧ 256 ≤ 256 ∧ (';' : Char).toNat < 128 := by decide

theorem witness_ResetValues :
    exec .clear ready = .next (clearCore ready) ∧ hostStep .powerOn ready = .next (clearCore ready) := ⟨rfl, rfl⟩

theorem witness_RegistersReadTheirResetValues : 0 < 8 ∧ 7 < 8 ∧ 0x09 < 0x0A := by decide

/-- First clause: three bytes fill the count of a core with `COUNT_W = 2`. -/
theorem witness_FreqScanCountsBytesOrOverflows :
    ∃ (s : State) (r : BitSource), s.err = 0 ∧ s.src = some r ∧ ∀ b, (wholeBytes r.bits).count b < 2 ^ s.params.countW := by
  refine ⟨{ bound base (bitsOf 24 0x414141) [] with params := { magic := 0, countW := 2 } }, _, rfl, rfl, fun b => ?_⟩
  exact Nat.lt_of_le_of_lt List.count_le_length (by decide)

/-- Second clause: the fourth byte overflows. -/
theorem witness_FreqScanCountsBytesOrOverflows_second :
    ∃ (s : State) (r : BitSource) (before : List Nat) (b : Nat) (after : List Nat), s.err = 0 ∧ s.src = some r ∧
      wholeBytes r.bits = before ++ b :: after ∧ (∀ c, before.count c < 2 ^ s.params.countW) ∧
      before.count b = 2 ^ s.params.countW - 1 := by
  refine ⟨{ bound base (bitsOf 32 0x41414141) [] with params := { magic := 0, countW := 2 } }, _, [0x41, 0x41, 0x41], 0x41, [],
    rfl, rfl, by decide, fun c => ?_, by decide⟩
  exact Nat.lt_of_le_of_lt List.count_le_length (by decide)

theorem witness_BuildTreeInstallsATree : ready.err = 0 ∧ ready.freq[sentinel] = 1 := by decide +kernel

theorem witness_BuildTreeCreatesLeavesInSymbolOrder :
    ready.err = 0 ∧ ready.freq[sentinel] = 1 ∧ (countedSymbols ready.freq)[(2 : NodeIdx).val]? = some 256 := by decide +kernel

theorem witness_BuildTreeAddsThePlaceholder :
    ({ base with freq := emptyFreq } : State).err = 0 ∧ 0 < emptyFreq[sentinel] ∧
      ∀ b : Symbol, b ≠ sentinel → emptyFreq[b] = 0 := by
  refine ⟨rfl, by decide +kernel, fun b hb => ?_⟩
  have : b.val ≠ 256 := fun h => hb (Fin.ext h)
  simp [this]

theorem witness_BuildTreeMergesTheTwoSmallestKeys :
    ready.err = 0 ∧ ready.freq[sentinel] = 1 ∧ (4 : NodeIdx).val < ready.nodeCount.val ∧
      ready.node[(4 : NodeIdx)].kind = .internal := by decide +kernel

theorem witness_BuildTreeCodeIsOptimal :
    ready.err = 0 ∧ ready.freq[sentinel] = 1 ∧ (CodeTree.node 0 (.leaf 0 256) (pair 0x41 0x42)).leaves.Perm aabTree.leaves := by
  decide +kernel

theorem witness_BuildTreeWithoutSymbolsRaisesNoSymbols :
    ({ base with freq := Vector.replicate 257 0 } : State).err = 0 ∧
      ∀ a : Symbol, ({ base with freq := Vector.replicate 257 0 } : State).freq[a] = 0 :=
  ⟨rfl, fun a => by simp⟩

theorem witness_GenCodesAssignsEveryPath :
    ready.err = 0 ∧ ready.treeValid = true ∧ IsTree ready.node ready.root ready.nodeCount aabTree ∧
      base.err = 0 ∧ base.treeValid = false := ⟨rfl, rfl, aab_isTree, rfl, rfl⟩

theorem witness_GeneratedCodesArePrefixFree :
    ready.err = 0 ∧ ready.treeValid = true ∧ IsTree ready.node ready.root ready.nodeCount aabTree := ⟨rfl, rfl, aab_isTree⟩

theorem witness_GeneratedCodesFitTheirFields :
    ready.err = 0 ∧ ready.treeValid = true ∧ IsTree ready.node ready.root ready.nodeCount aabTree := ⟨rfl, rfl, aab_isTree⟩

theorem witness_WriteMagicAppendsTheMagicNumber :
    (ready.err = 0 ∧ ready.snk = some { bits := [], closed := false }) ∧
      (closed base).err = 0 ∧ (closed base).snk = some { bits := [], closed := true } := by decide

theorem witness_WriteTreeAppendsTheHeader :
    (ready.err = 0 ∧ ready.treeValid = true ∧ IsTree ready.node ready.root ready.nodeCount aabTree ∧
      ready.snk = some { bits := [], closed := false }) ∧
    (base.err = 0 ∧ base.treeValid = false) ∧
    (closed built).err = 0 ∧ (closed built).treeValid = true ∧ (closed built).snk = some { bits := [], closed := true } :=
  ⟨⟨rfl, rfl, aab_isTree, rfl⟩, ⟨rfl, rfl⟩, rfl, rfl, rfl⟩

/-- All clauses at a source of exactly 32 bits, and one of 31. -/
theorem witness_ReadMagicChecksTheMagicNumber :
    (base.err = 0 ∧ (bound base (bitsOf 32 0x12345678) []).src = some { bits := bitsOf 32 0x12345678, pos := 0 } ∧
      0 + 32 ≤ (bitsOf 32 0x12345678).length ∧
      ((bitsOf 32 0x12345678).drop 0).take 32 = (List.range 32).map (fun k => base.params.magic.getMsbD k)) ∧
    ((bitsOf 32 0x12345679).drop 0).take 32 ≠ (List.range 32).map (fun k => base.params.magic.getMsbD k) ∧
    (bitsOf 31 0).length < 0 + 32 := by decide +kernel

theorem witness_ReadTreeRebuildsTheTreeOfAHeader :
    (bound base (aabHeader ++ aabBody) []).err = 0 ∧ (aabHeader ++ aabBody).drop 0 = aabTree.header ++ aabBody ∧
      aabTree.isInternal = true ∧ aabTree.depth ≤ 256 ∧ aabTree.leaves.Nodup ∧ sentinel ∈ aabTree.leaves := by decide +kernel

/-- The deepest tree R25 admits, too (V-SER-20). -/
theorem witness_ReadTreeRebuildsTheTreeOfAHeader_deepest :
    (caterpillar (symbolsFrom 0 256 ++ [256])).depth = 256 ∧ (caterpillar (symbolsFrom 0 256 ++ [256])).leaves.Nodup ∧
      sentinel ∈ (caterpillar (symbolsFrom 0 256 ++ [256])).leaves := by decide +kernel

theorem witness_ReadTreeAcceptsOnlyHeadersOfTrees :
    (bound base aabHeader []).err = 0 ∧ (bound base aabHeader []).src = some { bits := aabHeader, pos := 0 } ∧
      ∃ t, exec .readTree (bound base aabHeader []) = .next t ∧ decide (t.err = 0) = true :=
  ⟨rfl, rfl, goesTo_next (by decide +kernel)⟩

theorem witness_FailedReadTreeLeavesNoTree :
    (bound base [] []).err = 0 ∧ (bound base [] []).src = some { bits := [], pos := 0 } ∧
      ∃ t, exec .readTree (bound base [] []) = .next t ∧ decide (t.err ≠ 0) = true :=
  ⟨rfl, rfl, goesTo_next (by decide +kernel)⟩

/-- The sources of V-SER-19, V-SER-16, V-SER-13's symbol (at both ends of its range), V-SER-14, V-SER-12. -/
theorem witness_ReadTreeRejectsMalformedHeaders :
    (bound base [] []).err = 0 ∧ ([] : List Bool).drop 0 = [] ∧
    (List.replicate 257 false).drop 0 = List.replicate 257 false ++ [] ∧
    (256 < 257 ∧ 257 < 512 ∧ (true :: bitsOf 9 257).drop 0 = true :: (bitsOf 9 257 ++ [])) ∧
    (256 < 511 ∧ 511 < 512 ∧ (true :: bitsOf 9 511).drop 0 = true :: (bitsOf 9 511 ++ [])) ∧
    (false :: true :: (bitsOf 9 65 ++ true :: bitsOf 9 65)).drop 0 =
      false :: true :: (bitsOf 9 (65 : Symbol).val ++ true :: (bitsOf 9 (65 : Symbol).val ++ [])) ∧
    (true :: bitsOf 9 256).drop 0 = true :: (bitsOf 9 sentinel.val ++ []) := by decide +kernel

/-- V-SER-15. -/
theorem witness_ReadTreeRejectsMalformedHeaders_noSentinel :
    (false :: true :: (bitsOf 9 65 ++ true :: bitsOf 9 66)).drop 0 = (pair 65 66).header ++ [] ∧
      (pair 65 66).isInternal = true ∧ (pair 65 66).depth ≤ 256 ∧ (pair 65 66).leaves.Nodup ∧
      sentinel ∉ (pair 65 66).leaves := by decide +kernel

/-- V-SER-11's two subtrees. -/
theorem witness_ReadTreeRejectsMalformedHeaders_overflow :
    ∃ (s : State) (r : BitSource) (rest : List Bool) (T₁ T₂ : CodeTree), s.err = 0 ∧ s.src = some r ∧
      r.bits.drop r.pos = false :: (T₁.header ++ false :: (T₂.header ++ false :: rest)) ∧
      (T₁.leaves ++ T₂.leaves).Nodup ∧ (T₁.leaves ++ T₂.leaves).length = 256 ∧ T₁.depth < 256 ∧ T₂.depth < 255 :=
  ⟨bound base (false :: ((caterpillar (symbolsFrom 0 200)).header ++
      false :: ((caterpillar (symbolsFrom 200 56)).header ++ false :: true :: bitsOf 9 256))) [],
    _, _, caterpillar (symbolsFrom 0 200), caterpillar (symbolsFrom 200 56), rfl, rfl, rfl, by decide +kernel,
    by decide +kernel, by decide +kernel, by decide +kernel⟩

theorem witness_EncodeSymAppendsTheCode :
    (ready.err = 0 ∧ (256 : BitVec 9).toNat = sentinel.val ∧ ready.codesValid = true ∧
      ready.snk = some { bits := [], closed := false } ∧ ready.code[sentinel].valid = true ∧
      (67 : BitVec 9).toNat = (67 : Symbol).val ∧ ready.code[(67 : Symbol)].valid = false) ∧
    ((256 : BitVec 9).toNat ≤ 256 ∧ base.err = 0 ∧ base.codesValid = false) ∧
    ((256 : BitVec 9).toNat ≤ 256 ∧ (closed built).err = 0 ∧ (closed built).codesValid = true ∧
      (closed built).snk = some { bits := [], closed := true }) ∧
    256 < (257 : BitVec 9).toNat := by decide +kernel

theorem witness_EncodeScanAppendsTheBody :
    ready.err = 0 ∧ ready.codesValid = true ∧ ready.src = some { bits := aab, pos := 0 } ∧
      ready.snk = some { bits := [], closed := false } ∧
      (∀ b, b ∈ wholeBytes aab → ready.code[byteSymbol b].valid = true) ∧ ready.code[sentinel].valid = true := by
  decide +kernel

/-- V-ENC-07, V-ENC-04, V-ENC-09; last, a table without the sentinel's code on an empty source. -/
theorem witness_EncodeScanErrors :
    (base.err = 0 ∧ base.codesValid = false) ∧
    ((closed built).codesValid = true ∧ (closed built).snk = some { bits := [], closed := true }) ∧
    ((bound built (bitsOf 24 0x424143) []).codesValid = true ∧
      wholeBytes (bitsOf 24 0x424143) = [0x42, 0x41] ++ 0x43 :: [] ∧
      (∀ c, c ∈ [0x42, 0x41] → built.code[byteSymbol c].valid = true) ∧ built.code[byteSymbol 0x43].valid = false) ∧
    ((bound { base with codesValid := true } [] []).codesValid = true ∧ (∀ c, c ∈ wholeBytes [] → False) ∧
      (bound { base with codesValid := true } [] []).code[sentinel].valid = false) := by
  refine ⟨by decide, by decide, by decide +kernel, rfl, fun c hc => ?_, by decide +kernel⟩
  simp [wholeBytes] at hc

theorem witness_CloseOutPadsAndClosesTheSink :
    (ready.err = 0 ∧ ready.snk = some { bits := [], closed := false }) ∧
      (closed base).err = 0 ∧ (closed base).snk = some { bits := [], closed := true } := by decide

theorem witness_ClosedSinkStopsEveryWrite :
    (closed built).err = 0 ∧ (closed built).snk = some { bits := [], closed := true } ∧ (closed built).treeValid = true ∧
      (256 : BitVec 9).toNat ≤ 256 ∧ (closed built).codesValid = true ∧ (closed built).decState ≠ .done := by decide

/-- At the root a bit 0 leads to a leaf and a bit 1 to an inner node; at that node a bit 1 leads to the sentinel; no bit left. -/
theorem witness_DecodeBitMakesOneTransition :
    (coded.err = 0 ∧ coded.treeValid = true ∧ coded.decState ≠ .done ∧ coded.src = some { bits := aabBody, pos := 0 } ∧
      coded.snk = some { bits := [], closed := false } ∧
      aabBody.drop 0 = false :: [false, true, false, true, true] ∧ coded.node[coded.cur].left = 0 ∧
      coded.node[(0 : NodeIdx)].kind = .leaf ∧ coded.node[(0 : NodeIdx)].sym ≠ sentinel) ∧
    (coded.node[coded.cur].right = 3 ∧ coded.node[(3 : NodeIdx)].kind = .internal) ∧
    ({ coded with cur := 3 } : State).node[({ coded with cur := 3 } : State).cur].right = 2 ∧
      coded.node[(2 : NodeIdx)].kind = .leaf ∧ coded.node[(2 : NodeIdx)].sym = sentinel ∧
      aabBody.drop 6 = [] := by decide +kernel

theorem witness_DecodeChecksInOrder :
    (base.err = 0 ∧ base.treeValid = false) ∧
    (({ built with decState := .done } : State).treeValid = true ∧ ({ built with decState := .done } : State).decState = .done) ∧
    ((closed built).treeValid = true ∧ (closed built).decState ≠ .done ∧
      (closed built).snk = some { bits := [], closed := true }) ∧
    (bound built [] []).treeValid = true ∧ (bound built [] []).decState ≠ .done ∧
      (bound built [] []).snk = some { bits := [], closed := false } ∧
      (bound built [] []).src = some { bits := [], pos := 0 } ∧ ([] : List Bool).length ≤ 0 := by decide

theorem witness_DecodeRunRepeatsDecodeBit :
    coded.err = 0 ∧ coded.treeValid = true ∧ coded.src = some { bits := aabBody, pos := 0 } ∧
      coded.snk = some { bits := [], closed := false } := by decide

theorem witness_DecodeRunDecodesABody :
    coded.err = 0 ∧ coded.treeValid = true ∧ IsTree coded.node coded.root coded.nodeCount aabTree ∧ coded.decState = .atRoot ∧
      coded.cur = coded.root ∧ coded.src = some { bits := aabBody, pos := 0 } ∧
      coded.snk = some { bits := [], closed := false } ∧
      aabBody.drop 0 = pathBody aabTree [0x41, 0x41, 0x42] ++ [] ∧
      ∀ b ∈ ([0x41, 0x41, 0x42] : List (BitVec 8)), byteSymbol b.toNat ∈ aabTree.leaves :=
  ⟨rfl, rfl, aab_isTree, rfl, rfl, rfl, rfl, by decide +kernel, by decide +kernel⟩

/-- V-DEC-15: one bit is missing. -/
theorem witness_TruncatedBodyIsRejected :
    IsTree built.node built.root built.nodeCount aabTree ∧ (bound built (aabBody.take 5) []).err = 0 ∧
      built.treeValid = true ∧ built.decState = .atRoot ∧ built.cur = built.root ∧
      (aabBody.take 5).drop 0 ++ [true] = pathBody aabTree [0x41, 0x41, 0x42] ∧ [true] ≠ [] ∧
      ∀ b ∈ ([0x41, 0x41, 0x42] : List (BitVec 8)), byteSymbol b.toNat ∈ aabTree.leaves :=
  ⟨aab_isTree, rfl, rfl, rfl, rfl, by decide +kernel, by simp, by decide +kernel⟩

/-- The bits read end exactly where the shared part does. -/
theorem witness_DecodeRunIgnoresWhatFollowsTheSentinel :
    coded.err = 0 ∧ 6 ≤ aabBody.length ∧
      ∃ t, exec .decodeRun { coded with src := some { bits := aabBody ++ [false, false], pos := 0 } } = .next t ∧
        decide (t.err = 0 ∧ t.src = some { bits := aabBody ++ [false, false], pos := 6 }) = true :=
  ⟨rfl, by decide, goesTo_next (by decide +kernel)⟩

theorem witness_CompressWritesTheWireFormat :
    ∀ b : BitVec 8, ([0x41, 0x41, 0x41] : List (BitVec 8)).count b < 2 ^ 2 :=
  fun _ => Nat.lt_of_le_of_lt List.count_le_length (by decide)

/-- The compression of no bytes at all. -/
theorem witness_DecompressInvertsCompress :
    base.err = 0 ∧ ready.err = 0 ∧ ready.params.magic = base.params.magic ∧
      (∀ b : BitVec 8, ([] : List (BitVec 8)).count b < 2 ^ base.params.countW) ∧
      ∃ t, runHost (.bindSource (bitsOfBytes []) :: .bindSink :: compressWords.map .issue) base = .next t ∧
        decide (t.err = 0) = true :=
  ⟨rfl, rfl, rfl, fun _ => by simp, goesTo_next (by decide +kernel)⟩

/-- The magic number with its last bit changed, and a stream of 31 bits. -/
theorem witness_CorruptMagicProducesNoOutput :
    (bitsOf 32 0x12345679).take 32 ≠ (List.range 32).map (fun k => base.params.magic.getMsbD k) ∧
      (bitsOf 31 0x091A2B3C).take 32 ≠ (List.range 32).map (fun k => base.params.magic.getMsbD k) := by decide +kernel

/-- The default, and both ends of the range. -/
theorem witness_RegisterMapReadsTheRegisters :
    base.params.wf = true ∧ ({ magic := 0, countW := 1 } : Params).wf = true ∧
      ({ magic := 0, countW := 255 } : Params).wf = true := by decide

theorem witness_ReadPortRanges : 0x09 < 0x0A ∧ 256 < 257 ∧ 512 < 513 ∧ 3 < 4 := by decide

theorem witness_PackedNodeWordHoldsEveryField :
    ready.node[(4 : NodeIdx)].weight < 2 ^ (ready.params.countW + 9) ∧ ready.params.countW = 32 ∧
      ready.node[(512 : NodeIdx)] = { kind := .internal, sym := 0, left := 0, right := 0, weight := 0 } := by decide +kernel

theorem witness_PackedCodeWordHoldsEveryField : hostRead ready 3 sentinel.val = 1 + 2 * 2 + 1024 * 3 := by decide +kernel

theorem witness_EveryStepKeepsTheInvariant : Inv ready ∧ step ready = .next ready := ⟨ready_inv, rfl⟩

theorem witness_ValidTreeHasTheShapeOfR25 :
    Inv ready ∧ ready.treeValid = true ∧ (4 : NodeIdx).val < ready.nodeCount.val ∧
      ready.node[(4 : NodeIdx)].kind = .internal ∧ (0 : NodeIdx) ≠ ready.root ∧
      descend ready.node ready.root [true, false] = some 1 ∧ ready.nodeCount.val ≤ (5 : NodeIdx).val :=
  ⟨ready_inv, rfl, by decide +kernel⟩

theorem witness_EveryCommandCompletes :
    Inv ready ∧ streamsBound .readTree ready = true ∧ streamsBound .decodeRun ready = true :=
  ⟨ready_inv, by decide⟩

/-- A root that is its own left child. -/
theorem witness_FaultNeedsAnInvalidTree :
    ∃ f, exec .genCodes { base with treeValid := true } = .fault f := faults_fault (by decide +kernel)

theorem witness_OnlyUnboundStreamsAreRefused :
    exec .readMagic base = .refused .sourceUnbound ∧ exec .closeOut base = .refused .sinkUnbound ∧
      base.err = 0 ∧ base.src = none ∧ base.snk = none ∧
      ({ built with snk := none } : State).treeValid = true ∧ built.codesValid = true ∧ built.decState ≠ .done ∧
      built.snk = none ∧ (256 : BitVec 9).toNat ≤ 256 ∧
      ({ built with snk := some { bits := [], closed := false } } : State).src = none := by
  refine ⟨rfl, rfl, ?_⟩
  decide

theorem witness_CommandsWriteOnlyWhatTheirRulesList :
    exec .nop ready = .next ready ∧ Instr.nop ≠ .clear ∧ (∀ arg, Instr.nop ≠ .encodeSym arg) ∧
      needsSource .nop = false ∧ needsSink .nop = false ∧ ready.err = ready.err :=
  ⟨rfl, by decide, by simp, rfl, rfl, rfl⟩

theorem witness_SourceBitsAreKeptAndSinkOnlyGrows :
    exec .nop ready = .next ready ∧ ready.snk = some { bits := [], closed := false } ∧
      exec .nop (closed base) = .next (closed base) ∧ (closed base).snk = some { bits := [], closed := true } ∧
      exec .nop base = .next base ∧ base.snk = none := ⟨rfl, rfl, rfl, rfl, rfl, rfl⟩

theorem witness_FirstErrorIsKeptUntilClear :
    (exec .nop { ready with err := 0x10 } = .next { ready with err := 0x10 } ∧ ({ ready with err := 0x10 } : State).err ≠ 0) ∧
      base.err = 0 ∧ ∃ t, exec .writeTree base = .next t ∧ decide (t.err ≠ 0) = true :=
  ⟨⟨rfl, by decide⟩, rfl, goesTo_next (by decide +kernel)⟩

end Sys2Proof.Tests
end

section
/-! PROOFS. The reset values of R43: power-on reset and CLEAR are the one update `clearCore`. -/

namespace Sys2Proof.Proofs

open Sys2Proof Sys2Proof.Machine

/-- R43, R140: the fixed reset state is one that `clearCore` leaves as it is. -/
theorem clearCore_reset : clearCore State.reset = State.reset := rfl

theorem hostStep_powerOn_next {s t : State} : hostStep .powerOn s = .next t ↔ clearCore s = t := by
  rw [hostStep, Host.Outcome.next.injEq]

theorem exec_clear_next {s t : State} : exec .clear s = .next t ↔ clearCore s = t := by
  rw [exec, execClear, Host.Outcome.next.injEq]

/-- R22, R43: no count but the sentinel's. -/
theorem emptyFreq_get (a : Symbol) : emptyFreq[a] = if a = 256 then 1 else 0 := by simp [Fin.ext_iff]

/-- Settles O12: each of the three states is `clearCore` of some state, so the field lemmas of `clearCore` give the table. -/
theorem resetValues : Obligations.ResetValues := by
  unfold Obligations.ResetValues
  simp only [hostStep_powerOn_next, exec_clear_next, or_self]
  refine ⟨fun s t h => ?_, fun s t h => ?_⟩
  · obtain ⟨u, rfl⟩ : ∃ u, clearCore u = t := h.elim (fun h => ⟨State.reset, h ▸ clearCore_reset⟩) fun h => ⟨s, h⟩
    exact ⟨emptyFreq_get, by simp [Node.zero, CodeEntry.zero]⟩
  · subst h
    simp

end Sys2Proof.Proofs
end

section
/-! PROOFS. The packed word of a node entry (R24, R60). -/

namespace Sys2Proof.Proofs

open Sys2Proof Sys2Proof.Machine

/-- R60: space 2 reads the packed node entries. -/
theorem hostRead_node (s : State) (i : NodeIdx) : hostRead s 2 i.val = packNode (s.params.countW + 9) s.node[i] :=
  dif_pos i.isLt

theorem packNode_of_weight_lt {weightW : Nat} {n : Node} (h : n.weight < 2 ^ weightW) :
    packNode weightW n =
      n.kind.bit + 2 * n.sym.val + 2 ^ 10 * n.left.val + 2 ^ 20 * n.right.val + 2 ^ 30 * n.weight := by
  rw [packNode, Nat.mod_eq_of_lt h]

theorem kindBit_lt (k : NodeKind) : k.bit < 2 := by cases k <;> decide

/-- R24: fields that fit their widths are read back from their bits. -/
theorem packedFields {kind sym left right weight w : Nat} (hkind : kind < 2) (hsym : sym < 2 ^ 9)
    (hleft : left < 2 ^ 10) (hright : right < 2 ^ 10)
    (hw : w = kind + 2 * sym + 2 ^ 10 * left + 2 ^ 20 * right + 2 ^ 30 * weight) :
    w % 2 = kind ∧ w / 2 % 2 ^ 9 = sym ∧ w / 2 ^ 10 % 2 ^ 10 = left ∧ w / 2 ^ 20 % 2 ^ 10 = right ∧
      w / 2 ^ 30 = weight := by
  omega

/-- Settles O50: with the weight within its width the packed word is the plain sum of the shifted fields. -/
theorem packedNodeWordHoldsEveryField : Obligations.PackedNodeWordHoldsEveryField := by
  unfold Obligations.PackedNodeWordHoldsEveryField
  intro s i w hw hweight
  rw [hostRead_node, packNode_of_weight_lt hweight] at hw
  generalize s.node[i] = n at hw hweight ⊢
  obtain ⟨hkind, hsym, hleft, hright, hwt⟩ :=
    packedFields (kindBit_lt n.kind) (n.sym.isLt.trans (by decide)) (n.left.isLt.trans (by decide))
      (n.right.isLt.trans (by decide)) hw
  refine ⟨?_, hsym, hleft, hright, hwt, fun hcount => ?_, fun hzero => ?_⟩
  · rw [hkind]
    cases n.kind <;> rfl
  · rw [hcount] at hweight
    omega
  · rw [hw, hzero]
    rfl

end Sys2Proof.Proofs
end

section
/-! PROOFS. The shape of the tree in a valid node memory (R25). A tree's edges and leaves are listed once each, the lists are
tied to the memory's entries, and R25's uniqueness statements are that these lists have no repetition. -/

namespace Sys2Proof.Machine

/-! ## Paths through a memory -/

@[simp] theorem descend_nil (mem : NodeMem) (i : NodeIdx) : descend mem i [] = some i := rfl

theorem descend_cons_of_internal {mem : NodeMem} {i : NodeIdx} (h : mem[i].kind = .internal) (b : Bool) (p : List Bool) :
    descend mem i (b :: p) = descend mem (if b then mem[i].right else mem[i].left) p := by
  rw [descend, h]

theorem descend_cons_of_leaf {mem : NodeMem} {i : NodeIdx} (h : mem[i].kind = .leaf) (b : Bool) (p : List Bool) :
    descend mem i (b :: p) = none := by
  rw [descend, h]

namespace CodeTree

/-- No path in a memory is longer than the tree it holds is deep. -/
theorem descend_length_le {mem : NodeMem} {t : CodeTree} (ht : t.heldBy mem = true) {p : List Bool} {i : NodeIdx}
    (h : descend mem t.root p = some i) : p.length ≤ t.depth := by
  induction t generalizing p with
  | leaf k a =>
    obtain ⟨hk, -⟩ := heldBy_leaf.1 ht
    cases p with
    | nil => simp
    | cons b p => simp [descend_cons_of_leaf hk] at h
  | node k l r ihl ihr =>
    obtain ⟨⟨hk, -, hleft, hright⟩, hl, hr⟩ := heldBy_node.1 ht
    cases p with
    | nil => simp
    | cons b p =>
      rw [root_node, descend_cons_of_internal hk, hleft, hright] at h
      have hp : p.length ≤ max l.depth r.depth := by
        cases b with
        | false => exact (ihl hl h).trans (le_max_left _ _)
        | true => exact (ihr hr h).trans (le_max_right _ _)
      exact Nat.succ_le_succ hp

/-- Every node of the tree a memory holds is at the end of a path. -/
theorem exists_descend {mem : NodeMem} {t : CodeTree} (ht : t.heldBy mem = true) {i : NodeIdx} (hi : i ∈ t.indices) :
    ∃ p, descend mem t.root p = some i := by
  induction t with
  | leaf k a => exact ⟨[], by simpa [indices, eq_comm] using hi⟩
  | node k l r ihl ihr =>
    obtain ⟨⟨hk, -, hleft, hright⟩, hl, hr⟩ := heldBy_node.1 ht
    simp only [indices, List.mem_cons, List.mem_append] at hi
    rcases hi with rfl | hi | hi
    · exact ⟨[], rfl⟩
    · obtain ⟨p, hp⟩ := ihl hl hi
      exact ⟨false :: p, by rw [root_node, descend_cons_of_internal hk, hleft]; exact hp⟩
    · obtain ⟨p, hp⟩ := ihr hr hi
      exact ⟨true :: p, by rw [root_node, descend_cons_of_internal hk, hright]; exact hp⟩

/-! ## Leaves -/

/-- The leaves with their indices, left to right. -/
def leafEntries : CodeTree → List (NodeIdx × Symbol)
  | .leaf i a => [(i, a)]
  | .node _ l r => l.leafEntries ++ r.leafEntries

theorem leafEntries_map_snd (t : CodeTree) : t.leafEntries.map Prod.snd = t.leaves := by
  induction t with
  | leaf => rfl
  | node i l r ihl ihr => rw [leafEntries, List.map_append, ihl, ihr, leaves]

/-- The leaves of the tree are the leaf entries in use. -/
theorem mem_leafEntries_iff {mem : NodeMem} {t : CodeTree} (ht : t.heldBy mem = true) {i : NodeIdx} {a : Symbol} :
    (i, a) ∈ t.leafEntries ↔ i ∈ t.indices ∧ mem[i].kind = .leaf ∧ mem[i].sym = a := by
  induction t with
  | leaf k c =>
    obtain ⟨hk, hsym, -⟩ := heldBy_leaf.1 ht
    simp only [leafEntries, indices, List.mem_singleton, Prod.mk.injEq]
    constructor
    · rintro ⟨rfl, rfl⟩
      exact ⟨rfl, hk, hsym⟩
    · rintro ⟨rfl, -, rfl⟩
      exact ⟨rfl, hsym⟩
  | node k l r ihl ihr =>
    obtain ⟨⟨hk, -⟩, hl, hr⟩ := heldBy_node.1 ht
    have hroot : ¬ (i = k ∧ mem[i].kind = .leaf ∧ mem[i].sym = a) := by
      rintro ⟨rfl, hi, -⟩
      cases hk.symm.trans hi
    simp only [leafEntries, indices, List.mem_append, List.mem_cons, ihl hl, ihr hr, or_and_right, hroot, false_or]

/-- With distinct leaf symbols a symbol has one leaf. -/
theorem leafEntries_index_unique {t : CodeTree} (hnd : t.leaves.Nodup) {i j : NodeIdx} {a : Symbol}
    (hi : (i, a) ∈ t.leafEntries) (hj : (j, a) ∈ t.leafEntries) : i = j := by
  rw [← leafEntries_map_snd] at hnd
  exact congrArg Prod.fst (List.inj_on_of_nodup_map hnd hi hj rfl)

/-! ## Edges -/

/-- A branch of an internal node, 0 (`false`) to the left and 1 (`true`) to the right (R16). -/
structure Edge where
  parent : NodeIdx
  branch : Bool
  child : NodeIdx

/-- The branches of the tree, in preorder. -/
def edges : CodeTree → List Edge
  | .leaf _ _ => []
  | .node i l r => ⟨i, false, l.root⟩ :: ⟨i, true, r.root⟩ :: (l.edges ++ r.edges)

/-- The nodes of a tree are its root and its edges' children, each once. -/
theorem indices_perm_root_cons_children (t : CodeTree) : t.indices.Perm (t.root :: t.edges.map Edge.child) := by
  induction t with
  | leaf => rfl
  | node i l r ihl ihr =>
    simp only [indices, edges, root_node, List.map_cons, List.map_append]
    refine .cons i ((ihl.append ihr).trans ?_)
    rw [List.cons_append]
    exact .cons _ List.perm_middle

/-- The edges of the tree are the branches of the internal entries in use. -/
theorem mem_edges_iff {mem : NodeMem} {t : CodeTree} (ht : t.heldBy mem = true) {i j : NodeIdx} {b : Bool} :
    ⟨i, b, j⟩ ∈ t.edges ↔ i ∈ t.indices ∧ mem[i].kind = .internal ∧ (if b then mem[i].right else mem[i].left) = j := by
  induction t with
  | leaf k a =>
    obtain ⟨hk, -⟩ := heldBy_leaf.1 ht
    simp only [edges, indices, List.not_mem_nil, List.mem_singleton, false_iff]
    rintro ⟨rfl, hi, -⟩
    cases hk.symm.trans hi
  | node k l r ihl ihr =>
    obtain ⟨⟨hk, -, hleft, hright⟩, hl, hr⟩ := heldBy_node.1 ht
    have hroot : (⟨i, b, j⟩ : Edge) = ⟨k, false, l.root⟩ ∨ (⟨i, b, j⟩ : Edge) = ⟨k, true, r.root⟩ ↔
        i = k ∧ mem[i].kind = .internal ∧ (if b then mem[i].right else mem[i].left) = j := by
      simp only [Edge.mk.injEq]
      constructor
      · rintro (⟨rfl, rfl, rfl⟩ | ⟨rfl, rfl, rfl⟩)
        · exact ⟨rfl, hk, hleft⟩
        · exact ⟨rfl, hk, hright⟩
      · rintro ⟨rfl, -, rfl⟩
        cases b with
        | false => exact .inl ⟨rfl, rfl, hleft⟩
        | true => exact .inr ⟨rfl, rfl, hright⟩
    simp only [edges, indices, List.mem_cons, List.mem_append, ihl hl, ihr hr, ← or_assoc, hroot, or_and_right]

theorem exists_edge_of_mem_of_ne_root {t : CodeTree} {j : NodeIdx} (hj : j ∈ t.indices) (hne : j ≠ t.root) :
    ∃ e ∈ t.edges, e.child = j := by
  rw [t.indices_perm_root_cons_children.mem_iff, List.mem_cons, List.mem_map] at hj
  exact hj.resolve_left hne

section
variable {t : CodeTree} (hnd : t.indices.Nodup)
include hnd

/-- No edge leads to the root, and no two edges to one node. -/
theorem nodup_root_cons_children : (t.root :: t.edges.map Edge.child).Nodup :=
  t.indices_perm_root_cons_children.nodup_iff.1 hnd

theorem child_mem_and_ne_root {e : Edge} (he : e ∈ t.edges) : e.child ∈ t.indices ∧ e.child ≠ t.root := by
  have hc : e.child ∈ t.edges.map Edge.child := List.mem_map_of_mem he
  refine ⟨t.indices_perm_root_cons_children.mem_iff.2 (List.mem_cons_of_mem _ hc), fun h => ?_⟩
  exact (List.nodup_cons.1 (nodup_root_cons_children hnd)).1 (h ▸ hc)

theorem edge_unique {e f : Edge} (he : e ∈ t.edges) (hf : f ∈ t.edges) (h : e.child = f.child) : e = f :=
  List.inj_on_of_nodup_map (List.nodup_cons.1 (nodup_root_cons_children hnd)).2 he hf h

end

end CodeTree

/-! ## The entries in use, in a memory that holds a tree -/

namespace IsTree

variable {mem : NodeMem} {root : NodeIdx} {count : NodeCount} {t : CodeTree}

theorem kind_root (h : IsTree mem root count t) : mem[root].kind = .internal := by
  obtain ⟨hheld, rfl, hint⟩ := h
  cases t with
  | leaf => simp [CodeTree.isInternal] at hint
  | node i l r => exact (CodeTree.heldBy_node.1 hheld).1.1

theorem mem_edges_iff (h : IsTree mem root count t) {i j : NodeIdx} {b : Bool} :
    ⟨i, b, j⟩ ∈ t.edges ↔
      i.val < count.val ∧ mem[i].kind = .internal ∧ (if b then mem[i].right else mem[i].left) = j := by
  rw [CodeTree.mem_edges_iff h.held, h.indices_iff]

theorem mem_leafEntries_iff (h : IsTree mem root count t) {i : NodeIdx} {a : Symbol} :
    (i, a) ∈ t.leafEntries ↔ i.val < count.val ∧ mem[i].kind = .leaf ∧ mem[i].sym = a := by
  rw [CodeTree.mem_leafEntries_iff h.held, h.indices_iff]

/-- A child of an internal node, on some branch, is the other end of an edge. -/
theorem exists_branch_iff (h : IsTree mem root count t) {i j : NodeIdx} :
    (∃ b, ⟨i, b, j⟩ ∈ t.edges) ↔
      i.val < count.val ∧ mem[i].kind = .internal ∧ (mem[i].left = j ∨ mem[i].right = j) := by
  simp [h.mem_edges_iff]

/-- R25: the children of an internal node are two other nodes than the root. -/
theorem children_of_internal (h : IsTree mem root count t) {i : NodeIdx} (hi : i.val < count.val)
    (hk : mem[i].kind = .internal) :
    mem[i].left.val < count.val ∧ mem[i].right.val < count.val ∧ mem[i].left ≠ mem[i].right ∧
      mem[i].left ≠ root ∧ mem[i].right ≠ root := by
  have hl : (⟨i, false, mem[i].left⟩ : CodeTree.Edge) ∈ t.edges := h.mem_edges_iff.2 ⟨hi, hk, rfl⟩
  have hr : (⟨i, true, mem[i].right⟩ : CodeTree.Edge) ∈ t.edges := h.mem_edges_iff.2 ⟨hi, hk, rfl⟩
  obtain ⟨hlmem, hlroot⟩ := CodeTree.child_mem_and_ne_root h.indices_nodup hl
  obtain ⟨hrmem, hrroot⟩ := CodeTree.child_mem_and_ne_root h.indices_nodup hr
  rw [h.indices_iff] at hlmem hrmem
  rw [h.root_eq] at hlroot hrroot
  refine ⟨hlmem, hrmem, fun heq => ?_, hlroot, hrroot⟩
  simpa using CodeTree.edge_unique h.indices_nodup hl hr heq

/-- R25: every node but the root is the child of exactly one internal node. -/
theorem exists_unique_parent (h : IsTree mem root count t) {j : NodeIdx} (hj : j.val < count.val) (hne : j ≠ root) :
    ∃ i : NodeIdx, (i.val < count.val ∧ mem[i].kind = .internal ∧ (mem[i].left = j ∨ mem[i].right = j)) ∧
      ∀ k : NodeIdx, k.val < count.val → mem[k].kind = .internal → (mem[k].left = j ∨ mem[k].right = j) → k = i := by
  obtain ⟨⟨i, b, _⟩, he, rfl⟩ :=
    CodeTree.exists_edge_of_mem_of_ne_root ((h.indices_iff j).2 hj) (h.root_eq ▸ hne)
  refine ⟨i, h.exists_branch_iff.1 ⟨b, he⟩, fun k hk hint hchild => ?_⟩
  obtain ⟨b', hf⟩ := h.exists_branch_iff.2 ⟨hk, hint, hchild⟩
  exact congrArg CodeTree.Edge.parent (CodeTree.edge_unique h.indices_nodup hf he rfl)

/-- R25: no two leaves carry one symbol. -/
theorem leaf_unique (h : IsTree mem root count t) {i j : NodeIdx} (hi : i.val < count.val) (hj : j.val < count.val)
    (hik : mem[i].kind = .leaf) (hjk : mem[j].kind = .leaf) (hsym : mem[i].sym = mem[j].sym) : i = j :=
  CodeTree.leafEntries_index_unique h.leaves_nodup (h.mem_leafEntries_iff.2 ⟨hi, hik, hsym⟩)
    (h.mem_leafEntries_iff.2 ⟨hj, hjk, rfl⟩)

/-- R25: every symbol of the tree is in a leaf entry in use. -/
theorem exists_leaf (h : IsTree mem root count t) {a : Symbol} (ha : a ∈ t.leaves) :
    ∃ i : NodeIdx, i.val < count.val ∧ mem[i].kind = .leaf ∧ mem[i].sym = a := by
  rw [← t.leafEntries_map_snd, List.mem_map] at ha
  obtain ⟨⟨i, _⟩, hi, rfl⟩ := ha
  exact ⟨i, h.mem_leafEntries_iff.1 hi⟩

end IsTree

end Sys2Proof.Machine

namespace Sys2Proof.Proofs

open Sys2Proof Sys2Proof.Machine

/-- Settles O54: the invariant gives the tree that the memory holds (R30), and the lemmas about it give R25's list. -/
theorem validTreeHasTheShapeOfR25 : Obligations.ValidTreeHasTheShapeOfR25 := by
  unfold Obligations.ValidTreeHasTheShapeOfR25
  intro s hinv hvalid
  obtain ⟨t, h⟩ := hinv.tree_iff.1 hvalid
  refine ⟨h.root_lt, h.kind_root, fun i => h.children_of_internal, fun j => h.exists_unique_parent,
    fun i j => h.leaf_unique, h.exists_leaf h.sentinel_mem, fun p i hp => ?_, fun i hi => ?_, h.rest_zero⟩
  · rw [← h.root_eq] at hp
    exact (CodeTree.descend_length_le h.held hp).trans h.depth_le
  · rw [← h.root_eq]
    exact CodeTree.exists_descend h.held ((h.indices_iff i).2 hi)

end Sys2Proof.Proofs
end

section
/-! PROOFS. CLOSE_OUT (R52, R114): on an open sink it is `BitSink.close`, on a closed one an error entry. -/

namespace Sys2Proof.Machine

/-- R85, R114: while no error is held, CLOSE_OUT is its check of the sink, then the close. -/
theorem exec_closeOut_of_err_zero {s : State} (h : s.err = 0) :
    exec .closeOut s = needOpenSink (encode .closeOut) s fun d => .next { s with snk := some d.close } :=
  whenNoError_of_zero h (closeOut s)

/-- R114: on an open sink CLOSE_OUT closes it and changes nothing else. -/
theorem exec_closeOut_of_open {s : State} {d : BitSink} (herr : s.err = 0) (hsnk : s.snk = some d)
    (hopen : d.closed = false) : exec .closeOut s = .next { s with snk := some d.close } := by
  rw [exec_closeOut_of_err_zero herr, needOpenSink_of_open _ hsnk hopen]

/-- R51, R114: on a closed sink CLOSE_OUT only raises SINK_CLOSED. -/
theorem exec_closeOut_of_closed {s : State} {d : BitSink} (herr : s.err = 0) (hsnk : s.snk = some d)
    (hclosed : d.closed = true) : exec .closeOut s = .next (errorEntry .sinkClosed (encode .closeOut) s) := by
  rw [exec_closeOut_of_err_zero herr, needOpenSink_of_closed _ hsnk hclosed]

end Sys2Proof.Machine

namespace Sys2Proof.Proofs

open Sys2Proof Sys2Proof.Machine

/-- Settles O37: the number of zero bits is `padLength` of the sink's length (`padLength_spec`), and the sink's closed flag
decides between the close and SINK_CLOSED. -/
theorem closeOutPadsAndClosesTheSink : Obligations.CloseOutPadsAndClosesTheSink := by
  unfold Obligations.CloseOutPadsAndClosesTheSink
  intro s d herr hsnk
  constructor
  · intro hopen
    obtain ⟨hlt, hwhole⟩ := BitSink.padLength_spec d.bits.length
    exact ⟨padLength d.bits.length, hlt, hwhole, exec_closeOut_of_open herr hsnk hopen⟩
  · intro hclosed
    exact exec_closeOut_of_closed herr hsnk hclosed

end Sys2Proof.Proofs
end

section
/-! PROOFS. The illegal words (R71 to R75): which words the decoder rejects, in terms of the word's three fields and of its
bits as numbers, and what issuing one of them does. -/

namespace Sys2Proof

/-! ## The fields of a word as numbers (R68) -/

theorem rsvField_toNat (w : Word) : (rsvField w).toNat = w.toNat / 512 % 8 := by
  simp [rsvField, Nat.shiftRight_eq_div_pow]

theorem opField_toNat (w : Word) : (opField w).toNat = w.toNat / 4096 := by
  have hw : w.toNat < 65536 := w.isLt
  have hlt : w.toNat / 4096 < 16 := by omega
  simpa [opField, Nat.shiftRight_eq_div_pow] using hlt

theorem argField_toNat (w : Word) : (argField w).toNat = w.toNat % 512 := by
  simp [argField]

/-! ## The words the decoder rejects -/

/-- R70, R74: the opcodes without an operand-free command are ENCODE_SYM's and the two reserved ones. -/
theorem operandFree_eq_none_iff (op : BitVec 4) : operandFree op = none ↔ op = 0x7 ∨ op = 0xE ∨ op = 0xF := by
  revert op
  decide

/-- R71 to R74: what the decoder rejects, by the word's fields. The cases are its checks in the order of R78; its last one
never fails, since the opcodes with no operand-free command were answered before it. -/
theorem exists_decode_eq_illegal_iff (w : Word) :
    (∃ why, decode w = .illegal why) ↔
      rsvField w ≠ 0 ∨ (opField w ≠ 0x7 ∧ argField w ≠ 0) ∨ (opField w = 0x7 ∧ (argField w).toNat > 256) ∨
        opField w = 0xE ∨ opField w = 0xF := by
  unfold decode
  split_ifs with hrsv hop hsym hrange harg
  · exact iff_of_true ⟨_, rfl⟩ (.inl hrsv)
  · exact iff_of_true ⟨_, rfl⟩ (.inr (.inr (.inr hop)))
  · exact iff_of_true ⟨_, rfl⟩ (.inr (.inr (.inl ⟨hsym, hrange⟩)))
  · exact iff_of_false (by simp) (by tauto)
  · exact iff_of_true ⟨_, rfl⟩ (.inr (.inl ⟨hsym, harg⟩))
  · have hfree : operandFree (opField w) ≠ none := by
      rw [Ne, operandFree_eq_none_iff, not_or]
      exact ⟨hsym, hop⟩
    obtain ⟨i, hi⟩ := Option.ne_none_iff_exists'.1 hfree
    rw [hi]
    exact iff_of_false (by simp) (by tauto)

end Sys2Proof

namespace Sys2Proof.Machine

/-! ## Issuing an illegal word -/

/-- R75: an illegal word is handled by `illegalWord`, whatever the reason. -/
theorem issue_of_illegal {w : Word} {why : Illegal} (h : decode w = .illegal why) (s : State) :
    issue w s = illegalWord w s := by
  rw [issue, h]

/-- R75, R124: with no error recorded an illegal word is the error entry. -/
theorem illegalWord_of_err_zero {s : State} (h : s.err = 0) (w : Word) :
    illegalWord w s = .next (errorEntry .illegalCommand w s) :=
  whenNoError_of_zero h _

/-- R85: while an error is recorded an illegal word has no effect. -/
theorem illegalWord_of_err_ne {s : State} (h : s.err ≠ 0) (w : Word) : illegalWord w s = .next s :=
  whenNoError_of_ne h _

end Sys2Proof.Machine

namespace Sys2Proof.Proofs

open Sys2Proof Sys2Proof.Machine

/-- Settles O3: the decoder's checks by field, each field read as a number. -/
theorem illegalWordsAreTheReservedOnes : Obligations.IllegalWordsAreTheReservedOnes := by
  unfold Obligations.IllegalWordsAreTheReservedOnes
  intro w
  rw [exists_decode_eq_illegal_iff, ← rsvField_toNat, ← opField_toNat, ← argField_toNat]
  simp [← BitVec.toNat_inj]

/-- Settles O7: the word reaches `illegalWord`, which is the error entry or nothing, by ERR. -/
theorem illegalWordOnlyEntersTheError : Obligations.IllegalWordOnlyEntersTheError := by
  unfold Obligations.IllegalWordOnlyEntersTheError
  intro s w why hw
  rw [issue_of_illegal hw]
  exact ⟨fun h => illegalWord_of_err_zero h w, fun h => illegalWord_of_err_ne h w⟩

end Sys2Proof.Proofs
end

section
/-! PROOFS. FREQ_SCAN (R87 to R89): its loop runs over the bytes of the source that fit, and ends behind the last whole byte or
at the first byte whose count is full. -/

namespace Sys2Proof.Machine

@[simp] theorem BitSource.resetToStart_remaining (r : BitSource) : r.resetToStart.remaining = r.bits.length :=
  Nat.sub_zero _

/-- What FREQ_SCAN's loop ends with: it runs over the whole source `r`, from empty counts (R87). -/
def scanSource (countW : Nat) (r : BitSource) : Ran Counting Unit :=
  countBytes countW r.resetToStart.remaining { src := r.resetToStart, freq := emptyFreq }

section
variable {s : State} {r : BitSource} (herr : s.err = 0) (hsrc : s.src = some r)
include herr hsrc

/-- R87: a scan that gets through the source writes the loop's results back. -/
theorem exec_freqScan_of_done {c : Counting} (h : scanSource s.params.countW r = .done () c) :
    exec .freqScan s = .next (c.store s) := by
  change whenNoError s (freqScan s) = _
  rw [whenNoError_of_zero herr, freqScan, needSource_of_some hsrc, ← scanSource, h]

/-- R13, R126: a scan that raises keeps the loop's results. -/
theorem exec_freqScan_of_raised {e : Err} {c : Counting} (h : scanSource s.params.countW r = .raised e c) :
    exec .freqScan s = .next (errorEntry e (encode .freqScan) (c.store s)) := by
  change whenNoError s (freqScan s) = _
  rw [whenNoError_of_zero herr, freqScan, needSource_of_some hsrc, ← scanSource, h]
  exact raise_eq e _ _

end

/-- R21: a byte's entry of a table of counts holds its occurrences. -/
theorem countsOf_byteSymbol (bytes : List Nat) (b : Nat) :
    (countsOf bytes)[byteSymbol b] = bytes.count (byteSymbol b).val := by
  have hne : (byteSymbol b).val ≠ 256 := fun h => byteSymbol_ne_sentinel b (Fin.ext h)
  rw [Fin.getElem_fin, countsOf_getElem, if_neg hne]

/-- The bytes that stand behind the first ones of a source. -/
theorem wholeBytes_drop_of_append {bits : List Bool} {pre post : List Nat} (h : wholeBytes bits = pre ++ post) :
    wholeBytes (bits.drop (8 * pre.length)) = post := by
  induction pre generalizing bits with
  | nil => exact h
  | cons b pre ih =>
    have hrest : wholeBytes (bits.drop (0 + 8)) = pre ++ post := (readBits_byte (r := { bits := bits, pos := 0 }) h).2
    rw [← ih hrest, List.drop_drop, List.length_cons]
    congr 2
    omega

section
variable {countW : Nat} {r : BitSource}

/-- R87, R88: the loop counts the leading bytes whose counts fit; the passes left are enough for the bytes behind them. -/
theorem scanSource_of_counts_fit {pre post : List Nat} (hbytes : wholeBytes r.bits = pre ++ post)
    (hfit : ∀ b, pre.count b < 2 ^ countW) :
    ∃ fuel, post.length ≤ fuel ∧
      scanSource countW r = countBytes countW fuel { src := { r with pos := 8 * pre.length }, freq := countsOf pre } := by
  have hlen : pre.length + post.length = r.bits.length / 8 := by
    rw [← List.length_append, ← hbytes, wholeBytes_length]
  obtain ⟨fuel, hfuel⟩ : ∃ fuel, r.bits.length = pre.length + fuel := Nat.exists_eq_add_of_le (by omega)
  refine ⟨fuel, by omega, ?_⟩
  have hcounts : addCounts emptyFreq pre = countsOf pre := addCounts_emptyFreq pre
  rw [scanSource, BitSource.resetToStart_remaining, hfuel,
    countBytes_append countW pre post fuel { src := r.resetToStart, freq := emptyFreq } hbytes, hcounts]
  · simp [BitSource.resetToStart]
  · intro b
    rw [hcounts, countsOf_byteSymbol]
    exact hfit _

/-- R87, R89: when all counts fit, the loop exits behind the last whole byte. -/
theorem scanSource_eq_done (hfit : ∀ b, (wholeBytes r.bits).count b < 2 ^ countW) :
    scanSource countW r =
      .done () { src := { r with pos := 8 * (r.bits.length / 8) }, freq := countsOf (wholeBytes r.bits) } := by
  have hbytes : wholeBytes r.bits = wholeBytes r.bits ++ [] := (List.append_nil _).symm
  obtain ⟨fuel, -, hloop⟩ := scanSource_of_counts_fit hbytes hfit
  rw [hloop, countBytes_nil _ _ _ (wholeBytes_drop_of_append hbytes), wholeBytes_length]

/-- R88: a byte whose count is full after the bytes before it ends the loop; it is read and not counted. -/
theorem scanSource_eq_raised {before after : List Nat} {b : Nat} (hbytes : wholeBytes r.bits = before ++ b :: after)
    (hfit : ∀ c, before.count c < 2 ^ countW) (hfull : before.count b = 2 ^ countW - 1) :
    scanSource countW r =
      .raised .countOverflow { src := { r with pos := 8 * (before.length + 1) }, freq := countsOf before } := by
  obtain ⟨fuel, hfuel, hloop⟩ := scanSource_of_counts_fit hbytes hfit
  obtain ⟨fuel, rfl⟩ : ∃ k, fuel = k + 1 := Nat.exists_eq_add_one.2 (Nat.lt_of_lt_of_le (by simp) hfuel)
  have hb : b < 256 := lt_of_mem_wholeBytes (bs := r.bits) (by simp [hbytes])
  have hcount : (countsOf before)[byteSymbol b] = 2 ^ countW - 1 := by
    rw [countsOf_byteSymbol, byteSymbol_val hb, hfull]
  exact hloop.trans (countBytes_overflow countW fuel
    { src := { r with pos := 8 * before.length }, freq := countsOf before } (wholeBytes_drop_of_append hbytes) hcount)

end

end Sys2Proof.Machine

namespace Sys2Proof.Proofs

open Sys2Proof Sys2Proof.Machine

/-- Settles O17: what the loop ends with, for counts that fit and for a full count, written back by FREQ_SCAN. -/
theorem freqScanCountsBytesOrOverflows : Obligations.FreqScanCountsBytesOrOverflows := by
  unfold Obligations.FreqScanCountsBytesOrOverflows
  intro s r herr hsrc
  constructor
  · intro hfit
    rw [exec_freqScan_of_done herr hsrc (scanSource_eq_done hfit), Counting.store]
  · intro before b after hbytes hfit hfull
    rw [exec_freqScan_of_raised herr hsrc (scanSource_eq_raised hbytes hfit hfull), Counting.store, errorEntry]
    rfl

end Sys2Proof.Proofs
end

section
/-! PROOFS. BUILD_TREE's leaves and merges (R90 to R94). At every pass of the loop the queue `Q` is the list of the nodes that
no merge so far has taken, so what the pass takes out of `Q` is what R94 says of the node it creates. -/

namespace Sys2Proof.Machine

/-! ## The leaves -/

theorem mem_countedSymbols {freq : FreqTable} {a : Symbol} : a ∈ countedSymbols freq ↔ 0 < freq[a] := by
  simp only [countedSymbols, allSymbols, List.mem_filter, List.mem_finRange, true_and, decide_eq_true_eq]

theorem countedSymbols_length_le (freq : FreqTable) : (countedSymbols freq).length ≤ 257 :=
  List.length_finRange (n := 257) ▸ List.length_filter_le ..

/-- R91: the leaves are the first entries. -/
theorem addLeaves_empty (freq : FreqTable) :
    (addLeaves freq { node := emptyNodes, count := 0 } allSymbols).count.val = (countedSymbols freq).length ∧
      ∀ (i : NodeIdx) (a : Symbol), (countedSymbols freq)[i.val]? = some a →
        (addLeaves freq { node := emptyNodes, count := 0 } allSymbols).node[i] = leafNode a freq[a] := by
  have hle := countedSymbols_length_le freq
  rw [countedSymbols_eq] at *
  obtain ⟨hcount, hnode⟩ := addLeaves_spec freq allSymbols { node := emptyNodes, count := 0 }
    ((Nat.zero_add _).trans_le (hle.trans (by decide)))
  refine ⟨hcount.trans (Nat.zero_add _), fun i a ha => ?_⟩
  refine (hnode i).trans ((if_neg (Nat.not_lt_zero _)).trans ?_)
  simp only [Fin.val_zero, Nat.sub_zero, ha]

/-- Some symbol has no count when only one has. -/
theorem exists_placeholder {freq : FreqTable} (h : (countedSymbols freq).length = 1) :
    ∃ p, placeholder? freq = some p := by
  obtain ⟨a, ha⟩ := List.length_eq_one_iff.1 h
  obtain ⟨b, hb⟩ := exists_ne a
  have hzero : freq[b] = 0 := by
    refine Nat.eq_zero_of_not_pos fun hpos => hb ?_
    rwa [← mem_countedSymbols, ha, List.mem_singleton] at hpos
  rw [← Option.isSome_iff_exists, placeholder?, List.find?_isSome]
  exact ⟨b, List.mem_finRange b, decide_eq_true hzero⟩

/-- R91, R92: with some count not 0 there are two leaves or more, one for each counted symbol and at most one placeholder, and
nothing else. -/
theorem builtLeaves_spec {freq : FreqTable} (hpos : 0 < (countedSymbols freq).length) :
    (builtLeaves freq).count.val = max (countedSymbols freq).length 2 ∧
      ∀ i : NodeIdx, i.val < (builtLeaves freq).count.val → (builtLeaves freq).node[i].kind = .leaf := by
  obtain ⟨hcount, hnode⟩ := addLeaves_empty freq
  rw [builtLeaves]
  generalize addLeaves freq { node := emptyNodes, count := 0 } allSymbols = b at hcount hnode ⊢
  have hleaf (i : NodeIdx) (hi : i.val < b.count.val) : b.node[i].kind = .leaf := by
    rw [hnode i _ (List.getElem?_eq_getElem (hcount ▸ hi))]
    rfl
  rw [addPlaceholder]
  split
  · next hone =>
    obtain ⟨p, hp⟩ := exists_placeholder (hcount.symm.trans hone)
    rw [hp]
    dsimp only
    rw [add_of_room _ (by omega)]
    refine ⟨by simp only; omega, fun i hi => ?_⟩
    have hset := set_get b.node ⟨b.count.val, by omega⟩ i (leafNode p 0)
    dsimp only at hi hset ⊢
    rw [hset]
    split
    · rfl
    · next hne => exact hleaf i (by rw [Fin.ext_iff] at hne; simp only at hne; omega)
  · exact ⟨by omega, hleaf⟩

theorem mem_usedIndices {count : NodeCount} {i : NodeIdx} : i ∈ usedIndices count ↔ i.val < count.val := by
  simp only [usedIndices, List.mem_filter, List.mem_finRange, true_and, decide_eq_true_eq]

theorem usedIndices_nodup (count : NodeCount) : (usedIndices count).Nodup := (List.nodup_finRange 513).filter _

theorem usedIndices_length (count : NodeCount) : (usedIndices count).length = count.val := by
  rw [← List.toFinset_card_of_nodup (usedIndices_nodup count), usedIndices, List.toFinset_filter, List.toFinset_finRange]
  simp only [decide_eq_true_eq]
  rw [Fin.card_filter_val_lt, min_eq_right (Nat.le_of_lt_succ count.isLt)]

/-! ## The nodes not yet merged -/

/-- Node `j` is below index `n` and no internal node below `n` has it as a child (R94). With `n` the number
of entries in use these are the nodes of `Q`; when all 513 are in use `n` is no node's index, as `stillQueued` would need. -/
def QueuedBelow (mem : NodeMem) (n : Nat) (j : NodeIdx) : Prop :=
  j.val < n ∧ ∀ m : NodeIdx, m.val < n → mem[m].kind = .internal → mem[m].left ≠ j ∧ mem[m].right ≠ j

theorem stillQueued_iff_queuedBelow {mem : NodeMem} {j k : NodeIdx} : stillQueued mem j k ↔ QueuedBelow mem k.val j :=
  Iff.rfl

/-- What R94 says of the internal node created at index `k`, with the fields `p`. Only entries before `k` are looked at. -/
structure MergesSmallest (mem : NodeMem) (k : NodeIdx) (p : Node) : Prop where
  left_queued : stillQueued mem p.left k
  right_queued : stillQueued mem p.right k
  left_below_right : keyBelow mem p.left p.right
  weight_eq : p.weight = mem[p.left].weight + mem[p.right].weight
  right_below : ∀ j : NodeIdx, stillQueued mem j k → j ≠ p.left → j ≠ p.right → keyBelow mem p.right j

/-- Children are created before their parent. -/
theorem MergesSmallest.ne_of_le {mem : NodeMem} {j k : NodeIdx} {p : Node} (h : MergesSmallest mem k p)
    (hj : k.val ≤ j.val) : p.left ≠ j ∧ p.right ≠ j :=
  ⟨Fin.ne_of_lt (h.left_queued.1.trans_le hj), Fin.ne_of_lt (h.right_queued.1.trans_le hj)⟩

/-- R94: creating the internal node `k` queues it and takes its children out. -/
theorem queuedBelow_succ {mem : NodeMem} {j k : NodeIdx} (hk : mem[k].kind = .internal)
    (hno : ∀ m : NodeIdx, m.val < k.val + 1 → mem[m].kind = .internal → mem[m].left ≠ k ∧ mem[m].right ≠ k) :
    QueuedBelow mem (k.val + 1) j ↔ j = k ∨ QueuedBelow mem k.val j ∧ mem[k].left ≠ j ∧ mem[k].right ≠ j := by
  constructor
  · rintro ⟨hj, hchild⟩
    rcases Nat.lt_succ_iff_lt_or_eq.1 hj with hlt | heq
    · exact .inr ⟨⟨hlt, fun m hm => hchild m (hm.trans k.val.lt_succ_self)⟩, hchild k k.val.lt_succ_self hk⟩
    · exact .inl (Fin.ext heq)
  · rintro (rfl | ⟨⟨hj, hchild⟩, hlast⟩)
    · exact ⟨j.val.lt_succ_self, hno⟩
    · refine ⟨hj.trans k.val.lt_succ_self, fun m hm hi => ?_⟩
      rcases Nat.lt_succ_iff_lt_or_eq.1 hm with hlt | heq
      · exact hchild m hlt hi
      · exact Fin.ext heq ▸ hlast

section
variable {mem mem' : NodeMem} {n : Nat} (hsame : ∀ i : NodeIdx, i.val < n → mem'[i] = mem[i])
include hsame

/-- The queue below an index depends on the entries below it only. -/
theorem queuedBelow_congr {j : NodeIdx} {n' : Nat} (hn : n' ≤ n) : QueuedBelow mem' n' j ↔ QueuedBelow mem n' j := by
  unfold QueuedBelow
  refine and_congr_right fun _ => forall₂_congr fun m hm => ?_
  rw [hsame m (hm.trans_le hn)]

theorem keyBelow_congr {i j : NodeIdx} (hi : i.val < n) (hj : j.val < n) : keyBelow mem' i j ↔ keyBelow mem i j := by
  rw [keyBelow, keyBelow, hsame i hi, hsame j hj]

/-- A merge is the one R94 asks for whatever is written from its own index on. -/
theorem MergesSmallest.congr {k : NodeIdx} {p : Node} (hk : k.val ≤ n) (h : MergesSmallest mem k p) :
    MergesSmallest mem' k p where
  left_queued := (queuedBelow_congr hsame hk).2 h.left_queued
  right_queued := (queuedBelow_congr hsame hk).2 h.right_queued
  left_below_right :=
    (keyBelow_congr hsame (h.left_queued.1.trans_le hk) (h.right_queued.1.trans_le hk)).2 h.left_below_right
  weight_eq := by
    rw [hsame _ (h.left_queued.1.trans_le hk), hsame _ (h.right_queued.1.trans_le hk)]
    exact h.weight_eq
  right_below j hj hjl hjr :=
    (keyBelow_congr hsame (h.right_queued.1.trans_le hk) (hj.1.trans_le hk)).2
      (h.right_below j ((queuedBelow_congr hsame hk).1 hj) hjl hjr)

end

/-! ## The merge loop -/

/-- What every pass of the merge loop starts with: `Q` holds each node that is not yet merged once, and every merge so far is the
one R94 asks for. -/
structure MergeInv (b : Builder) (q : List NodeIdx) : Prop where
  nodup : q.Nodup
  mem_iff : ∀ j : NodeIdx, j ∈ q ↔ QueuedBelow b.node b.count.val j
  merged : ∀ k : NodeIdx, k.val < b.count.val → b.node[k].kind = .internal → MergesSmallest b.node k b.node[k]

/-- R90: all leaves are queued before the first merge. -/
theorem MergeInv.of_leaves {b : Builder} (hleaf : ∀ i : NodeIdx, i.val < b.count.val → b.node[i].kind = .leaf) :
    MergeInv b (usedIndices b.count) := by
  have hno (k : NodeIdx) (hk : k.val < b.count.val) : b.node[k].kind ≠ .internal := by
    rw [hleaf k hk]
    decide
  exact ⟨usedIndices_nodup _, fun j => mem_usedIndices.trans ⟨fun h => ⟨h, fun m hm hi => absurd hi (hno m hm)⟩, And.left⟩,
    fun k hk hi => absurd hi (hno k hk)⟩

/-- R93: of two nodes of the queue, the one extracted first has the smaller key. -/
theorem keyBelow_of_extractMin {mem : NodeMem} {q q' : List NodeIdx} {a j : NodeIdx}
    (h : extractMin mem q = some (a, q')) (hj : j ∈ q) (hne : j ≠ a) : keyBelow mem a j := by
  obtain ⟨-, -, -, hmin⟩ := extractMin_spec h
  exact keyLt_iff_keyBelow.1 ((keyLt_total hne).resolve_left (hmin j hj))

section
variable {b : Builder} {q : List NodeIdx} (hinv : MergeInv b q)
include hinv

/-- The last node created is no node's child. -/
theorem MergeInv.last_mem (hpos : 0 < b.count.val) : lastNode b.count ∈ q := by
  have hlast : (lastNode b.count).val + 1 = b.count.val := Nat.sub_add_cancel hpos
  exact (hinv.mem_iff _).2 ⟨by omega, fun m hm hi => (hinv.merged m hm hi).ne_of_le (by omega)⟩

section
variable {a c k : NodeIdx} (ha : extractMin b.node q = some (a, q.erase a))
  (hc : extractMin b.node (q.erase a) = some (c, (q.erase a).erase c)) (hcount : b.count.val = k.val)
include ha hc hcount

/-- R94: a pass of the loop takes the two queued nodes with the smallest keys. -/
theorem MergeInv.mergesSmallest : MergesSmallest b.node k (mergedNode b.node a c) := by
  have hqueued (j : NodeIdx) : j ∈ q ↔ stillQueued b.node j k := by
    rw [hinv.mem_iff, hcount, stillQueued_iff_queuedBelow]
  have hrest (j : NodeIdx) : j ∈ q.erase a ↔ j ≠ a ∧ j ∈ q := hinv.nodup.mem_erase_iff
  obtain ⟨hca, hcq⟩ := (hrest c).1 (extractMin_spec hc).1
  exact {
    left_queued := (hqueued a).1 (extractMin_spec ha).1
    right_queued := (hqueued c).1 hcq
    left_below_right := keyBelow_of_extractMin ha hcq hca
    weight_eq := rfl
    right_below := fun j hj hja hjc => keyBelow_of_extractMin hc ((hrest j).2 ⟨hja, (hqueued j).2 hj⟩) hjc }

/-- R94: the invariant after a pass, in any memory that has the merged node at `k` and is as it was below. -/
theorem MergeInv.merge_of_get {mem' : NodeMem} (hnew : mem'[k] = mergedNode b.node a c)
    (hsame : ∀ i : NodeIdx, i.val < k.val → mem'[i] = b.node[i]) :
    MergeInv { node := mem', count := ⟨k.val + 1, by omega⟩ } (k :: (q.erase a).erase c) := by
  have hmerged (m : NodeIdx) (hm : m.val < k.val + 1) (hi : mem'[m].kind = .internal) :
      MergesSmallest mem' m mem'[m] := by
    refine MergesSmallest.congr hsame (Nat.le_of_lt_succ hm) ?_
    rcases Nat.lt_succ_iff_lt_or_eq.1 hm with hlt | heq
    · rw [hsame m hlt] at hi ⊢
      exact hinv.merged m (hcount ▸ hlt) hi
    · rw [Fin.ext heq, hnew]
      exact hinv.mergesSmallest ha hc hcount
  have hnd := hinv.nodup.erase a
  have hrest (j : NodeIdx) : j ∈ (q.erase a).erase c ↔ QueuedBelow mem' k.val j ∧ a ≠ j ∧ c ≠ j := by
    rw [hnd.mem_erase_iff, hinv.nodup.mem_erase_iff, hinv.mem_iff, hcount, queuedBelow_congr hsame le_rfl,
      ne_comm (a := a), ne_comm (a := c)]
    tauto
  refine ⟨List.nodup_cons.2 ⟨fun h => ?_, hnd.erase c⟩, fun j => ?_, hmerged⟩
  · exact Nat.lt_irrefl _ ((hrest k).1 h).1.1
  · rw [queuedBelow_succ (by rw [hnew]; rfl) fun m hm hi => (hmerged m hm hi).ne_of_le (Nat.le_of_lt_succ hm),
      List.mem_cons, hrest, hnew]
    rfl

end

/-- R94: a pass of the loop keeps its invariant. -/
theorem MergeInv.merge {a c : NodeIdx} (ha : extractMin b.node q = some (a, q.erase a))
    (hc : extractMin b.node (q.erase a) = some (c, (q.erase a).erase c)) (hroom : b.count.val < 513) :
    MergeInv { node := b.node.set b.count.val (mergedNode b.node a c), count := ⟨b.count.val + 1, by omega⟩ }
      (⟨b.count.val, hroom⟩ :: (q.erase a).erase c) := by
  have hget (i : NodeIdx) := set_get b.node ⟨b.count.val, hroom⟩ i (mergedNode b.node a c)
  exact hinv.merge_of_get (k := ⟨b.count.val, hroom⟩) ha hc rfl ((hget _).trans (if_pos rfl))
    fun i hi => (hget i).trans (if_neg (Fin.ne_of_gt hi))

end

/-- R94: with passes and room enough the loop ends with one node queued. -/
theorem mergeLoop_spec {b : Builder} {q : List NodeIdx} (fuel : Nat) (hinv : MergeInv b q) (hpos : 0 < q.length)
    (hfuel : q.length ≤ fuel + 1) (hroom : b.count.val + q.length ≤ 514) :
    ∃ r, MergeInv (mergeLoop fuel b q) [r] := by
  induction fuel generalizing b q with
  | zero =>
    obtain ⟨r, rfl⟩ := List.length_eq_one_iff.1 (show q.length = 1 by omega)
    exact ⟨r, hinv⟩
  | succ fuel ih =>
    by_cases hone : q.length = 1
    · obtain ⟨r, rfl⟩ := List.length_eq_one_iff.1 hone
      exact ⟨r, by rwa [mergeLoop_single]⟩
    · obtain ⟨a, c, ha, hc, hloop⟩ := mergeLoop_succ (b := b) fuel (show 1 < q.length by omega) (by omega)
      obtain ⟨-, -, hlen₁, -⟩ := extractMin_spec ha
      obtain ⟨-, -, hlen₂, -⟩ := extractMin_spec hc
      rw [hloop]
      refine ih (hinv.merge ha hc _) ?_ ?_ ?_ <;> simp only [List.length_cons] <;> omega

/-- R90, R94: the tree of a table with some count not 0: one node is left, the last one created. -/
theorem builtTree_mergeInv {freq : FreqTable} (hpos : 0 < (countedSymbols freq).length) :
    0 < (builtTree freq).count.val ∧ MergeInv (builtTree freq) [lastNode (builtTree freq).count] := by
  obtain ⟨hcount, hleaf⟩ := builtLeaves_spec hpos
  have hle := countedSymbols_length_le freq
  have hlen := usedIndices_length (builtLeaves freq).count
  obtain ⟨r, hr⟩ := mergeLoop_spec (builtLeaves freq).count.val (MergeInv.of_leaves hleaf) (by omega) (by omega) (by omega)
  rw [← builtTree] at hr
  have hcpos : 0 < (builtTree freq).count.val := Nat.zero_lt_of_lt ((hr.mem_iff r).1 (List.mem_singleton.2 rfl)).1
  refine ⟨hcpos, ?_⟩
  rwa [List.mem_singleton.1 (hr.last_mem hcpos)]

/-- R90: with some count not 0 BUILD_TREE installs the tree it built, at the last node created. -/
theorem exec_buildTree_of_count {s : State} {a : Symbol} (herr : s.err = 0) (ha : s.freq[a] ≠ 0) :
    exec .buildTree s = .next (installTree (lastNode (builtTree s.freq).count)
      { dropTree s with node := (builtTree s.freq).node, nodeCount := (builtTree s.freq).count }) := by
  change whenNoError s (buildTree s) = _
  rw [whenNoError_of_zero herr, buildTree, if_neg]
  intro hall
  exact ha (of_decide_eq_true (List.all_eq_true.1 hall a (List.mem_finRange a)))

end Sys2Proof.Machine

namespace Sys2Proof.Proofs

open Sys2Proof Sys2Proof.Machine

/-- Settles O21: the merge loop's invariant at its end, where the queue holds the root alone. -/
theorem buildTreeMergesTheTwoSmallestKeys : Obligations.BuildTreeMergesTheTwoSmallestKeys := by
  unfold Obligations.BuildTreeMergesTheTwoSmallestKeys
  intro s herr hsent
  refine ⟨_, exec_buildTree_of_count herr (hsent.trans_ne one_ne_zero), ?_⟩
  obtain ⟨hpos, hinv⟩ := builtTree_mergeInv
    (List.length_pos_of_mem (mem_countedSymbols.2 (hsent.symm ▸ Nat.one_pos : 0 < s.freq[sentinel])))
  generalize builtTree s.freq = b at hpos hinv ⊢
  refine ⟨fun k hk hint => ?_, Nat.sub_add_cancel hpos, fun j hj hne => ?_⟩
  · obtain ⟨hl, hr, hlr, hw, hrest⟩ := hinv.merged k hk hint
    exact ⟨hl, hr, hlr, hw, hrest⟩
  · have hout : ¬ QueuedBelow b.node b.count.val j := fun h => hne (List.mem_singleton.1 ((hinv.mem_iff j).2 h))
    simp only [QueuedBelow, not_and, not_forall, exists_prop] at hout
    obtain ⟨k, hk, hint, hchild⟩ := hout hj
    exact ⟨k, hk, hint, Decidable.or_iff_not_imp_left.2 fun hl => not_not.1 (hchild hl)⟩

end Sys2Proof.Proofs
end

section
/-! PROOFS. The codes GEN_CODES leaves for a valid tree (R97, R98). The code of a leaf's symbol is its path, so R98 is a fact
about the paths of a tree with an internal root. -/

namespace Sys2Proof.Machine

/-- R85, R97, R99: on a valid tree GEN_CODES writes the tree's code table. -/
theorem exec_genCodes_of_isTree {s : State} {t : CodeTree} (herr : s.err = 0) (hvalid : s.treeValid = true)
    (h : IsTree s.node s.root s.nodeCount t) :
    exec .genCodes s = .next { s with code := codeTableOf t, codesValid := true } := by
  change whenNoError s (genCodes s) = _
  rw [whenNoError_of_zero herr, genCodes, if_pos hvalid, walk_root h]

namespace IsTree

variable {mem : NodeMem} {root : NodeIdx} {count : NodeCount} {t : CodeTree}

/-- R98: no code is empty, since the root is internal. -/
theorem codeBits_ne_nil (h : IsTree mem root count t) {a : Symbol} (ha : a ∈ t.leaves) :
    codeBits (codeTableOf t)[a] ≠ [] := by
  rw [codeBits_codeTableOf h ha]
  exact CodeTree.path?_ne_nil h.root_internal (CodeTree.path?_of_mem ha)

/-- R98: a code that is a prefix of another is the same symbol's. -/
theorem codeBits_prefix_free (h : IsTree mem root count t) {a b : Symbol} (ha : a ∈ t.leaves) (hb : b ∈ t.leaves)
    (hpre : codeBits (codeTableOf t)[a] <+: codeBits (codeTableOf t)[b]) : a = b := by
  rw [codeBits_codeTableOf h ha, codeBits_codeTableOf h hb] at hpre
  exact CodeTree.path?_prefix_free (CodeTree.path?_of_mem ha) (CodeTree.path?_of_mem hb) hpre

end IsTree

end Sys2Proof.Machine

namespace Sys2Proof.Proofs

open Sys2Proof Sys2Proof.Machine

/-- Settles O25: the next state's table is `codeTableOf T`, whose valid entries are those of `T`'s leaves and hold their
paths. -/
theorem generatedCodesArePrefixFree : Obligations.GeneratedCodesArePrefixFree := by
  unfold Obligations.GeneratedCodesArePrefixFree
  intro s T herr hvalid h
  refine ⟨_, exec_genCodes_of_isTree herr hvalid h, codeTableOf_valid T, fun a ha => ?_, fun a b hne ha hb hpre => ?_⟩
  · exact h.codeBits_ne_nil ((codeTableOf_valid T a).1 ha)
  · exact hne (h.codeBits_prefix_free ((codeTableOf_valid T a).1 ha) ((codeTableOf_valid T b).1 hb) hpre)

end Sys2Proof.Proofs
end

section
/-! PROOFS. DECODE_BIT and DECODE_RUN (R117 to R120) on an open sink: what the decoder reads, writes and moves is a `Decoding`
taken from the state and stored back, and a run of DECODE_RUN's loop is the same transitions issued one at a time. -/

namespace Sys2Proof.Machine

/-! ## Issuing words -/

/-- R85: issuing a legal word executes its command. -/
theorem hostStep_issue {w : Word} {i : Instr} (h : decode w = .command i) (s : State) :
    hostStep (.issue w) s = exec i s := by
  rw [hostStep, issue, h]

/-! ## The decoder's part of a state -/

/-- What the decoder works on in a state whose streams are `r` and `d` (R116). -/
def decodingOf (s : State) (r : BitSource) (d : BitSink) : Decoding :=
  { src := r, snk := d, decState := s.decState, cur := s.cur, decSyms := s.decSyms }

theorem decodingOf_store {s : State} {r : BitSource} {d : BitSink} (hsrc : s.src = some r) (hsnk : s.snk = some d) :
    (decodingOf s r d).store s = s := by
  rw [Decoding.store, decodingOf, ← hsrc, ← hsnk]

/-- What a command with word `w` answers once the decoder has run: its work is stored either way (R13, R126). -/
def Ran.stored (w : Word) (s : State) : Ran Decoding Unit → Result
  | .done _ d => .next (d.store s)
  | .raised e d => raise e w (d.store s)

theorem Ran.stored_done (w : Word) (s : State) (u : Unit) (d : Decoding) :
    (Ran.done u d).stored w s = .next (d.store s) := rfl

theorem Ran.stored_raised (w : Word) (s : State) (e : Err) (d : Decoding) :
    (Ran.raised e d).stored w s = .next (errorEntry e w (d.store s)) := rfl

section
variable {s : State} {r : BitSource} {d : BitSink} (herr : s.err = 0) (hvalid : s.treeValid = true)
  (hsrc : s.src = some r) (hsnk : s.snk = some d) (hopen : d.closed = false)
include hvalid hsrc hsnk hopen

theorem decoding_of_open (w : Word) (run : Decoding → Ran Decoding Unit) (hs : s.decState ≠ .done) :
    decoding w s run = (run (decodingOf s r d)).stored w s := by
  rw [decoding, if_pos hvalid, if_neg hs, needOpenSink_of_open w hsnk hopen, needSource_of_some hsrc]
  unfold decodingOf
  cases run _ <;> rfl

include herr

/-- R118: with a tree and its streams DECODE_BIT is one transition. -/
theorem exec_decodeBit_of_open (hs : s.decState ≠ .done) :
    exec .decodeBit s = (transition s.node s.root (decodingOf s r d)).stored (encode .decodeBit) s :=
  (whenNoError_of_zero herr _).trans (decoding_of_open hvalid hsrc hsnk hopen _ _ hs)

/-- R117, R118: with a bit next DECODE_BIT moves to the child it names. -/
theorem exec_decodeBit_of_drop (hs : s.decState ≠ .done) {b : Bool} {rest : List Bool}
    (hbits : r.bits.drop r.pos = b :: rest) :
    exec .decodeBit s = .next ((arrive s.node s.root (if b then s.node[s.cur].right else s.node[s.cur].left)
      { decodingOf s r d with src := { r with pos := r.pos + 1 } }).store s) := by
  rw [exec_decodeBit_of_open herr hvalid hsrc hsnk hopen hs, transition_of_drop (d := decodingOf s r d) hbits]
  rfl

/-- R118: with no bit left DECODE_BIT only raises TRUNCATED_BODY. -/
theorem exec_decodeBit_of_exhausted (hs : s.decState ≠ .done) (hend : r.bits.length ≤ r.pos) :
    exec .decodeBit s = .next (errorEntry .truncatedBody (encode .decodeBit) s) := by
  rw [exec_decodeBit_of_open herr hvalid hsrc hsnk hopen hs, transition_exhausted (d := decodingOf s r d) hend,
    Ran.stored_raised, decodingOf_store hsrc hsnk]

/-- R119: with a tree and its streams DECODE_RUN is its loop, which in `DONE` is over at once. -/
theorem exec_decodeRun_of_open :
    exec .decodeRun s =
      (transitions s.node s.root r.remaining (decodingOf s r d)).stored (encode .decodeRun) s := by
  refine (whenNoError_of_zero herr _).trans ?_
  by_cases hs : s.decState = .done
  · rw [transitions_of_done (d := decodingOf s r d) _ hs, Ran.stored_done, decodingOf_store hsrc hsnk, decodeRun,
      decoding, if_pos hvalid, if_pos hs]
  · exact decoding_of_open hvalid hsrc hsnk hopen _ _ hs

end

/-- R118: DECODE_BIT on the state that a decoder's work has been stored in. -/
theorem hostStep_decodeBit_store {s : State} {d : Decoding} (herr : s.err = 0) (hvalid : s.treeValid = true)
    (hopen : d.snk.closed = false) (hs : d.decState ≠ .done) :
    hostStep (.issue 0xC000) (d.store s) = (transition s.node s.root d).stored (encode .decodeBit) s := by
  rw [hostStep_issue (i := .decodeBit) (by decide),
    exec_decodeBit_of_open (s := d.store s) herr hvalid rfl rfl hopen hs]
  change (transition s.node s.root d).stored _ (d.store s) = _
  cases transition s.node s.root d <;> rfl

/-! ## The loop, one command at a time -/

/-- R120: a transition on a bit that is there leaves one unread bit less. -/
theorem remaining_of_transition {mem : NodeMem} {root : NodeIdx} {d d' : Decoding}
    (h : transition mem root d = .done () d') : d'.src.remaining + 1 = d.src.remaining := by
  rcases transition_cases mem root d with ⟨-, ht⟩ | ⟨b, rest, hb, ht⟩
  · simp [ht] at h
  · rw [ht, Ran.done.injEq] at h
    have hlen := congrArg List.length hb
    rw [List.length_drop, List.length_cons] at hlen
    rw [← h.2, (arrive_keeps _ _ _ _).1]
    simp only [BitSource.remaining]
    omega

/-- R119, R120: the loop's result is reached by as many issues of DECODE_BIT's word, at most one for each unread bit, and one
more when the source runs out; only the word recorded with the error differs. -/
theorem exists_decodeBits_eq_transitions {s : State} (herr : s.err = 0) (hvalid : s.treeValid = true) (k : Nat)
    (d : Decoding) (hk : d.src.remaining = k) (hopen : d.snk.closed = false) :
    ∃ n, (∃ d', transitions s.node s.root k d = .done () d' ∧ d'.decState = .done ∧ n ≤ k ∧
        runHost (List.replicate n (.issue 0xC000)) (d.store s) = .next (d'.store s)) ∨
      (∃ d', transitions s.node s.root k d = .raised .truncatedBody d' ∧ n ≤ k + 1 ∧
        runHost (List.replicate n (.issue 0xC000)) (d.store s) =
          .next (errorEntry .truncatedBody (encode .decodeBit) (d'.store s))) := by
  induction k generalizing d with
  | zero =>
    by_cases hs : d.decState = .done
    · exact ⟨0, .inl ⟨d, transitions_of_done 0 hs, hs, le_rfl, rfl⟩⟩
    · have hbit := hostStep_decodeBit_store herr hvalid hopen hs
      rw [transition_exhausted (Nat.sub_eq_zero_iff_le.1 hk)] at hbit
      exact ⟨1, .inr ⟨d, by rw [transitions, if_neg hs], le_rfl, runHost_cons hbit⟩⟩
  | succ k ih =>
    by_cases hs : d.decState = .done
    · exact ⟨0, .inl ⟨d, transitions_of_done _ hs, hs, Nat.zero_le _, rfl⟩⟩
    · have hbit := hostStep_decodeBit_store herr hvalid hopen hs
      rcases transition_cases s.node s.root d with ⟨hend, -⟩ | ⟨b, rest, -, ht⟩
      · rw [BitSource.remaining] at hk
        omega
      · generalize arrive _ _ _ _ = d₁ at ht
        have hleft := remaining_of_transition ht
        obtain ⟨-, -, -, hclosed⟩ := transition_keeps (by rw [BitSource.remaining] at hk; omega) (.inl ht)
        rw [ht, Ran.stored_done] at hbit
        obtain ⟨n, ⟨d', hrun, hdone, hn, hbits⟩ | ⟨d', hrun, hn, hbits⟩⟩ := ih d₁ (by omega) (hclosed.trans hopen)
        · exact ⟨n + 1, .inl ⟨d', (transitions_succ hs ht).trans hrun, hdone, Nat.succ_le_succ hn,
            (runHost_cons hbit).trans hbits⟩⟩
        · exact ⟨n + 1, .inr ⟨d', (transitions_succ hs ht).trans hrun, Nat.succ_le_succ hn,
            (runHost_cons hbit).trans hbits⟩⟩

end Sys2Proof.Machine

namespace Sys2Proof.Proofs

open Sys2Proof Sys2Proof.Machine

/-- Settles O39: the command is the one transition, which is `arrive` at the child the bit names, or finds no bit. -/
theorem decodeBitMakesOneTransition : Obligations.DecodeBitMakesOneTransition := by
  unfold Obligations.DecodeBitMakesOneTransition
  intro s r d herr hvalid hs hsrc hsnk hopen
  refine ⟨fun b rest n hbits hn => ?_, fun hbits => ?_⟩
  · have hexec := exec_decodeBit_of_drop herr hvalid hsrc hsnk hopen hs hbits
    rw [← hn] at hexec
    refine ⟨fun hk => ?_, fun hk hsym => ?_, fun hk hsym => ?_⟩
    · rw [hexec, arrive_internal _ _ hk, Decoding.store, decodingOf, ← hsnk]
    · rw [hexec, arrive_sentinel _ _ hk hsym, Decoding.store, decodingOf, ← hsnk]
    · rw [hexec, arrive_symbol _ _ hk hsym, bump_eq, ← hopen]
      rfl
  · exact exec_decodeBit_of_exhausted herr hvalid hsrc hsnk hopen hs (List.drop_eq_nil_iff.1 hbits)

/-- Settles O41: the loop's transitions, issued one at a time. -/
theorem decodeRunRepeatsDecodeBit : Obligations.DecodeRunRepeatsDecodeBit := by
  unfold Obligations.DecodeRunRepeatsDecodeBit
  intro s r d herr hvalid hsrc hsnk hopen
  have hexec := exec_decodeRun_of_open herr hvalid hsrc hsnk hopen
  obtain ⟨n, ⟨d', hrun, hdone, hn, hbits⟩ | ⟨d', hrun, hn, hbits⟩⟩ :=
    exists_decodeBits_eq_transitions herr hvalid r.remaining (decodingOf s r d) rfl hopen
  all_goals
    rw [decodingOf_store hsrc hsnk] at hbits
    rw [hrun] at hexec
  · refine ⟨n, _, hbits, .inl ⟨herr, hdone, hn⟩, ?_⟩
    rw [hexec, if_pos (show (d'.store s).err = 0 from herr)]
    rfl
  · exact ⟨n, _, hbits, .inr ⟨rfl, hn⟩, hexec⟩

end Sys2Proof.Proofs
end

section
/-! PROOFS. BUILD_TREE's tree (R25, R90, R95). At every pass of the merge loop the queued nodes are the roots of trees that
together are the nodes in use and carry the leaf symbols; the one tree left at the end is the tree of R25. -/

namespace Sys2Proof.Machine

/-! ## The leaves' symbols -/

/-- R8: there are 257 symbols. -/
theorem length_le_of_nodup {syms : List Symbol} (h : syms.Nodup) : syms.length ≤ 257 :=
  Fintype.card_fin 257 ▸ h.length_le_card

/-- The symbols of BUILD_TREE's leaves, in the order of their indices: the counted ones, and the placeholder if there is one
(R91, R92). -/
def leafSymbols (freq : FreqTable) : List Symbol :=
  countedSymbols freq ++ if (countedSymbols freq).length = 1 then (placeholder? freq).toList else []

theorem mem_leafSymbols_of_pos {freq : FreqTable} {a : Symbol} (h : 0 < freq[a]) : a ∈ leafSymbols freq :=
  List.mem_append_left _ (mem_countedSymbols.2 h)

theorem leafSymbols_nodup (freq : FreqTable) : (leafSymbols freq).Nodup := by
  have hcounted : (countedSymbols freq).Nodup := (List.nodup_finRange 257).filter _
  rw [leafSymbols]
  split
  · refine List.nodup_append.2 ⟨hcounted, by cases placeholder? freq <;> simp, fun a ha b hb hab => ?_⟩
    have hb0 : freq[b] = 0 := (placeholder?_eq_some.1 (Option.mem_toList.1 hb)).1
    exact (mem_countedSymbols.1 ha).ne' (hab ▸ hb0)
  · rwa [List.append_nil]

/-- R43, R91: behind the counted symbols' leaves every entry is still 0. -/
theorem addLeaves_empty_rest {freq : FreqTable} {i : NodeIdx} (hi : (countedSymbols freq).length ≤ i.val) :
    (addLeaves freq { node := emptyNodes, count := 0 } allSymbols).node[i] = Node.zero := by
  have hle := countedSymbols_length_le freq
  rw [countedSymbols_eq] at hi hle
  obtain ⟨-, hnode⟩ := addLeaves_spec freq allSymbols { node := emptyNodes, count := 0 }
    ((Nat.zero_add _).trans_le (hle.trans (by decide)))
  refine (hnode i).trans ((if_neg (Nat.not_lt_zero _)).trans ?_)
  simp only [Fin.val_zero, Nat.sub_zero, List.getElem?_eq_none hi, Fin.getElem_fin, emptyNodes_getElem]

/-- The first entries of a memory are the leaves of some symbols, in order, and the other entries are 0. -/
structure LeavesOf (freq : FreqTable) (b : Builder) (syms : List Symbol) : Prop where
  count_eq : b.count.val = syms.length
  leaf : ∀ (i : NodeIdx) (a : Symbol), syms[i.val]? = some a → b.node[i] = leafNode a freq[a]
  rest_zero : ∀ i : NodeIdx, syms.length ≤ i.val → b.node[i] = Node.zero

/-- R90, R91: one more leaf, at the next index. -/
theorem LeavesOf.add {freq : FreqTable} {b : Builder} {syms : List Symbol} (h : LeavesOf freq b syms) (p : Symbol)
    (hroom : b.count.val < 513) : LeavesOf freq (b.add (leafNode p freq[p])) (syms ++ [p]) := by
  obtain ⟨hcount, hleaf, hzero⟩ := h
  have hget (i : NodeIdx) : (b.add (leafNode p freq[p])).node[i] =
      if (⟨b.count.val, hroom⟩ : NodeIdx) = i then leafNode p freq[p] else b.node[i] := by
    rw [add_of_room _ hroom]
    exact set_get b.node ⟨b.count.val, hroom⟩ i _
  simp only [Fin.ext_iff, hcount] at hget
  refine ⟨?_, fun i a hi => ?_, fun i hi => ?_⟩
  · rw [add_of_room _ hroom, List.length_append, List.length_singleton, ← hcount]
  · rcases Nat.lt_or_ge i.val syms.length with hlt | hge
    · rw [List.getElem?_append_left hlt] at hi
      rw [hget, if_neg hlt.ne', hleaf i a hi]
    · rw [List.getElem?_append_right hge, List.getElem?_singleton, Option.ite_none_right_eq_some] at hi
      obtain ⟨hi, hpa⟩ := hi
      rw [hget, if_pos (by omega), Option.some.inj hpa]
  · rw [List.length_append, List.length_singleton] at hi
    rw [hget, if_neg (by omega), hzero i (by omega)]

/-- R91, R92: what BUILD_TREE starts its merges from. -/
theorem builtLeaves_leavesOf (freq : FreqTable) : LeavesOf freq (builtLeaves freq) (leafSymbols freq) := by
  obtain ⟨hcount, hleaf⟩ := addLeaves_empty freq
  have hcounted : LeavesOf freq (addLeaves freq { node := emptyNodes, count := 0 } allSymbols) (countedSymbols freq) :=
    ⟨hcount, hleaf, fun i => addLeaves_empty_rest⟩
  rw [builtLeaves, leafSymbols, addPlaceholder, hcount]
  split
  · next hone =>
    obtain ⟨p, hp⟩ := exists_placeholder hone
    have hp0 : freq[p] = 0 := (placeholder?_eq_some.1 hp).1
    have hadd := hcounted.add p (by omega)
    rw [hp0] at hadd
    rw [hp]
    exact hadd
  · rwa [List.append_nil]

/-! ## The forest of a pass -/

/-- The queued nodes `q` are the roots of the trees `ts` that the memory holds; their nodes are the entries in use, each once,
and their leaf symbols are `syms`; the other entries are 0; the last node created is queued. -/
structure Forest (b : Builder) (q : List NodeIdx) (syms : List Symbol) (ts : List CodeTree) : Prop where
  roots : (ts.map CodeTree.root).Perm q
  held : ∀ t ∈ ts, t.heldBy b.node = true
  indices_nodup : (ts.flatMap CodeTree.indices).Nodup
  indices_iff : ∀ i : NodeIdx, i ∈ ts.flatMap CodeTree.indices ↔ i.val < b.count.val
  leaves_perm : (ts.flatMap CodeTree.leaves).Perm syms
  rest_zero : ∀ i : NodeIdx, b.count.val ≤ i.val → b.node[i] = Node.zero
  last_mem : lastNode b.count ∈ q

/-- A queued node is the root of one of the trees, and the other queued nodes are the roots of the others. -/
theorem exists_perm_cons_of_mem_roots {ts : List CodeTree} {q : List NodeIdx} {a : NodeIdx}
    (h : (ts.map CodeTree.root).Perm q) (ha : a ∈ q) :
    ∃ t ts', t.root = a ∧ ts.Perm (t :: ts') ∧ (ts'.map CodeTree.root).Perm (q.erase a) := by
  obtain ⟨t, ht, rfl⟩ := List.mem_map.1 (h.mem_iff.2 ha)
  obtain ⟨u, v, rfl⟩ := List.append_of_mem ht
  refine ⟨t, u ++ v, rfl, List.perm_middle, List.Perm.cons_inv (a := t.root) ?_⟩
  exact ((List.perm_middle.map _).symm.trans h).trans (List.perm_cons_erase ha)

namespace Forest

variable {b : Builder} {q : List NodeIdx} {syms : List Symbol} {ts : List CodeTree}

/-- The order of the trees is of no matter. -/
theorem perm {ts' : List CodeTree} (h : Forest b q syms ts) (hp : ts.Perm ts') : Forest b q syms ts' where
  roots := (hp.map _).symm.trans h.roots
  held t ht := h.held t (hp.mem_iff.2 ht)
  indices_nodup := (hp.flatMap_right _).nodup_iff.1 h.indices_nodup
  indices_iff i := (hp.flatMap_right _).mem_iff.symm.trans (h.indices_iff i)
  leaves_perm := (hp.flatMap_right _).symm.trans h.leaves_perm
  rest_zero := h.rest_zero
  last_mem := h.last_mem

/-- R91: before the first merge every leaf is a tree of its own. -/
theorem of_leavesOf {freq : FreqTable} {b : Builder} {syms : List Symbol} (h : LeavesOf freq b syms)
    (hpos : 0 < syms.length) (hnd : syms.Nodup) :
    Forest b (usedIndices b.count) syms ((usedIndices b.count).map fun i => .leaf i b.node[i].sym) := by
  obtain ⟨hcount, hleaf, hzero⟩ := h
  have hnode (i : NodeIdx) (hi : i.val < syms.length) : b.node[i] = leafNode syms[i.val] freq[syms[i.val]] :=
    hleaf i _ (List.getElem?_eq_getElem hi)
  have hsym (i : NodeIdx) (hi : i.val < syms.length) : b.node[i].sym = syms[i.val] := congrArg Node.sym (hnode i hi)
  have hsyms : ((usedIndices b.count).map fun i => b.node[i].sym).Perm syms := by
    refine (List.perm_ext_iff_of_nodup ((usedIndices_nodup _).map_on fun i hi j hj hij => ?_) hnd).2 fun a => ?_
    · rw [mem_usedIndices, hcount] at hi hj
      rw [hsym i hi, hsym j hj] at hij
      exact Fin.ext (hnd.getElem_inj_iff.1 hij)
    · rw [List.mem_map, List.mem_iff_getElem]
      simp only [mem_usedIndices, hcount]
      constructor
      · rintro ⟨i, hi, rfl⟩
        exact ⟨i.val, hi, (hsym i hi).symm⟩
      · rintro ⟨n, hn, rfl⟩
        exact ⟨⟨n, by omega⟩, hn, hsym ⟨n, by omega⟩ hn⟩
  refine ⟨by simp [Function.comp_def], fun t ht => ?_, ?_, fun i => ?_, ?_, fun i hi => hzero i (hcount ▸ hi), ?_⟩
  · obtain ⟨i, hi, rfl⟩ := List.mem_map.1 ht
    rw [mem_usedIndices, hcount] at hi
    rw [CodeTree.heldBy_leaf, hnode i hi]
    exact ⟨rfl, rfl, rfl, rfl⟩
  · simpa [List.flatMap_map, CodeTree.indices] using usedIndices_nodup b.count
  · simp [List.flatMap_map, CodeTree.indices, mem_usedIndices]
  · simpa [List.flatMap_map, CodeTree.leaves, ← List.map_eq_flatMap] using hsyms
  · exact mem_usedIndices.2 (Nat.sub_lt (hcount ▸ hpos) Nat.one_pos)

/-- R94: a merge makes one tree of two, in any memory that has the merged node at `k` and is as it was elsewhere. -/
theorem merge_of_get (h : Forest b q syms ts) {a c k : NodeIdx} (ha : a ∈ q) (hc : c ∈ q.erase a)
    (hcount : b.count.val = k.val) {mem' : NodeMem} (hnew : mem'[k] = mergedNode b.node a c)
    (hsame : ∀ i : NodeIdx, i ≠ k → mem'[i] = b.node[i]) :
    ∃ ts', Forest { node := mem', count := ⟨k.val + 1, by omega⟩ } (k :: (q.erase a).erase c) syms ts' := by
  obtain ⟨ta, ts₁, rfl, hts, hroots₁⟩ := exists_perm_cons_of_mem_roots h.roots ha
  obtain ⟨tc, ts₂, rfl, hts₁, hroots₂⟩ := exists_perm_cons_of_mem_roots hroots₁ hc
  obtain ⟨-, hheld, hnodup, hiff, hleaves, hzero, -⟩ := h.perm (hts.trans (hts₁.cons ta))
  simp only [List.flatMap_cons] at hnodup hiff hleaves
  have hk : k ∉ ta.indices ++ (tc.indices ++ ts₂.flatMap CodeTree.indices) := fun hmem =>
    (hcount ▸ (hiff k).1 hmem).false
  have hheld' (t : CodeTree) (ht : t ∈ ta :: tc :: ts₂) : t.heldBy mem' = true := by
    refine CodeTree.heldBy_congr (fun i hi => hsame i ?_) (hheld t ht)
    rintro rfl
    exact hk (by simpa using List.mem_flatMap_of_mem ht hi)
  refine ⟨.node k ta tc :: ts₂, ⟨hroots₂.cons k, fun t ht => ?_, ?_, fun i => ?_, ?_, fun i hi => ?_, ?_⟩⟩
  · rcases List.mem_cons.1 ht with rfl | ht
    · rw [CodeTree.heldBy_node, hnew]
      exact ⟨⟨rfl, rfl, rfl, rfl⟩, hheld' ta (by simp), hheld' tc (by simp)⟩
    · exact hheld' t (by simp [ht])
  · simpa [CodeTree.indices, List.flatMap_cons, List.append_assoc] using List.nodup_cons.2 ⟨hk, hnodup⟩
  · have := hiff i
    simp only [List.flatMap_cons, CodeTree.indices, List.cons_append, List.append_assoc, List.mem_cons, this,
      Fin.ext_iff]
    omega
  · simpa [CodeTree.leaves, List.flatMap_cons, List.append_assoc] using hleaves
  · simp only at hi
    rw [hsame i (by rintro rfl; omega)]
    exact hzero i (by omega)
  · exact List.mem_cons_self

/-- R94: a pass of the loop. -/
theorem merge (h : Forest b q syms ts) {a c : NodeIdx} (ha : a ∈ q) (hc : c ∈ q.erase a) (hroom : b.count.val < 513) :
    ∃ ts', Forest { node := b.node.set b.count.val (mergedNode b.node a c), count := ⟨b.count.val + 1, by omega⟩ }
      (⟨b.count.val, hroom⟩ :: (q.erase a).erase c) syms ts' := by
  have hget (i : NodeIdx) := set_get b.node ⟨b.count.val, hroom⟩ i (mergedNode b.node a c)
  exact h.merge_of_get (k := ⟨b.count.val, hroom⟩) ha hc rfl ((hget _).trans (if_pos rfl))
    fun i hi => (hget i).trans (if_neg hi.symm)

/-- R94: with one node queued one tree is left, under the last node created. -/
theorem of_single {r : NodeIdx} (h : Forest b [r] syms ts) : ∃ t, Forest b [lastNode b.count] syms [t] := by
  obtain ⟨t, rfl⟩ : ∃ t, ts = [t] := List.length_eq_one_iff.1 (by simpa using h.roots.length_eq)
  exact ⟨t, by rwa [List.mem_singleton.1 h.last_mem]⟩

/-- R25: one tree with two leaves or more, among them the sentinel's, is the tree that the memory holds. -/
theorem isTree {r : NodeIdx} {t : CodeTree} (h : Forest b [r] syms [t]) (hnd : syms.Nodup) (hlen : 2 ≤ syms.length)
    (hs : sentinel ∈ syms) : IsTree b.node r b.count t := by
  obtain ⟨hroots, hheld, hnodup, hiff, hleaves, hzero, -⟩ := h
  simp only [List.flatMap_singleton] at hnodup hiff hleaves
  have hll := hleaves.length_eq
  exact {
    held := hheld t List.mem_cons_self
    root_eq := by simpa using hroots
    root_internal := by
      cases t with
      | leaf => simp only [CodeTree.leaves, List.length_singleton] at hll; omega
      | node => rfl
    indices_nodup := hnodup
    indices_iff := hiff
    depth_le := by
      have hmax := length_le_of_nodup hnd
      have := t.depth_lt_leaves
      rw [maxDepth]
      omega
    leaves_nodup := hleaves.nodup_iff.2 hnd
    sentinel_mem := hleaves.mem_iff.2 hs
    rest_zero := hzero }

end Forest

/-- R94: with passes and room enough the loop leaves one tree. -/
theorem mergeLoop_forest {b : Builder} {q : List NodeIdx} {syms : List Symbol} {ts : List CodeTree} (fuel : Nat)
    (h : Forest b q syms ts) (hfuel : q.length ≤ fuel + 1) (hroom : b.count.val + q.length ≤ 514) :
    ∃ t, Forest (mergeLoop fuel b q) [lastNode (mergeLoop fuel b q).count] syms [t] := by
  have hpos : 0 < q.length := List.length_pos_of_mem h.last_mem
  induction fuel generalizing b q ts with
  | zero =>
    obtain ⟨r, rfl⟩ := List.length_eq_one_iff.1 (show q.length = 1 by omega)
    exact h.of_single
  | succ fuel ih =>
    by_cases hone : q.length = 1
    · obtain ⟨r, rfl⟩ := List.length_eq_one_iff.1 hone
      rw [mergeLoop_single]
      exact h.of_single
    · obtain ⟨a, c, ha, hc, hloop⟩ := mergeLoop_succ (b := b) fuel (show 1 < q.length by omega) (by omega)
      obtain ⟨hamem, -, hlen₁, -⟩ := extractMin_spec ha
      obtain ⟨hcmem, -, hlen₂, -⟩ := extractMin_spec hc
      obtain ⟨ts', h'⟩ := h.merge hamem hcmem (by omega)
      rw [hloop]
      refine ih h' ?_ ?_ ?_ <;> simp only [List.length_cons] <;> omega

/-- R25, R90, R95: with the sentinel counted, the nodes BUILD_TREE creates are one tree of R25, over its leaf symbols. -/
theorem exists_builtTree_isTree {freq : FreqTable} (hs : 0 < freq[sentinel]) :
    ∃ T, IsTree (builtTree freq).node (lastNode (builtTree freq).count) (builtTree freq).count T ∧
      T.leaves.Perm (leafSymbols freq) := by
  have hmem : sentinel ∈ leafSymbols freq := mem_leafSymbols_of_pos hs
  obtain ⟨hlength, -⟩ := builtLeaves_spec (List.length_pos_of_mem (mem_countedSymbols.2 hs))
  have hleaves := builtLeaves_leavesOf freq
  have hcount := hleaves.count_eq
  have hle := countedSymbols_length_le freq
  have hused := usedIndices_length (builtLeaves freq).count
  have hforest := Forest.of_leavesOf hleaves (List.length_pos_of_mem hmem) (leafSymbols_nodup freq)
  obtain ⟨T, hT⟩ := mergeLoop_forest (builtLeaves freq).count.val hforest (by omega) (by omega)
  rw [← builtTree] at hT
  refine ⟨T, hT.isTree (leafSymbols_nodup freq) (by omega) hmem, ?_⟩
  simpa only [List.flatMap_singleton] using hT.leaves_perm

/-- R90, R95: with the sentinel counted BUILD_TREE leaves a tree over its leaf symbols, and both streams as they were. -/
theorem exec_buildTree_of_sentinel {s : State} (herr : s.err = 0) (hs : 0 < s.freq[sentinel]) :
    ∃ (t : State) (T : CodeTree), exec .buildTree s = .next t ∧ IsTree t.node t.root t.nodeCount T ∧
      T.leaves.Perm (leafSymbols s.freq) ∧ t.treeValid = true ∧ t.err = 0 ∧ t.params = s.params ∧ t.src = s.src ∧
      t.snk = s.snk := by
  obtain ⟨T, hT, hleaves⟩ := exists_builtTree_isTree hs
  exact ⟨_, T, exec_buildTree_of_count herr hs.ne', hT, hleaves, rfl, herr, rfl, rfl, rfl⟩

end Sys2Proof.Machine
end

section
/-! PROOFS. COMPRESS (R80, R145): what its commands do on a source of bytes whose counts fit, and what they do after a count
that does not. -/

namespace Sys2Proof.Machine

/-! ## Lists of words -/

/-- R85: a legal word whose command answers a next state, then the other operations. -/
theorem runHost_issue_cons {w : Word} {i : Instr} {ops : List HostOp} {s t : State} (hw : decode w = .command i)
    (h : exec i s = .next t) : runHost (.issue w :: ops) s = runHost ops t :=
  runHost_cons ((hostStep_issue hw s).trans h)

/-- A state in which the host has bound a source of the given bits and an empty sink (R143). -/
def bindStreams (bits : List Bool) (s : State) : State :=
  { s with src := some (BitSource.bind bits), snk := some BitSink.empty }

theorem runHost_bindSource_bindSink (bits : List Bool) (ops : List HostOp) (s : State) :
    runHost (.bindSource bits :: .bindSink :: ops) s = runHost ops (bindStreams bits s) := rfl

/-- R125: while an error is recorded every command but CLEAR has no effect. -/
theorem exec_of_err_ne {i : Instr} {s : State} (hi : i ≠ .clear) (herr : s.err ≠ 0) : exec i s = .next s := by
  cases i with
  | clear => exact absurd rfl hi
  | encodeSym arg =>
    change execEncodeSym arg s = _
    rw [execEncodeSym]
    cases argSymbol? arg with
    | none => exact illegalWord_of_err_ne herr _
    | some a => exact whenNoError_of_ne herr _
  | _ => exact whenNoError_of_ne herr _

/-- R125: while an error is recorded words without CLEAR's have no effect. -/
theorem runHost_issues_of_err_ne {words : List Word} {s : State} (hwords : ∀ w ∈ words, decode w ≠ .command .clear)
    (herr : s.err ≠ 0) : runHost (words.map .issue) s = .next s := by
  induction words with
  | nil => rfl
  | cons w words ih =>
    have hstep : hostStep (.issue w) s = .next s := by
      cases hd : decode w with
      | command i =>
        rw [hostStep_issue hd]
        exact exec_of_err_ne (fun hi => hwords w List.mem_cons_self (hi ▸ hd)) herr
      | illegal why => exact (issue_of_illegal hd s).trans (illegalWord_of_err_ne herr w)
    rw [List.map_cons, runHost_cons hstep]
    exact ih fun v hv => hwords v (List.mem_cons_of_mem w hv)

/-! ## Counts that fit -/

/-- R88: either every count stays below the limit, or some byte is the first whose count is full. -/
theorem counts_fit_or_exists_full {limit : Nat} (hpos : 0 < limit) (bytes : List Nat) :
    (∀ b, bytes.count b < limit) ∨ ∃ before b after, bytes = before ++ b :: after ∧ (∀ c, before.count c < limit) ∧
      before.count b = limit - 1 := by
  induction bytes using List.reverseRecOn with
  | nil => exact .inl fun _ => hpos
  | append_singleton bytes b ih =>
    rcases ih with hfit | ⟨before, c, after, rfl, hfull⟩
    · by_cases hb : bytes.count b = limit - 1
      · exact .inr ⟨bytes, b, [], rfl, hfit, hb⟩
      · refine .inl fun c => ?_
        have hc := hfit c
        rw [List.count_append, List.count_singleton]
        split
        · next hbc =>
          rw [← beq_iff_eq.1 hbc] at hc ⊢
          omega
        · exact hc
    · exact .inr ⟨before, c, after ++ [b], by simp, hfull⟩

/-- R80: no command of COMPRESS is CLEAR. -/
theorem decode_compressWords_tail_ne : ∀ w ∈ compressWords.tail, decode w ≠ .command .clear := by
  intro w hw hclear
  have hcommands : compressWords.tail.map decode =
      [Instr.buildTree, .genCodes, .writeMagic, .writeTree, .encodeScan, .closeOut].map .command := rfl
  have hmem := List.mem_map_of_mem (f := decode) hw
  rw [hclear, hcommands] at hmem
  simp at hmem

/-- R88, R125: COMPRESS ends without an error only if the counts fit: the error of a full count stays. -/
theorem counts_fit_of_runHost_compress {s t : State} {r : BitSource} (herr : s.err = 0) (hsrc : s.src = some r)
    (h : runHost (compressWords.map .issue) s = .next t) (ht : t.err = 0) (b : Nat) :
    (wholeBytes r.bits).count b < 2 ^ s.params.countW := by
  rcases counts_fit_or_exists_full (Nat.two_pow_pos s.params.countW) (wholeBytes r.bits) with
    hfit | ⟨before, c, after, hbytes, hfit, hfull⟩
  · exact hfit b
  · obtain ⟨u, hscan, hu⟩ : ∃ u, exec .freqScan s = .next u ∧ u.err ≠ 0 :=
      ⟨_, exec_freqScan_of_raised herr hsrc (scanSource_eq_raised hbytes hfit hfull), code_ne_zero .countOverflow⟩
    change runHost (.issue 0x2000 :: compressWords.tail.map .issue) s = _ at h
    rw [runHost_issue_cons (i := .freqScan) (by decide) hscan,
      runHost_issues_of_err_ne decode_compressWords_tail_ne hu, Host.Outcome.next.injEq] at h
    exact absurd ht (h ▸ hu)

theorem count_map_toNat_lt {bytes : List (BitVec 8)} {limit : Nat} (hfit : ∀ b, bytes.count b < limit) (n : Nat) :
    (bytes.map (·.toNat)).count n < limit := by
  by_cases hn : n ∈ bytes.map (·.toNat)
  · obtain ⟨b, -, rfl⟩ := List.mem_map.1 hn
    rw [List.count_map_of_injective _ _ fun _ _ => BitVec.eq_of_toNat_eq]
    exact hfit b
  · rw [List.count_eq_zero_of_not_mem hn]
    exact Nat.zero_lt_of_lt (hfit 0)

/-! ## FREQ_SCAN, BUILD_TREE, GEN_CODES -/

/-- A counted byte is one of the counted symbols. -/
theorem countsOf_pos {bytes : List Nat} {b : Nat} (hb : b < 256) (h : b ∈ bytes) : 0 < (countsOf bytes)[byteSymbol b] := by
  rw [countsOf_byteSymbol, byteSymbol_val hb]
  exact List.count_pos_iff.2 h

theorem countsOf_sentinel (bytes : List Nat) : (countsOf bytes)[sentinel] = 1 := countsOf_getElem bytes 256 (by decide)

/-- R87, R90, R97: when the counts fit, FREQ_SCAN, BUILD_TREE and GEN_CODES leave a tree with a leaf for every byte of the
source, and its codes. -/
theorem runHost_analyze {s : State} {r : BitSource} (herr : s.err = 0) (hsrc : s.src = some r)
    (hfit : ∀ b, (wholeBytes r.bits).count b < 2 ^ s.params.countW) (ops : List HostOp) :
    ∃ (t : State) (T : CodeTree),
      runHost (.issue 0x2000 :: .issue 0x3000 :: .issue 0x4000 :: ops) s = runHost ops t ∧
      IsTree t.node t.root t.nodeCount T ∧ (∀ b ∈ wholeBytes r.bits, byteSymbol b ∈ T.leaves) ∧
      t.err = 0 ∧ t.treeValid = true ∧ t.codesValid = true ∧ t.code = codeTableOf T ∧ t.params = s.params ∧
      t.src = some { r with pos := 8 * (r.bits.length / 8) } ∧ t.snk = s.snk := by
  obtain ⟨c, hc, hsrc', hfreq⟩ : ∃ c, scanSource s.params.countW r = .done () c ∧
      c.src = { r with pos := 8 * (r.bits.length / 8) } ∧ c.freq = countsOf (wholeBytes r.bits) :=
    ⟨_, scanSource_eq_done hfit, rfl, rfl⟩
  have hone : c.freq[sentinel] = 1 := hfreq ▸ countsOf_sentinel _
  have hscan := exec_freqScan_of_done herr hsrc hc
  obtain ⟨t, T, hbuild, hT, hleaves, hvalid, hterr, hparams, htsrc, htsnk⟩ :=
    exec_buildTree_of_sentinel (s := c.store s) herr (Nat.one_pos.trans_eq hone.symm)
  rw [Counting.store_freq, hfreq] at hleaves
  have hgen := exec_genCodes_of_isTree hterr hvalid hT
  refine ⟨{ t with code := codeTableOf T, codesValid := true }, T, ?_, hT, fun b hb => ?_, hterr, hvalid, rfl, rfl, hparams,
    htsrc.trans (congrArg some hsrc'), htsnk⟩
  · rw [runHost_issue_cons (i := .freqScan) (by decide) hscan, runHost_issue_cons (i := .buildTree) (by decide) hbuild,
      runHost_issue_cons (i := .genCodes) (by decide) hgen]
  · exact hleaves.mem_iff.2 (mem_leafSymbols_of_pos (countsOf_pos (lt_of_mem_wholeBytes hb) hb))

/-! ## WRITE_MAGIC, WRITE_TREE, ENCODE_SCAN, CLOSE_OUT -/

section
variable {s : State} {d : BitSink} (herr : s.err = 0) (hsnk : s.snk = some d) (hopen : d.closed = false)
include herr hsnk hopen

/-- R102: on an open sink WRITE_MAGIC appends the bits of `MAGIC`. -/
theorem exec_writeMagic_of_open :
    exec .writeMagic s = .next { s with snk := some { d with bits := d.bits ++ bitsOf 32 s.params.magic.toNat } } :=
  (whenNoError_of_zero herr _).trans (needOpenSink_of_open _ hsnk hopen _)

/-- R103: on an open sink WRITE_TREE appends the header of the tree, and counts its bits. -/
theorem exec_writeTree_of_isTree {T : CodeTree} (hvalid : s.treeValid = true)
    (hT : IsTree s.node s.root s.nodeCount T) :
    exec .writeTree s = .next { s with
      snk := some { d with bits := d.bits ++ T.header }, hdrBits := BitVec.ofNat 32 T.header.length } := by
  have hser := ser_eq (maxDepth + 1) { snk := d, hdrBits := 0 } hT.held (Nat.lt_succ_of_le hT.depth_le)
  rw [hT.root_eq] at hser
  refine (whenNoError_of_zero herr _).trans ?_
  rw [writeTree, if_pos hvalid, needOpenSink_of_open _ hsnk hopen, hser, HeaderWriter.wrote, bump_zero]

/-- R112, R113: with a code for every byte of the source and for the sentinel, ENCODE_SCAN appends the body. -/
theorem exec_encodeScan_of_valid {r : BitSource} (hcodes : s.codesValid = true) (hsrc : s.src = some r)
    (hbytes : ∀ b ∈ wholeBytes r.bits, s.code[byteSymbol b].valid = true) (hs : s.code[sentinel].valid = true) :
    exec .encodeScan s = .next { s with
      snk := some { d with bits := d.bits ++ bodyOf s.code (wholeBytes r.bits) }
      encBits := BitVec.ofNat 32 (bodyOf s.code (wholeBytes r.bits)).length
      src := some { r with pos := 8 * (r.bits.length / 8) } } := by
  refine (whenNoError_of_zero herr _).trans ?_
  rw [encodeScan, if_pos hcodes, needOpenSink_of_open _ hsnk hopen, needSource_of_some hsrc,
    encodeBody_done (codes := s.code) { src := r.resetToStart, snk := d, encBits := 0 } hbytes hs]
  simp only [BitSource.resetToStart_bits, BitSource.resetToStart_pos, List.drop_zero, Nat.zero_add, wholeBytes_length]
  rw [bump_zero, Encoding.store]

end

/-- R113: under a tree's codes the body of bytes with leaves is made of the tree's paths. -/
theorem bodyOf_codeTableOf {mem : NodeMem} {root : NodeIdx} {count : NodeCount} {T : CodeTree}
    (hT : IsTree mem root count T) {bytes : List (BitVec 8)} (hbytes : ∀ b ∈ bytes, byteSymbol b.toNat ∈ T.leaves) :
    bodyOf (codeTableOf T) (bytes.map (·.toNat)) = pathBody T bytes := by
  rw [bodyOf, pathBody, codeBits_codeTableOf hT hT.sentinel_mem, codesOfBytes, List.flatMap_map]
  exact congrArg (· ++ T.path sentinel) (List.flatMap_congr fun b hb => codeBits_codeTableOf hT (hbytes b hb))

/-- R102, R103, R113, R114: on a tree with a leaf for every byte of the source, and its codes, the last four commands of COMPRESS
write the stream and close the sink. -/
theorem runHost_write {s : State} {r : BitSource} {d : BitSink} {T : CodeTree} (herr : s.err = 0)
    (hvalid : s.treeValid = true) (hcodes : s.codesValid = true) (hT : IsTree s.node s.root s.nodeCount T)
    (hcode : s.code = codeTableOf T) (hsrc : s.src = some r) (hsnk : s.snk = some d) (hopen : d.closed = false)
    (hbytes : ∀ b ∈ wholeBytes r.bits, byteSymbol b ∈ T.leaves) :
    runHost [.issue 0x5000, .issue 0x6000, .issue 0x8000, .issue 0x9000] s = .next { s with
      src := some { r with pos := 8 * (r.bits.length / 8) }
      snk := some (BitSink.close { d with
        bits := d.bits ++ bitsOf 32 s.params.magic.toNat ++ T.header ++ bodyOf s.code (wholeBytes r.bits) })
      hdrBits := BitVec.ofNat 32 T.header.length
      encBits := BitVec.ofNat 32 (bodyOf s.code (wholeBytes r.bits)).length } := by
  have hcodeOf (a : Symbol) (ha : a ∈ T.leaves) : s.code[a].valid = true := hcode ▸ (codeTableOf_valid T a).2 ha
  have hmagic := exec_writeMagic_of_open herr hsnk hopen
  have htree := exec_writeTree_of_isTree (s := { s with snk := some _ })
    (d := { d with bits := d.bits ++ bitsOf 32 s.params.magic.toNat }) herr rfl hopen hvalid hT
  have hbody := exec_encodeScan_of_valid (s := { s with snk := some _, hdrBits := BitVec.ofNat 32 T.header.length })
    (d := { d with bits := d.bits ++ bitsOf 32 s.params.magic.toNat ++ T.header }) herr rfl hopen hcodes hsrc
    (fun b hb => hcodeOf _ (hbytes b hb)) (hcodeOf _ hT.sentinel_mem)
  rw [runHost_issue_cons (i := .writeMagic) (by decide) hmagic, runHost_issue_cons (i := .writeTree) (by decide) htree,
    runHost_issue_cons (i := .encodeScan) (by decide) hbody]
  exact runHost_issue_cons (i := .closeOut) (by decide) (exec_closeOut_of_open herr rfl hopen)

/-- R80, R145: on bytes whose counts fit COMPRESS makes no error, and closes the sink behind the magic number, the header of a
tree that has a leaf for every byte, and the body. -/
theorem runHost_compress {s : State} {bytes : List (BitVec 8)} (herr : s.err = 0)
    (hsrc : s.src = some (BitSource.bind (bitsOfBytes bytes))) (hsnk : s.snk = some BitSink.empty)
    (hfit : ∀ b, (wholeBytes (bitsOfBytes bytes)).count b < 2 ^ s.params.countW) :
    ∃ (t : State) (T : CodeTree), runHost (compressWords.map .issue) s = .next t ∧ t.err = 0 ∧
      IsTree t.node t.root t.nodeCount T ∧ (∀ b ∈ bytes, byteSymbol b.toNat ∈ T.leaves) ∧
      t.snk = some (BitSink.close
        { bits := bitsOf 32 s.params.magic.toNat ++ T.header ++ pathBody T bytes, closed := false }) := by
  obtain ⟨t, T, hrun, hT, hleaves, hterr, hvalid, hcodes, hcode, hparams, htsrc, htsnk⟩ :=
    runHost_analyze herr hsrc hfit [.issue 0x5000, .issue 0x6000, .issue 0x8000, .issue 0x9000]
  have hbytes (b : BitVec 8) (hb : b ∈ bytes) : byteSymbol b.toNat ∈ T.leaves :=
    hleaves b.toNat (by rw [BitSource.bind_bits, wholeBytes_bitsOfBytes]; exact List.mem_map_of_mem hb)
  have hwrite := runHost_write hterr hvalid hcodes hT hcode htsrc (htsnk.trans hsnk) rfl hleaves
  have hbody : bodyOf t.code (wholeBytes (bitsOfBytes bytes)) = pathBody T bytes := by
    rw [hcode, wholeBytes_bitsOfBytes, bodyOf_codeTableOf hT hbytes]
  refine ⟨_, T, hrun.trans hwrite, hterr, hT, hbytes, ?_⟩
  simp only [BitSource.bind_bits, hbody, hparams, BitSink.empty, List.nil_append]

end Sys2Proof.Machine
end

section
/-! PROOFS. DECOMPRESS (R81, R121, R146): what its commands do on a stream of the magic number, a tree's header and a body under
its codes. -/

namespace Sys2Proof.Machine

/-- R104: on the bits of `MAGIC` READ_MAGIC moves past them. -/
theorem exec_readMagic_of_magic {s : State} {r : BitSource} {rest : List Bool} (herr : s.err = 0)
    (hsrc : s.src = some r) (hbits : r.bits.drop r.pos = bitsOf 32 s.params.magic.toNat ++ rest) :
    exec .readMagic s = .next { s with src := some { r with pos := r.pos + 32 } } := by
  refine (whenNoError_of_zero herr _).trans ?_
  rw [readMagic, needSource_of_some hsrc, BitSource.readBits_bitsOf hbits (by decide) s.params.magic.isLt]
  exact if_pos rfl

/-! ## READ_TREE -/

/-- What READ_TREE starts from (R105). -/
def HeaderReader.start (r : BitSource) : HeaderReader :=
  { src := r, node := emptyNodes, count := 0, hdrBits := 0, seen := [] }

/-- R105, R109: the tree read from the start, if its root is internal and the sentinel has a leaf, is one of R25. -/
theorem ReadSubtree.isTree {r : BitSource} {h : HeaderReader} {T : CodeTree} (hr : ReadSubtree (.start r) h T)
    (hint : T.isInternal = true) (hdepth : T.depth ≤ maxDepth) (hs : sentinel ∈ T.leaves) :
    IsTree h.node 0 h.count T := by
  have hcount : h.count.val = T.indices.length := hr.count_eq.trans (Nat.zero_add _)
  have hindices : T.indices.map (·.val) = List.range' 0 T.indices.length := hr.indices_eq
  exact {
    held := hr.held
    root_eq := Fin.ext hr.root_eq
    root_internal := hint
    indices_nodup := List.Nodup.of_map _ (hindices ▸ List.nodup_range')
    indices_iff := fun i => by
      rw [← List.mem_map_of_injective Fin.val_injective, hindices, List.mem_range'_1, hcount]
      omega
    depth_le := hdepth
    leaves_nodup := hr.nodup
    sentinel_mem := hs
    rest_zero := fun i hi => (hr.others i (.inr hi)).trans (emptyNodes_getElem _ _) }

/-- R105, R106, R109: on the header of a tree of R25's shape READ_TREE installs a tree of the same shape. -/
theorem exec_readTree_of_header {s : State} {r : BitSource} {T : CodeTree} {rest : List Bool} (herr : s.err = 0)
    (hsrc : s.src = some r) (hbits : r.bits.drop r.pos = T.header ++ rest) (hint : T.isInternal = true)
    (hdepth : T.depth ≤ maxDepth) (hnd : T.leaves.Nodup) (hs : sentinel ∈ T.leaves) :
    ∃ (h : HeaderReader) (T' : CodeTree), exec .readTree s = .next (installTree 0 (h.store (dropTree s))) ∧
      T.sameShape T' = true ∧ ReadSubtree (.start r) h T' ∧ IsTree h.node 0 h.count T' := by
  have hlen := length_le_of_nodup hnd
  have hroom := T.indices_length
  obtain ⟨h, T', hdes, hshape, hr⟩ := des_of_header T (maxDepth + 1) (.start r) rest hbits (Nat.lt_succ_of_le hdepth)
    (by simp only [HeaderReader.start, Fin.val_zero]; omega) hnd (fun _ _ => List.not_mem_nil)
    (fun i _ => emptyNodes_getElem _ _)
  have hT : IsTree h.node 0 h.count T' := hr.isTree (CodeTree.sameShape_isInternal hshape ▸ hint)
    (CodeTree.sameShape_depth hshape ▸ hdepth) (CodeTree.sameShape_leaves hshape ▸ hs)
  refine ⟨h, T', ?_, hshape, hr, hT⟩
  refine (whenNoError_of_zero herr _).trans ?_
  have hkind : ¬ h.node[0].kind = .leaf := fun hleaf => by cases hT.kind_root.symm.trans hleaf
  have hseen : ¬ sentinel ∉ h.seen := not_not.2 ((hr.seen_eq _).2 (.inr hT.sentinel_mem))
  rw [HeaderReader.start] at hdes
  rw [readTree, needSource_of_some hsrc, hdes]
  dsimp only
  rw [if_neg hkind, if_neg hseen]

/-! ## DECODE_RUN -/

/-- A decoder that has read `n` bits and written some bytes, back where it was (R117). -/
def Decoding.wrote (n : Nat) (bytes : List (BitVec 8)) (d : Decoding) : Decoding :=
  { d with
    src := { d.src with pos := d.src.pos + n }
    snk := { d.snk with bits := d.snk.bits ++ bitsOfBytes bytes }
    decSyms := bump d.decSyms bytes.length }

theorem Decoding.wrote_zero (d : Decoding) : d.wrote 0 [] = d := by
  simp [Decoding.wrote, bump]

theorem Decoding.wrote_wrote (m n : Nat) (xs ys : List (BitVec 8)) (d : Decoding) :
    (d.wrote m xs).wrote n ys = d.wrote (m + n) (xs ++ ys) := by
  simp only [Decoding.wrote, bitsOfBytes_append, List.append_assoc, bump_bump, List.length_append, Nat.add_assoc]

/-- The paths of bytes, one after another: a body without the sentinel's (R113). -/
def pathOfBytes (T : CodeTree) (bytes : List (BitVec 8)) : List Bool :=
  bytes.flatMap fun b => T.path (byteSymbol b.toNat)

theorem pathBody_eq (T : CodeTree) (bytes : List (BitVec 8)) :
    pathBody T bytes = pathOfBytes T bytes ++ T.path sentinel := rfl

theorem pathOfBytes_cons (T : CodeTree) (b : BitVec 8) (bytes : List (BitVec 8)) :
    pathOfBytes T (b :: bytes) = T.path (byteSymbol b.toNat) ++ pathOfBytes T bytes := rfl

section
variable {mem : NodeMem} {root : NodeIdx} {count : NodeCount} {T : CodeTree} (hT : IsTree mem root count T)
include hT

/-- R117, R119: from the root the path of a byte's symbol writes that byte and leads back to the root. -/
theorem transitions_byte {b : BitVec 8} (hb : byteSymbol b.toNat ∈ T.leaves) (n : Nat) {d : Decoding} {rest : List Bool}
    (hcur : d.cur = root) (hs : d.decState = .atRoot)
    (hbits : d.src.bits.drop d.src.pos = T.path (byteSymbol b.toNat) ++ rest) :
    transitions mem root ((T.path (byteSymbol b.toNat)).length + n) d =
      transitions mem root n (d.wrote (T.path (byteSymbol b.toNat)).length [b]) := by
  have hp := CodeTree.path?_of_mem hb
  obtain ⟨leaf, -, hk, hsym, hrun⟩ := transitions_path (root := root) hT.held hp
    (CodeTree.path?_ne_nil hT.root_internal hp) n d (hcur.trans hT.root_eq.symm) (by simp [hs]) hbits
  rw [hrun, arrive_symbol _ _ hk (hsym.trans_ne (byteSymbol_ne_sentinel _)), hsym, byteSymbol_val b.isLt, ← hs, ← hcur]
  simp [Decoding.wrote]

/-- R59, R119: the paths of bytes, one after another. -/
theorem transitions_bytes (bytes : List (BitVec 8)) (hbytes : ∀ b ∈ bytes, byteSymbol b.toNat ∈ T.leaves) (n : Nat)
    {d : Decoding} {rest : List Bool} (hcur : d.cur = root) (hs : d.decState = .atRoot)
    (hbits : d.src.bits.drop d.src.pos = pathOfBytes T bytes ++ rest) :
    transitions mem root ((pathOfBytes T bytes).length + n) d =
      transitions mem root n (d.wrote (pathOfBytes T bytes).length bytes) := by
  induction bytes generalizing d with
  | nil => simp [pathOfBytes, Decoding.wrote_zero]
  | cons b bytes ih =>
    rw [pathOfBytes_cons, List.append_assoc] at hbits
    have hbyte := transitions_byte hT (hbytes b List.mem_cons_self) ((pathOfBytes T bytes).length + n) hcur hs hbits
    have hrest := ih (fun c hc => hbytes c (List.mem_cons_of_mem b hc))
      (d := d.wrote (T.path (byteSymbol b.toNat)).length [b]) hcur hs (BitSource.drop_of_drop hbits)
    rw [pathOfBytes_cons, List.length_append, Nat.add_assoc, hbyte, hrest, Decoding.wrote_wrote, List.singleton_append]

/-- R59, R119: on a body the loop writes its bytes and ends at the sentinel's leaf. -/
theorem transitions_body {bytes : List (BitVec 8)} (hbytes : ∀ b ∈ bytes, byteSymbol b.toNat ∈ T.leaves) (n : Nat)
    {d : Decoding} {rest : List Bool} (hcur : d.cur = root) (hs : d.decState = .atRoot)
    (hbits : d.src.bits.drop d.src.pos = pathBody T bytes ++ rest) :
    ∃ leaf, T.leafOf? sentinel = some leaf ∧ transitions mem root ((pathBody T bytes).length + n) d =
      .done () { d.wrote (pathBody T bytes).length bytes with decState := .done, cur := leaf } := by
  rw [pathBody_eq, List.append_assoc] at hbits
  have hp := CodeTree.path?_of_mem hT.sentinel_mem
  have hbytes' := transitions_bytes hT bytes hbytes ((T.path sentinel).length + n) hcur hs hbits
  obtain ⟨leaf, hleaf, hk, hsym, hsent⟩ := transitions_path (root := root) hT.held hp
    (CodeTree.path?_ne_nil hT.root_internal hp) n (d.wrote (pathOfBytes T bytes).length bytes)
    (hcur.trans hT.root_eq.symm) (hs.trans_ne (by decide)) (BitSource.drop_of_drop hbits)
  refine ⟨leaf, hleaf, ?_⟩
  rw [pathBody_eq, List.length_append, Nat.add_assoc, hbytes', hsent, arrive_sentinel _ _ hk hsym,
    transitions_of_done _ rfl]
  simp only [Decoding.wrote, Nat.add_assoc]

end

/-- R59, R119: on a body DECODE_RUN writes its bytes and ends at the sentinel's leaf, in `DONE`. -/
theorem exec_decodeRun_of_body {s : State} {r : BitSource} {d : BitSink} {T : CodeTree} {bytes : List (BitVec 8)}
    {rest : List Bool} (herr : s.err = 0) (hvalid : s.treeValid = true) (hT : IsTree s.node s.root s.nodeCount T)
    (hs : s.decState = .atRoot) (hcur : s.cur = s.root) (hsrc : s.src = some r) (hsnk : s.snk = some d)
    (hopen : d.closed = false) (hbits : r.bits.drop r.pos = pathBody T bytes ++ rest)
    (hbytes : ∀ b ∈ bytes, byteSymbol b.toNat ∈ T.leaves) :
    ∃ leaf, T.leafOf? sentinel = some leaf ∧ exec .decodeRun s = .next (Decoding.store
      { (decodingOf s r d).wrote (pathBody T bytes).length bytes with decState := .done, cur := leaf } s) := by
  obtain ⟨leaf, hleaf, hrun⟩ := transitions_body hT hbytes rest.length (d := decodingOf s r d) hcur hs hbits
  refine ⟨leaf, hleaf, ?_⟩
  rw [exec_decodeRun_of_open herr hvalid hsrc hsnk hopen, BitSource.remaining_eq_length_drop, hbits,
    List.length_append, hrun, Ran.stored_done]

/-! ## The whole run -/

theorem pathBody_of_sameShape {T T' : CodeTree} (h : T.sameShape T' = true) (bytes : List (BitVec 8)) :
    pathBody T bytes = pathBody T' bytes := by
  simp only [pathBody, CodeTree.sameShape_path h]

/-- R52: whole bytes need no padding. -/
theorem close_of_bytes (bytes : List (BitVec 8)) :
    BitSink.close { bits := bitsOfBytes bytes, closed := false } = { bits := bitsOfBytes bytes, closed := true } := by
  have hpad : padLength (bitsOfBytes bytes).length = 0 := by
    rw [bitsOfBytes_length, padLength]
    omega
  simp only [BitSink.close, hpad, List.replicate_zero, List.append_nil]

/-- R81, R121, R146: on a stream of the magic number, the header of a tree of R25 and a body under its paths, DECOMPRESS makes no
error, ends in `DONE` and closes the sink behind the body's bytes. -/
theorem runHost_decompress {s : State} {r : BitSource} {mem : NodeMem} {root : NodeIdx} {count : NodeCount}
    {T : CodeTree} {bytes : List (BitVec 8)} {rest : List Bool} (herr : s.err = 0) (hsrc : s.src = some r)
    (hsnk : s.snk = some BitSink.empty) (hT : IsTree mem root count T)
    (hbits : r.bits.drop r.pos = bitsOf 32 s.params.magic.toNat ++ (T.header ++ (pathBody T bytes ++ rest)))
    (hbytes : ∀ b ∈ bytes, byteSymbol b.toNat ∈ T.leaves) :
    ∃ t, runHost (decompressWords.map .issue) s = .next t ∧ t.err = 0 ∧ t.decState = .done ∧
      t.snk = some { bits := bitsOfBytes bytes, closed := true } := by
  obtain ⟨s₁, hmagic, herr₁, hsrc₁, hsnk₁⟩ : ∃ s₁, exec .readMagic s = .next s₁ ∧ s₁.err = 0 ∧
      s₁.src = some { r with pos := r.pos + 32 } ∧ s₁.snk = some BitSink.empty :=
    ⟨_, exec_readMagic_of_magic herr hsrc hbits, herr, rfl, hsnk⟩
  have hheader := BitSource.drop_of_drop_bitsOf hbits
  obtain ⟨h, T', htree, hshape, hr, hT'⟩ := exec_readTree_of_header herr₁ hsrc₁ hheader hT.root_internal hT.depth_le
    hT.leaves_nodup hT.sentinel_mem
  have hbody : h.src.bits.drop h.src.pos = pathBody T' bytes ++ rest := by
    have hconsumed := hr.consumed
    rw [← CodeTree.sameShape_header hshape] at hconsumed
    rw [← pathBody_of_sameShape hshape]
    exact List.append_cancel_left (hconsumed.symm.trans hheader)
  obtain ⟨u, hrun, herr₂, hdone, hsnk₂⟩ : ∃ u, exec .decodeRun (installTree 0 (h.store (dropTree s₁))) = .next u ∧
      u.err = 0 ∧ u.decState = .done ∧ u.snk = some { bits := bitsOfBytes bytes, closed := false } := by
    obtain ⟨leaf, -, hrun⟩ := exec_decodeRun_of_body (s := installTree 0 (h.store (dropTree s₁))) herr₁ rfl hT' rfl rfl
      rfl hsnk₁ rfl hbody (CodeTree.sameShape_leaves hshape ▸ hbytes)
    exact ⟨_, hrun, herr₁, rfl, rfl⟩
  have hclose := exec_closeOut_of_open herr₂ hsnk₂ rfl
  rw [close_of_bytes] at hclose
  refine ⟨{ u with snk := some { bits := bitsOfBytes bytes, closed := true } }, ?_, herr₂, hdone, rfl⟩
  change runHost [.issue 0xA000, .issue 0xB000, .issue 0xD000, .issue 0x9000] s = _
  rw [runHost_issue_cons (i := .readMagic) (by decide) hmagic, runHost_issue_cons (i := .readTree) (by decide) htree,
    runHost_issue_cons (i := .decodeRun) (by decide) hrun, runHost_issue_cons (i := .closeOut) (by decide) hclose,
    runHost_nil]

end Sys2Proof.Machine

namespace Sys2Proof.Proofs

open Sys2Proof Sys2Proof.Machine

/-- Settles O46: COMPRESS ends without an error exactly when the counts fit, and then DECOMPRESS undoes what it wrote. -/
theorem decompressInvertsCompress : Obligations.DecompressInvertsCompress := by
  unfold Obligations.DecompressInvertsCompress
  intro s c bytes hs hc hmagic
  simp only [runHost_bindSource_bindSink]
  refine ⟨fun hfit => ?_, fun t hrun hterr => ?_⟩
  · have hcounts := count_map_toNat_lt hfit
    rw [← wholeBytes_bitsOfBytes] at hcounts
    obtain ⟨t, T, hrun, hterr, -⟩ := runHost_compress (s := bindStreams (bitsOfBytes bytes) s) hs rfl rfl hcounts
    exact ⟨t, hrun, hterr⟩
  · have hcounts := counts_fit_of_runHost_compress (s := bindStreams (bitsOfBytes bytes) s) hs rfl hrun hterr
    obtain ⟨t', T, hrun', -, hT, hbytes, htsnk⟩ := runHost_compress (s := bindStreams (bitsOfBytes bytes) s) hs rfl rfl hcounts
    obtain rfl : t' = t := Host.Outcome.next.inj (hrun'.symm.trans hrun)
    obtain ⟨pad, hstream⟩ : ∃ pad, sinkBits t' =
        bitsOf 32 s.params.magic.toNat ++ T.header ++ pathBody T bytes ++ pad := by
      rw [sinkBits, htsnk]
      exact ⟨_, BitSink.close_bits _⟩
    rw [← hmagic, List.append_assoc, List.append_assoc] at hstream
    exact runHost_decompress (s := bindStreams (sinkBits t') c) hc rfl rfl hT hstream hbytes

end Sys2Proof.Proofs
end

section
/-! PROOFS. The sticky error (R125): while an error is recorded, only the word 0x1000 has an effect. -/

namespace Sys2Proof

/-- R70: CLEAR is the operand-free command of opcode 1 only. -/
theorem operandFree_eq_clear_iff (op : BitVec 4) : operandFree op = some .clear ↔ op = 0x1 := by
  revert op
  decide

/-- R68: a word is its three fields, `OP` from bit 12, `RSV` from bit 9 and `ARG` from bit 0. -/
theorem toNat_eq_fields (w : Word) :
    w.toNat = 4096 * (opField w).toNat + 512 * (rsvField w).toNat + (argField w).toNat := by
  rw [opField_toNat, rsvField_toNat, argField_toNat]
  omega

/-- R70, R78: the decoder reads CLEAR from the word 0x1000 and from no other. Of its branches only the last answers a command
without an operand, and there `RSV` and `ARG` are 0. -/
theorem decode_eq_clear_iff (w : Word) : decode w = .command .clear ↔ w = 0x1000 := by
  refine ⟨?_, fun hw => by subst hw; decide⟩
  unfold decode
  split_ifs with hrsv hop hsym hrange harg
  · exact nofun
  · exact nofun
  · exact nofun
  · exact nofun
  · exact nofun
  · intro h
    have hclear : operandFree (opField w) = some .clear := by
      cases hfree : operandFree (opField w) with
      | none => simp [hfree] at h
      | some i => simpa [hfree] using h
    have hfields := toNat_eq_fields w
    rw [(operandFree_eq_clear_iff _).1 hclear, not_not.1 hrsv, not_not.1 harg] at hfields
    exact BitVec.eq_of_toNat_eq hfields

end Sys2Proof

namespace Sys2Proof.Proofs

open Sys2Proof Sys2Proof.Machine

/-- Settles O8: every command but CLEAR is guarded by ERR, an illegal word too, and no word but 0x1000 is CLEAR's. -/
theorem stickyErrorIgnoresEveryWordButClear : Obligations.StickyErrorIgnoresEveryWordButClear := by
  unfold Obligations.StickyErrorIgnoresEveryWordButClear
  intro s herr
  refine ⟨fun i hi => exec_of_err_ne hi herr, fun words hwords => runHost_issues_of_err_ne (fun w hw => ?_) herr⟩
  rw [Ne, decode_eq_clear_iff]
  exact hwords w hw

end Sys2Proof.Proofs
end

section
/-! PROOFS. CLEAR against power-on reset (R141). -/

namespace Sys2Proof.Proofs

open Sys2Proof Sys2Proof.Machine

/-- Settles O15: each of the two answers `clearCore s`. -/
theorem clearEqualsPowerOnReset : Obligations.ClearEqualsPowerOnReset := by
  unfold Obligations.ClearEqualsPowerOnReset
  intro s
  calc
    hostStep .powerOn s = .next (clearCore s) := hostStep_powerOn_next.2 rfl
    _ = exec .clear s := (exec_clear_next.2 rfl).symm

end Sys2Proof.Proofs
end

section
/-! PROOFS. Decoding and encoding are inverse (R70, R72, R78): the word of a command is its three fields, and a legal word is put
together from them in one way. -/

namespace Sys2Proof

/-! ## The word of ENCODE_SYM -/

/-- R69, R70: ENCODE_SYM's word is 0x7000 plus its operand. -/
theorem toNat_encode_encodeSym (arg : BitVec 9) : (encode (.encodeSym arg)).toNat = 0x7000 + arg.toNat := by
  have harg := arg.isLt
  have hop : (0x7000 : Word).toNat = 0x7000 := rfl
  rw [encode, BitVec.toNat_add, BitVec.toNat_setWidth, hop]
  omega

theorem encode_encodeSym_eq (arg : BitVec 9) : encode (.encodeSym arg) = BitVec.ofNat 16 (0x7000 + arg.toNat) := by
  rw [← toNat_encode_encodeSym, BitVec.ofNat_toNat, BitVec.setWidth_eq]

theorem opField_encode_encodeSym (arg : BitVec 9) : opField (encode (.encodeSym arg)) = 0x7 := by
  have harg := arg.isLt
  apply BitVec.eq_of_toNat_eq
  rw [opField_toNat, toNat_encode_encodeSym]
  change _ = 7
  omega

theorem argField_encode_encodeSym (arg : BitVec 9) : argField (encode (.encodeSym arg)) = arg := by
  have harg := arg.isLt
  apply BitVec.eq_of_toNat_eq
  rw [argField_toNat, toNat_encode_encodeSym]
  omega

/-- R73: a symbol as operand is read back from the word. -/
theorem decode_encode_encodeSym {arg : BitVec 9} (h : arg.toNat ≤ 256) :
    decode (encode (.encodeSym arg)) = .command (.encodeSym arg) := by
  obtain ⟨hrsv, -, -⟩ := Laws.WordShape.encodeSym arg (by simpa [Instr.wf] using h)
  rw [decode, if_neg (not_not.2 hrsv), opField_encode_encodeSym, if_neg (by decide), if_pos rfl,
    argField_encode_encodeSym, if_neg (by omega)]

/-- R70, R78: the decoder undoes the encoder. -/
theorem decode_encode {i : Instr} (h : i.wf = true) : decode (encode i) = .command i := by
  cases i with
  | encodeSym arg => exact decode_encode_encodeSym (by simpa [Instr.wf] using h)
  | _ => decide

/-! ## The command of a legal word -/

/-- R70: an operand-free command is well formed, and its word has nothing below the opcode. -/
theorem encode_of_operandFree {op : BitVec 4} {i : Instr} (h : operandFree op = some i) :
    i.wf = true ∧ (encode i).toNat = 4096 * op.toNat := by
  have hall : ∀ op, (operandFree op).all fun i => i.wf && (encode i).toNat == 4096 * op.toNat := by decide
  simpa [h] using hall op

/-- R70, R72: the encoder undoes the decoder. The branches of the decoder that answer a command fix all three fields. -/
theorem encode_of_decode {w : Word} {i : Instr} (h : decode w = .command i) : i.wf = true ∧ encode i = w := by
  have hfields := toNat_eq_fields w
  unfold decode at h
  split_ifs at h with hrsv hop hsym hrange harg
  · obtain rfl : Instr.encodeSym (argField w) = i := Decoded.command.inj h
    rw [hsym, not_not.1 hrsv] at hfields
    refine ⟨by simpa [Instr.wf] using hrange, BitVec.eq_of_toNat_eq ?_⟩
    rw [toNat_encode_encodeSym, hfields]
    rfl
  · cases hfree : operandFree (opField w) with
    | none => simp [hfree] at h
    | some j =>
      obtain rfl : j = i := by simpa [hfree] using h
      obtain ⟨hwf, hword⟩ := encode_of_operandFree hfree
      rw [not_not.1 hrsv, not_not.1 harg] at hfields
      exact ⟨hwf, BitVec.eq_of_toNat_eq (hword.trans hfields.symm)⟩

theorem decode_eq_command_iff {w : Word} {i : Instr} : decode w = .command i ↔ i.wf = true ∧ encode i = w :=
  ⟨encode_of_decode, fun ⟨hwf, hw⟩ => hw ▸ decode_encode hwf⟩

/-! ## The legal words, counted -/

/-- The commands: the thirteen without an operand, and ENCODE_SYM with each of the 257 symbols (R70, R73). -/
def wfCommands : List Instr :=
  Machine.operandFreeCommands ++ (List.range 257).map fun a => .encodeSym (BitVec.ofNat 9 a)

theorem mem_wfCommands_iff {i : Instr} : i ∈ wfCommands ↔ i.wf = true := by
  cases i with
  | encodeSym arg =>
    simp only [wfCommands, Machine.operandFreeCommands, Instr.wf, List.mem_append, List.mem_map, List.mem_range,
      Instr.encodeSym.injEq, decide_eq_true_eq]
    constructor
    · rintro (h | ⟨a, ha, rfl⟩)
      · simp at h
      · rw [BitVec.toNat_ofNat]
        omega
    · exact fun h => .inr ⟨arg.toNat, by omega, by simp⟩
  | _ => simp [wfCommands, Machine.operandFreeCommands, Instr.wf]

theorem wfCommands_nodup : wfCommands.Nodup := by
  refine List.nodup_append.2 ⟨by decide, List.nodup_range.map_on fun a ha b hb hab => ?_, fun i hi j hj hij => ?_⟩
  · rw [List.mem_range] at ha hb
    have hval := congrArg BitVec.toNat (Instr.encodeSym.inj hab)
    simp only [BitVec.toNat_ofNat] at hval
    omega
  · obtain ⟨a, -, rfl⟩ := List.mem_map.1 hj
    subst hij
    simp [Machine.operandFreeCommands] at hi

theorem instr?_decode_isSome_iff {w : Word} : (decode w).instr?.isSome ↔ ∃ i, decode w = .command i := by
  cases decode w <;> simp [Decoded.instr?]

/-- R78: the legal words are those of the commands, each once. -/
theorem legalWords_perm :
    ((List.range 65536).filter fun w => (decode (BitVec.ofNat 16 w)).instr?.isSome).Perm
      (wfCommands.map fun i => (encode i).toNat) := by
  have hinj : ∀ i ∈ wfCommands, ∀ j ∈ wfCommands, (encode i).toNat = (encode j).toNat → i = j := by
    intro i hi j hj hij
    have hi' := decode_encode (mem_wfCommands_iff.1 hi)
    rw [BitVec.eq_of_toNat_eq hij, decode_encode (mem_wfCommands_iff.1 hj)] at hi'
    exact (Decoded.command.inj hi').symm
  refine (List.perm_ext_iff_of_nodup (List.nodup_range.filter _) (wfCommands_nodup.map_on hinj)).2 fun n => ?_
  simp only [List.mem_filter, List.mem_range, List.mem_map, mem_wfCommands_iff, instr?_decode_isSome_iff,
    decode_eq_command_iff]
  constructor
  · rintro ⟨hn, i, hwf, hi⟩
    exact ⟨i, hwf, by rw [hi, BitVec.toNat_ofNat, Nat.mod_eq_of_lt hn]⟩
  · rintro ⟨i, hwf, rfl⟩
    exact ⟨(encode i).isLt, i, hwf, by simp⟩

end Sys2Proof

namespace Sys2Proof.Proofs

open Sys2Proof Sys2Proof.Machine

/-- Settles O1: `decode_encode`. -/
theorem decodeOfEncodeIsTheCommand : Obligations.DecodeOfEncodeIsTheCommand := fun _ => decode_encode

/-- Settles O2: `encode_of_decode`. -/
theorem legalWordIsTheWordOfItsCommand : Obligations.LegalWordIsTheWordOfItsCommand := fun _ _ => encode_of_decode

/-- Settles O4: the legal words are as many as the commands, 13 + 257. -/
theorem exactlyTwoHundredSeventyWordsAreLegal : Obligations.ExactlyTwoHundredSeventyWordsAreLegal := by
  unfold Obligations.ExactlyTwoHundredSeventyWordsAreLegal
  rw [legalWords_perm.length_eq, List.length_map, wfCommands, List.length_append, List.length_map, List.length_range]
  rfl

/-- Settles O5: each word is the one its command encodes to. -/
theorem opcodeMapWordsDecode : Obligations.OpcodeMapWordsDecode := by
  unfold Obligations.OpcodeMapWordsDecode
  decide

end Sys2Proof.Proofs
end

section
/-! PROOFS. READ_TREE (R105 to R109): it ends in one of two ways, with a tree read and installed or with an error and no tree;
what every call of `des` keeps; and the headers that are rejected. -/

namespace Sys2Proof.Machine

/-! ## What every call of `des` keeps -/

/-- The state a procedure ends with, whether it raises or not. -/
def Ran.state {σ α : Type} : Ran σ α → σ
  | .done _ t => t
  | .raised _ t => t

/-- The errors READ_TREE raises (R105, R107 to R109). -/
def readTreeErrors : List Err :=
  [.truncatedHeader, .hdrBadSymbol, .hdrDupSymbol, .hdrTooDeep, .hdrOverflow, .hdrLeafRoot, .hdrNoSentinel]

/-- What reading a header keeps: the source's bits, a position within them, weights that are all 0 (R46, R105). -/
structure ReaderKeeps (h h' : HeaderReader) : Prop where
  bits_eq : h'.src.bits = h.src.bits
  pos_le : h.src.pos ≤ h.src.bits.length → h'.src.pos ≤ h'.src.bits.length
  weights : (∀ i : NodeIdx, h.node[i].weight = 0) → ∀ i : NodeIdx, h'.node[i].weight = 0

namespace ReaderKeeps

theorem refl (h : HeaderReader) : ReaderKeeps h h := ⟨rfl, id, id⟩

theorem trans {h h' h'' : HeaderReader} (h₁ : ReaderKeeps h h') (h₂ : ReaderKeeps h' h'') : ReaderKeeps h h'' :=
  ⟨h₂.bits_eq.trans h₁.bits_eq, h₂.pos_le ∘ h₁.pos_le, h₂.weights ∘ h₁.weights⟩

section
variable {h : HeaderReader} {count : NodeCount} {hdrBits : BitVec 32} {seen : List Symbol}

/-- Another count of entries, of header bits, or of symbols seen is of no matter. -/
theorem of_eq : ReaderKeeps h ⟨h.src, h.node, count, hdrBits, seen⟩ := ⟨rfl, id, id⟩

/-- A read moves the source. -/
theorem of_readBits {n v : Nat} {src : BitSource} (hread : h.src.readBits n = some (v, src)) :
    ReaderKeeps h ⟨src, h.node, count, hdrBits, seen⟩ :=
  ⟨BitSource.readBits_bits hread, fun _ => BitSource.readBits_le hread, id⟩

/-- An entry of weight 0 is written. -/
theorem of_set {i : NodeIdx} {n : Node} (hn : (∀ i : NodeIdx, h.node[i].weight = 0) → n.weight = 0) :
    ReaderKeeps h ⟨h.src, h.node.set i.val n, count, hdrBits, seen⟩ := by
  refine ⟨rfl, id, fun hw j => ?_⟩
  rw [set_get]
  split
  · exact hn hw
  · exact hw j

end

theorem setLeft (h : HeaderReader) (i l : NodeIdx) : ReaderKeeps h (h.setLeft i l) := of_set fun hw => hw i

theorem setRight (h : HeaderReader) (i r : NodeIdx) : ReaderKeeps h (h.setRight i r) := of_set fun hw => hw i

theorem tagged {h : HeaderReader} {b : Bool} {rest : List Bool} (hroom : h.count.val < 513)
    (hbits : h.src.bits.drop h.src.pos = b :: rest) : ReaderKeeps h (h.tagged hroom) :=
  of_readBits (BitSource.readBits_one_of_drop hbits)

end ReaderKeeps

/-- An outcome of reading from `h`: what it keeps, and which errors it can be. -/
structure ReadsFrom {α : Type} (h : HeaderReader) (x : Ran HeaderReader α) : Prop where
  keeps : ReaderKeeps h x.state
  err_mem : ∀ e h', x = .raised e h' → e ∈ readTreeErrors

theorem ReadsFrom.done {α : Type} {h h' : HeaderReader} (hk : ReaderKeeps h h') (a : α) : ReadsFrom h (.done a h') :=
  ⟨hk, fun _ _ he => nomatch he⟩

theorem ReadsFrom.raised {α : Type} {h h' : HeaderReader} (hk : ReaderKeeps h h') {e : Err} (he : e ∈ readTreeErrors) :
    ReadsFrom h (.raised e h' : Ran HeaderReader α) :=
  ⟨hk, fun _ _ heq => (Ran.raised.inj heq).1 ▸ he⟩

theorem ReadsFrom.trans {α : Type} {h h' : HeaderReader} {x : Ran HeaderReader α} (hk : ReaderKeeps h h')
    (hx : ReadsFrom h' x) : ReadsFrom h x :=
  ⟨hk.trans hx.keeps, hx.err_mem⟩

theorem readsFrom_desLeaf (i : NodeIdx) (h : HeaderReader) : ReadsFrom h (desLeaf i h) := by
  unfold desLeaf
  split
  · exact .raised (.refl h) (by simp [readTreeErrors])
  · next v src hread =>
    dsimp only
    split
    · exact .raised (.of_readBits hread) (by simp [readTreeErrors])
    · split
      · exact .raised (.of_readBits hread) (by simp [readTreeErrors])
      · exact .done ((ReaderKeeps.of_readBits (count := h.count) (hdrBits := h.hdrBits) (seen := h.seen) hread).trans
          (.of_set fun _ => rfl)) i

/-- R105: a node's index is allocated before its tag is read, so an exhausted source leaves one entry more in use. -/
theorem des_succ_of_exhausted {h : HeaderReader} (hroom : h.count.val < 513) (hbits : h.src.bits.drop h.src.pos = [])
    (r : Nat) : des (r + 1) h = .raised .truncatedHeader { h with count := ⟨h.count.val + 1, by omega⟩ } := by
  have hnone : h.src.readBits 1 = none :=
    BitSource.readBits_eq_none.2 (Nat.lt_succ_of_le (List.drop_eq_nil_iff.1 hbits))
  rw [des, dif_pos hroom]
  simp only [hnone]

theorem des_succ_of_full {h : HeaderReader} (hfull : ¬ h.count.val < 513) (r : Nat) :
    des (r + 1) h = .raised .hdrOverflow h := by
  rw [des, dif_neg hfull]

/-- R46, R105 to R108: whatever `des` reads, it keeps the source's bits, and it fails with READ_TREE's errors only. -/
theorem readsFrom_des (r : Nat) (h : HeaderReader) : ReadsFrom h (des r h) := by
  induction r generalizing h with
  | zero => exact .raised (.refl h) (by simp [readTreeErrors])
  | succ r ih =>
    by_cases hroom : h.count.val < 513
    swap
    · rw [des_succ_of_full hroom]
      exact .raised (.refl h) (by simp [readTreeErrors])
    cases hbits : h.src.bits.drop h.src.pos with
    | nil =>
      rw [des_succ_of_exhausted hroom hbits]
      exact .raised .of_eq (by simp [readTreeErrors])
    | cons b rest =>
      rw [des_succ_of_tag hroom hbits]
      refine .trans (.tagged hroom hbits) ?_
      split
      · exact readsFrom_desLeaf _ _
      · have hleft := ih (h.tagged hroom)
        split
        · next e h₃ hd =>
          rw [hd] at hleft
          exact .raised hleft.keeps (hleft.err_mem e h₃ rfl)
        · next left h₃ hd =>
          rw [hd] at hleft
          have hright := ih (h₃.setLeft ⟨h.count.val, hroom⟩ left)
          refine .trans (hleft.keeps.trans (.setLeft h₃ ⟨h.count.val, hroom⟩ left)) ?_
          split
          · next e h₄ hd' =>
            rw [hd'] at hright
            exact .raised hright.keeps (hright.err_mem e h₄ rfl)
          · next right h₄ hd' =>
            rw [hd'] at hright
            exact .done (hright.keeps.trans (.setRight ..)) _

/-! ## How READ_TREE ends -/

/-- R109: no valid tree, whichever it is. -/
def NoTree (mem : NodeMem) (root : NodeIdx) (count : NodeCount) : Prop := ¬ ∃ t, IsTree mem root count t

/-- R23: the tree a memory holds has an internal root exactly if its topmost node's entry is internal. -/
theorem CodeTree.isInternal_iff_kind_root {mem : NodeMem} {t : CodeTree} {root : NodeIdx} (ht : t.heldBy mem = true)
    (hroot : t.root = root) : t.isInternal = true ↔ mem[root].kind ≠ .leaf := by
  subst hroot
  cases t with
  | leaf i a => exact iff_of_false nofun (not_not.2 (heldBy_leaf.1 ht).1)
  | node i l r =>
    obtain ⟨⟨hkind, -⟩, -⟩ := heldBy_node.1 ht
    exact iff_of_true rfl (hkind.trans_ne nofun)

theorem noTree_of_leaf_root {mem : NodeMem} {root : NodeIdx} {count : NodeCount} (h : mem[root].kind = .leaf) :
    NoTree mem root count := by
  rintro ⟨t, ht⟩
  cases h.symm.trans ht.kind_root

/-- R25: no child of the root is the root. -/
theorem noTree_of_root_child {mem : NodeMem} {root : NodeIdx} {count : NodeCount} (h : mem[root].right = root) :
    NoTree mem root count := by
  rintro ⟨t, ht⟩
  exact (ht.children_of_internal ht.root_lt ht.kind_root).2.2.2.2 h

theorem start_entries_zero (r : BitSource) (j : NodeIdx) (_ : (HeaderReader.start r).count.val ≤ j.val) :
    (HeaderReader.start r).node[j] = Node.zero :=
  emptyNodes_getElem _ _

theorem start_weights_zero (r : BitSource) (i : NodeIdx) : (HeaderReader.start r).node[i].weight = 0 :=
  congrArg Node.weight (emptyNodes_getElem i.val i.isLt)

/-- R105, R126: a `des` that raises leaves node 0 without a right child. -/
theorem noTree_of_des_raised {n : Nat} {r : BitSource} {e : Err} {h : HeaderReader}
    (hd : des n (.start r) = .raised e h) : NoTree h.node 0 h.count :=
  noTree_of_root_child ((des_raised n _ h e hd (start_entries_zero r)).2 0 rfl).2

/-- R109: a tree read without the sentinel's leaf is none. -/
theorem ReadSubtree.noTree {r : BitSource} {h : HeaderReader} {T : CodeTree} (hr : ReadSubtree (.start r) h T)
    (hs : sentinel ∉ h.seen) : NoTree h.node 0 h.count := by
  rintro ⟨t, ht⟩
  obtain rfl : t = T := CodeTree.heldBy_unique ht.held hr.held (ht.root_eq.trans (Fin.ext hr.root_eq.symm))
  exact hs ((hr.seen_eq _).2 (.inr ht.sentinel_mem))

section
variable {s : State} {r : BitSource} (herr : s.err = 0) (hsrc : s.src = some r) {h : HeaderReader}
include herr hsrc

/-- R105, R109: READ_TREE is `des` from the start, then its two checks. -/
theorem exec_readTree_of_bound : exec .readTree s =
    match des (maxDepth + 1) (.start r) with
    | .raised e h => .next (errorEntry e (encode .readTree) (h.store (dropTree s)))
    | .done _ h =>
      if h.node[0].kind = .leaf then .next (errorEntry .hdrLeafRoot (encode .readTree) (h.store (dropTree s)))
      else if sentinel ∉ h.seen then .next (errorEntry .hdrNoSentinel (encode .readTree) (h.store (dropTree s)))
      else .next (installTree 0 (h.store (dropTree s))) := by
  refine (whenNoError_of_zero herr _).trans ?_
  rw [readTree, needSource_of_some hsrc]
  rfl

theorem exec_readTree_of_raised {e : Err} (hd : des (maxDepth + 1) (.start r) = .raised e h) :
    exec .readTree s = .next (errorEntry e (encode .readTree) (h.store (dropTree s))) := by
  rw [exec_readTree_of_bound herr hsrc, hd]

theorem exec_readTree_of_leaf_root {i : NodeIdx} (hd : des (maxDepth + 1) (.start r) = .done i h)
    (hleaf : h.node[(0 : NodeIdx)].kind = .leaf) :
    exec .readTree s = .next (errorEntry .hdrLeafRoot (encode .readTree) (h.store (dropTree s))) := by
  rw [exec_readTree_of_bound herr hsrc, hd]
  exact if_pos hleaf

theorem exec_readTree_of_no_sentinel {i : NodeIdx} (hd : des (maxDepth + 1) (.start r) = .done i h)
    (hleaf : h.node[(0 : NodeIdx)].kind ≠ .leaf) (hs : sentinel ∉ h.seen) :
    exec .readTree s = .next (errorEntry .hdrNoSentinel (encode .readTree) (h.store (dropTree s))) := by
  rw [exec_readTree_of_bound herr hsrc, hd]
  exact (if_neg hleaf).trans (if_pos hs)

theorem exec_readTree_of_checked {i : NodeIdx} (hd : des (maxDepth + 1) (.start r) = .done i h)
    (hleaf : h.node[(0 : NodeIdx)].kind ≠ .leaf) (hs : sentinel ∈ h.seen) :
    exec .readTree s = .next (installTree 0 (h.store (dropTree s))) := by
  rw [exec_readTree_of_bound herr hsrc, hd]
  exact (if_neg hleaf).trans (if_neg (not_not.2 hs))

end

/-- R105 to R109, R126: with a source READ_TREE installs the tree whose header it read, or enters one of its errors with no tree
in the memory; what it has read of the source and written is kept either way. -/
theorem exec_readTree_cases {s : State} {r : BitSource} (herr : s.err = 0) (hsrc : s.src = some r) :
    ∃ h, ReaderKeeps (.start r) h ∧
      ((∃ T, ReadSubtree (.start r) h T ∧ IsTree h.node 0 h.count T ∧
          exec .readTree s = .next (installTree 0 (h.store (dropTree s)))) ∨
        ∃ e ∈ readTreeErrors, NoTree h.node 0 h.count ∧
          exec .readTree s = .next (errorEntry e (encode .readTree) (h.store (dropTree s)))) := by
  have hreads := readsFrom_des (maxDepth + 1) (.start r)
  cases hd : des (maxDepth + 1) (.start r) with
  | raised e h =>
    rw [hd] at hreads
    exact ⟨h, hreads.keeps, .inr ⟨e, hreads.err_mem e h rfl, noTree_of_des_raised hd, exec_readTree_of_raised herr hsrc hd⟩⟩
  | done i h =>
    rw [hd] at hreads
    refine ⟨h, hreads.keeps, ?_⟩
    obtain ⟨T, rfl, hdepth, hr⟩ := des_done _ _ _ _ hd (start_entries_zero r)
    by_cases hleaf : h.node[(0 : NodeIdx)].kind = .leaf
    · exact .inr ⟨.hdrLeafRoot, by simp [readTreeErrors], noTree_of_leaf_root hleaf,
        exec_readTree_of_leaf_root herr hsrc hd hleaf⟩
    by_cases hs : sentinel ∈ h.seen
    · have hmem : sentinel ∈ T.leaves := ((hr.seen_eq _).1 hs).resolve_left List.not_mem_nil
      have hint := (CodeTree.isInternal_iff_kind_root hr.held (Fin.ext hr.root_eq)).2 hleaf
      exact .inl ⟨T, hr, hr.isTree hint (Nat.le_of_lt_succ hdepth) hmem, exec_readTree_of_checked herr hsrc hd hleaf hs⟩
    · exact .inr ⟨.hdrNoSentinel, by simp [readTreeErrors], hr.noTree hs,
        exec_readTree_of_no_sentinel herr hsrc hd hleaf hs⟩

end Sys2Proof.Machine

namespace Sys2Proof.Proofs

open Sys2Proof Sys2Proof.Machine

/-- Settles O30: `des` on a header gives back its tree (`exec_readTree_of_header`), and `ReadSubtree` says what it consumed and
wrote. -/
theorem readTreeRebuildsTheTreeOfAHeader : Obligations.ReadTreeRebuildsTheTreeOfAHeader := by
  unfold Obligations.ReadTreeRebuildsTheTreeOfAHeader
  intro s r T rest herr hsrc hbits hint hdepth hnd hs
  obtain ⟨h, T', hexec, hshape, hr, hT'⟩ := exec_readTree_of_header herr hsrc hbits hint hdepth hnd hs
  refine ⟨_, T', hexec, hT', hshape, ?_, hr.weights (start_weights_zero r), ?_⟩
  · have hcount : h.count.val = T'.indices.length := hr.count_eq.trans (Nat.zero_add _)
    have hindices : T'.indices.map (·.val) = List.range' 0 T'.indices.length := hr.indices_eq
    rw [hindices, ← hcount, List.range_eq_range']
    rfl
  · have hpos : h.src = { bits := r.bits, pos := r.pos + T.header.length } := by
      rw [hr.src_eq, CodeTree.sameShape_header hshape]
      rfl
    have hlen : h.hdrBits = BitVec.ofNat 32 T.header.length := by
      rw [hr.hdrBits_eq, CodeTree.sameShape_header hshape]
      exact bump_zero _
    rw [← hpos, ← hlen]
    rfl

/-- Settles O31: of READ_TREE's two ends the one without an error is that of a header read. -/
theorem readTreeAcceptsOnlyHeadersOfTrees : Obligations.ReadTreeAcceptsOnlyHeadersOfTrees := by
  unfold Obligations.ReadTreeAcceptsOnlyHeadersOfTrees
  intro s t r herr hsrc hexec hterr
  obtain ⟨h, hkeeps, ⟨T, hr, hT, hend⟩ | ⟨e, -, -, hend⟩⟩ := exec_readTree_cases herr hsrc
  · obtain rfl := Host.Outcome.next.inj (hexec.symm.trans hend)
    have hconsumed := hr.consumed
    have hbits : h.src.bits = r.bits := hkeeps.bits_eq
    rw [hbits] at hconsumed
    exact ⟨T, hT, rfl, h.src, rfl, hbits, hconsumed⟩
  · obtain rfl := Host.Outcome.next.inj (hexec.symm.trans hend)
    exact absurd hterr (code_ne_zero e)

/-- Settles O32: of READ_TREE's two ends the one with an error leaves no tree, and writes what it has read and allocated. -/
theorem failedReadTreeLeavesNoTree : Obligations.FailedReadTreeLeavesNoTree := by
  unfold Obligations.FailedReadTreeLeavesNoTree
  intro s r herr hsrc
  obtain ⟨h, hkeeps, ⟨T, -, -, hend⟩ | ⟨e, he, hno, hend⟩⟩ := exec_readTree_cases herr hsrc
  · exact ⟨_, hend, fun hne => absurd herr hne⟩
  · have hcode : e.code ∈ readTreeErrors.map Err.code := List.mem_map_of_mem he
    have hbits : h.src = { bits := r.bits, pos := h.src.pos } := by
      rw [← show h.src.bits = r.bits from hkeeps.bits_eq]
    refine ⟨_, hend, fun _ => ⟨hcode, hno, h.src.pos, ?_⟩⟩
    rw [← hbits]
    rfl

end Sys2Proof.Proofs
end

section
/-! PROOFS. Headers that READ_TREE rejects (R105, R107 to R109). -/

namespace Sys2Proof.Machine

/-! ## One call of `des` that raises -/

section
variable {r : Nat} {h : HeaderReader} {rest : List Bool} (hroom : h.count.val < 513)
include hroom

/-- What the left subtree raises, the node raises. -/
theorem des_succ_of_left_raised {e : Err} {h' : HeaderReader} (hbits : h.src.bits.drop h.src.pos = false :: rest)
    (hleft : des r (h.tagged hroom) = .raised e h') : des (r + 1) h = .raised e h' := by
  rw [des_succ_of_tag hroom hbits, if_neg Bool.false_ne_true, hleft]

/-- What the right subtree raises, the node raises. -/
theorem des_succ_of_right_raised {e : Err} {left : NodeIdx} {h₃ h' : HeaderReader}
    (hbits : h.src.bits.drop h.src.pos = false :: rest) (hleft : des r (h.tagged hroom) = .done left h₃)
    (hright : des r (h₃.setLeft ⟨h.count.val, hroom⟩ left) = .raised e h') : des (r + 1) h = .raised e h' := by
  rw [des_succ_of_tag hroom hbits, if_neg Bool.false_ne_true, hleft]
  simp only [hright]

/-- R108: a leaf with a symbol above 256. -/
theorem des_succ_of_bad_symbol {v : Nat} (hv : 256 < v) (hlt : v < 512)
    (hbits : h.src.bits.drop h.src.pos = true :: (bitsOf 9 v ++ rest)) :
    ∃ h', des (r + 1) h = .raised .hdrBadSymbol h' ∧ h'.count.val = h.count.val + 1 := by
  have hread := BitSource.readBits_bitsOf (r := (h.tagged hroom).src) (BitSource.drop_of_drop_cons hbits) (by decide) hlt
  rw [des_succ_of_tag hroom hbits, if_pos rfl, desLeaf, hread]
  simp only [symbolOf?_eq_none.2 hv]
  exact ⟨_, rfl, rfl⟩

/-- R108: a leaf with a symbol already read. -/
theorem des_succ_of_seen_symbol {a : Symbol} (ha : a ∈ h.seen)
    (hbits : h.src.bits.drop h.src.pos = true :: (bitsOf 9 a.val ++ rest)) :
    ∃ h', des (r + 1) h = .raised .hdrDupSymbol h' ∧ h'.count.val = h.count.val + 1 := by
  have hread := BitSource.readBits_bitsOf (r := (h.tagged hroom).src) (BitSource.drop_of_drop_cons hbits) (by decide)
    (a.isLt.trans (by decide))
  have hseen : a ∈ (h.tagged hroom).seen := ha
  rw [des_succ_of_tag hroom hbits, if_pos rfl, desLeaf, hread]
  simp only [symbolOf?_val, if_pos hseen]
  exact ⟨_, rfl, rfl⟩

end

/-- R107: as many internal nodes as a path may hold, and no leaf among them. -/
theorem des_of_zeros (r : Nat) {h : HeaderReader} {rest : List Bool} (hroom : h.count.val + r ≤ 513)
    (hbits : h.src.bits.drop h.src.pos = List.replicate r false ++ rest) :
    ∃ h', des r h = .raised .hdrTooDeep h' ∧ h'.count.val = h.count.val + r := by
  induction r generalizing h with
  | zero => exact ⟨h, rfl, rfl⟩
  | succ r ih =>
    have hlt : h.count.val < 513 := by omega
    rw [List.replicate_succ, List.cons_append] at hbits
    obtain ⟨h', hleft, hcount⟩ := ih (h := h.tagged hlt) (by simp only [HeaderReader.tagged]; omega)
      (BitSource.drop_of_drop_cons hbits)
    refine ⟨h', des_succ_of_left_raised hlt hbits hleft, ?_⟩
    rw [hcount]
    simp only [HeaderReader.tagged]
    omega

/-- R105, R106: at an internal node whose left subtree's header can be read, a reader `g` is reached that reads the right
subtree; what `g` raises, the node raises. -/
theorem exists_reader_after_left {r : Nat} {h : HeaderReader} {T : CodeTree} {rest : List Bool}
    (hbits : h.src.bits.drop h.src.pos = false :: (T.header ++ rest)) (hdepth : T.depth < r)
    (hroom : h.count.val + 1 + T.indices.length ≤ 513) (hnd : T.leaves.Nodup) (hnew : ∀ a ∈ T.leaves, a ∉ h.seen)
    (hzero : ∀ i : NodeIdx, h.count.val ≤ i.val → h.node[i] = Node.zero) :
    ∃ g : HeaderReader, (∀ e h', des r g = .raised e h' → des (r + 1) h = .raised e h') ∧
      g.src.bits.drop g.src.pos = rest ∧ g.count.val = h.count.val + 1 + T.indices.length ∧
      (∀ a, a ∈ g.seen ↔ a ∈ h.seen ∨ a ∈ T.leaves) ∧
      ∀ i : NodeIdx, g.count.val ≤ i.val → g.node[i] = Node.zero := by
  have hlt : h.count.val < 513 := by omega
  have hzero' (i : NodeIdx) (hi : (h.tagged hlt).count.val ≤ i.val) : (h.tagged hlt).node[i] = Node.zero :=
    hzero i (Nat.le_of_succ_le hi)
  obtain ⟨h₃, T', hleft, hshape, hr⟩ := des_of_header T r (h.tagged hlt) rest (BitSource.drop_of_drop_cons hbits) hdepth
    hroom hnd hnew hzero'
  have hlen : T'.indices.length = T.indices.length := by
    have h₁ := T.indices_length
    have h₂ := T'.indices_length
    rw [← CodeTree.sameShape_leaves hshape] at h₂
    omega
  have hcount : h₃.count.val = h.count.val + 1 + T.indices.length := hlen ▸ hr.count_eq
  refine ⟨h₃.setLeft ⟨h.count.val, hlt⟩ T'.root, fun e h' => des_succ_of_right_raised hlt hbits hleft, ?_, hcount,
    fun a => ?_, fun i hi => ?_⟩
  · have hconsumed := hr.consumed
    rw [← CodeTree.sameShape_header hshape] at hconsumed
    exact List.append_cancel_left (hconsumed.symm.trans (BitSource.drop_of_drop_cons hbits))
  · rw [CodeTree.sameShape_leaves hshape]
    exact hr.seen_eq a
  · have hi' : h₃.count.val ≤ i.val := hi
    have hne : (⟨h.count.val, hlt⟩ : NodeIdx) ≠ i := Fin.ne_of_lt (show h.count.val < i.val by omega)
    rw [setLeft_get, if_neg hne, hr.others i (.inr hi')]
    exact hzero i (by omega)

/-- R108: an internal node over two leaves with one symbol. -/
theorem des_of_equal_leaves (r : Nat) {h : HeaderReader} {rest : List Bool} {a : Symbol} (hroom : h.count.val + 3 ≤ 513)
    (hnew : a ∉ h.seen) (hzero : ∀ i : NodeIdx, h.count.val ≤ i.val → h.node[i] = Node.zero)
    (hbits : h.src.bits.drop h.src.pos = false :: true :: (bitsOf 9 a.val ++ true :: (bitsOf 9 a.val ++ rest))) :
    ∃ h', des (r + 2) h = .raised .hdrDupSymbol h' ∧ h'.count.val = h.count.val + 3 := by
  have hroom' : h.count.val + 1 + (CodeTree.leaf 0 a).indices.length ≤ 513 := (Nat.le_succ _).trans hroom
  obtain ⟨g, hraise, hgbits, hgcount, hgseen, -⟩ := exists_reader_after_left (r := r + 1) (T := .leaf 0 a) hbits
    (Nat.succ_pos r) hroom' (List.nodup_singleton a) (by simpa [CodeTree.leaves] using hnew) hzero
  have hgcount' : g.count.val = h.count.val + 2 := hgcount
  obtain ⟨h', hdup, hcount⟩ := des_succ_of_seen_symbol (r := r) (by omega) ((hgseen a).2 (.inr List.mem_cons_self)) hgbits
  exact ⟨h', hraise _ _ hdup, by omega⟩

/-- R107: two subtrees with 256 leaves in all and one more internal node need more entries than there are. -/
theorem des_of_overflow {r : Nat} {h : HeaderReader} {rest : List Bool} {T₁ T₂ : CodeTree} (hstart : h.count.val = 0)
    (hbits : h.src.bits.drop h.src.pos = false :: (T₁.header ++ false :: (T₂.header ++ false :: rest)))
    (hnd : (T₁.leaves ++ T₂.leaves).Nodup) (hlen : (T₁.leaves ++ T₂.leaves).length = 256) (hd₁ : T₁.depth < r + 3)
    (hd₂ : T₂.depth < r + 2) (hnew : h.seen = []) (hzero : ∀ i : NodeIdx, h.count.val ≤ i.val → h.node[i] = Node.zero) :
    ∃ h', des (r + 4) h = .raised .hdrOverflow h' ∧ h'.count.val = 513 := by
  obtain ⟨hnd₁, hnd₂, hdisj⟩ := List.nodup_append.1 hnd
  rw [List.length_append] at hlen
  have hn₁ := T₁.indices_length
  have hn₂ := T₂.indices_length
  obtain ⟨g, hraise, hgbits, hgcount, hgseen, hgzero⟩ := exists_reader_after_left hbits hd₁ (by omega) hnd₁
    (by simp [hnew]) hzero
  have hnew₂ : ∀ a ∈ T₂.leaves, a ∉ g.seen := by
    intro a ha hmem
    rw [hgseen, hnew] at hmem
    exact hdisj a (hmem.resolve_left List.not_mem_nil) a ha rfl
  obtain ⟨k, hraise', hkbits, hkcount, -⟩ := exists_reader_after_left hgbits hd₂ (by omega) hnd₂ hnew₂ hgzero
  have hroom : k.count.val < 513 := by omega
  have hfull : ¬ (k.tagged hroom).count.val < 513 := by simp only [HeaderReader.tagged]; omega
  have hover := des_succ_of_left_raised hroom hkbits (des_succ_of_full hfull r)
  refine ⟨_, hraise _ _ (hraise' _ _ hover), ?_⟩
  simp only [HeaderReader.tagged]
  omega

end Sys2Proof.Machine

namespace Sys2Proof.Proofs

open Sys2Proof Sys2Proof.Machine

/-- A READ_TREE whose `des` raises enters that error and keeps the number of entries allocated. -/
theorem exists_readTree_error {s : State} {r : BitSource} {e : Err} {h : HeaderReader} {n : NodeCount} (herr : s.err = 0)
    (hsrc : s.src = some r) (hd : des (maxDepth + 1) (.start r) = .raised e h) (hn : h.count.val = n.val) :
    ∃ t, exec .readTree s = .next t ∧ t.err = e.code ∧ t.nodeCount = n :=
  ⟨_, exec_readTree_of_raised herr hsrc hd, rfl, Fin.ext hn⟩

/-- Settles O33: one lemma about `des` for each kind of header, and the two checks of R109 for the last but one. -/
theorem readTreeRejectsMalformedHeaders : Obligations.ReadTreeRejectsMalformedHeaders := by
  unfold Obligations.ReadTreeRejectsMalformedHeaders
  intro s r rest herr hsrc
  have hzero := start_entries_zero r
  have hcount₀ : (HeaderReader.start r).count.val = 0 := rfl
  have hroom : (HeaderReader.start r).count.val < 513 := by omega
  refine ⟨fun hbits => ?_, fun hbits => ?_, fun v hv hlt hbits => ?_, fun a hbits => ?_, fun a hbits => ?_,
    fun T hbits hint hdepth hnd hs => ?_, fun T₁ T₂ hbits hnd hlen hd₁ hd₂ => ?_⟩
  · exact exists_readTree_error herr hsrc (des_succ_of_exhausted hroom hbits maxDepth) rfl
  · obtain ⟨h, hd, hcount⟩ := des_of_zeros 257 (h := .start r) (by omega) hbits
    exact exists_readTree_error herr hsrc hd hcount
  · obtain ⟨h, hd, hcount⟩ := des_succ_of_bad_symbol (r := maxDepth) hroom hv hlt hbits
    exact exists_readTree_error herr hsrc hd hcount
  · obtain ⟨h, hd, hcount⟩ := des_of_equal_leaves 255 (h := .start r) (by omega) List.not_mem_nil hzero hbits
    exact exists_readTree_error herr hsrc hd hcount
  · obtain ⟨h, hd, hr⟩ := readSubtree_leaf hroom hbits List.not_mem_nil maxDepth
    exact ⟨_, exec_readTree_of_leaf_root herr hsrc hd (CodeTree.heldBy_leaf.1 hr.held).1, rfl, Fin.ext hr.count_eq⟩
  · have hlen := length_le_of_nodup hnd
    have hn := T.indices_length
    obtain ⟨h, T', hd, hshape, hr⟩ := des_of_header T (maxDepth + 1) (.start r) rest hbits (Nat.lt_succ_of_le hdepth)
      (by simp only [HeaderReader.start, Fin.val_zero]; omega) hnd (fun _ _ => List.not_mem_nil) hzero
    have hroot : T'.root = 0 := Fin.ext hr.root_eq
    have hleaf := (CodeTree.isInternal_iff_kind_root hr.held hroot).1 (CodeTree.sameShape_isInternal hshape ▸ hint)
    have hseen : sentinel ∉ h.seen := by
      rw [hr.seen_eq, ← CodeTree.sameShape_leaves hshape]
      exact fun hmem => hmem.elim List.not_mem_nil hs
    exact ⟨_, exec_readTree_of_no_sentinel herr hsrc hd hleaf hseen, rfl⟩
  · obtain ⟨h, hd, hcount⟩ := des_of_overflow (r := 253) (h := .start r) rfl hbits hnd hlen hd₁ hd₂ rfl hzero
    exact exists_readTree_error herr hsrc hd hcount

end Sys2Proof.Proofs
end

section
/-! PROOFS. DECODE_RUN on a body, on a body cut short, and on sources that differ behind what it reads (R59, R119); the checks of
the two decode commands in their order (R118, R119). -/

namespace Sys2Proof.Machine

/-! ## The checks (R118, R119) -/

section
variable {s : State} (w : Word) (run : Decoding → Ran Decoding Unit)

theorem decoding_of_no_tree (hvalid : s.treeValid = false) : decoding w s run = .next (errorEntry .noTree w s) := by
  rw [decoding, if_neg (by simp [hvalid]), raise_eq]

theorem decoding_of_done (hvalid : s.treeValid = true) (hs : s.decState = .done) : decoding w s run = .next s := by
  rw [decoding, if_pos hvalid, if_pos hs]

theorem decoding_of_closed {d : BitSink} (hvalid : s.treeValid = true) (hs : s.decState ≠ .done) (hsnk : s.snk = some d)
    (hclosed : d.closed = true) : decoding w s run = .next (errorEntry .sinkClosed w s) := by
  rw [decoding, if_pos hvalid, if_neg hs, needOpenSink_of_closed w hsnk hclosed]

end

/-- R118, R119: everything the two decode commands go on with: nothing to do in `DONE`, the error of a check, or the decoder's
run on the streams. -/
theorem decoding_next {s t : State} {w : Word} {run : Decoding → Ran Decoding Unit} (h : decoding w s run = .next t) :
    (s.treeValid = true ∧ s.decState = .done ∧ t = s) ∨ (∃ e, t = errorEntry e w s) ∨
      (s.treeValid = true ∧ s.decState ≠ .done ∧ ∃ r d, s.src = some r ∧ s.snk = some d ∧ d.closed = false ∧
        (run (decodingOf s r d)).stored w s = .next t) := by
  by_cases hvalid : s.treeValid = true
  swap
  · rw [decoding_of_no_tree _ _ (by simpa using hvalid)] at h
    exact .inr (.inl ⟨_, (Host.Outcome.next.inj h).symm⟩)
  by_cases hs : s.decState = .done
  · rw [decoding_of_done _ _ hvalid hs] at h
    exact .inl ⟨hvalid, hs, (Host.Outcome.next.inj h).symm⟩
  have hcheck := h
  rw [decoding, if_pos hvalid, if_neg hs] at hcheck
  obtain ⟨d, hsnk, ⟨-, ht⟩ | ⟨hopen, hcheck⟩⟩ := needOpenSink_next hcheck
  · exact .inr (.inl ⟨_, ht⟩)
  · obtain ⟨r, hsrc, -⟩ := needSource_next hcheck
    rw [decoding_of_open hvalid hsrc hsnk hopen w run hs] at h
    exact .inr (.inr ⟨hvalid, hs, r, d, hsrc, hsnk, hopen, h⟩)

theorem exec_decodeBit_of_err_zero {s : State} (herr : s.err = 0) :
    exec .decodeBit s = decoding (encode .decodeBit) s (transition s.node s.root) :=
  whenNoError_of_zero herr _

theorem exec_decodeRun_of_err_zero {s : State} (herr : s.err = 0) :
    exec .decodeRun s =
      decoding (encode .decodeRun) s fun d => transitions s.node s.root d.src.remaining d :=
  whenNoError_of_zero herr _

/-- R119, R120: on an exhausted source the loop raises TRUNCATED_BODY at once. -/
theorem transitions_exhausted {mem : NodeMem} {root : NodeIdx} {d : Decoding} (hs : d.decState ≠ .done)
    (hend : d.src.bits.length ≤ d.src.pos) :
    transitions mem root d.src.remaining d = .raised .truncatedBody d := by
  have hleft : d.src.remaining = 0 := Nat.sub_eq_zero_of_le hend
  rw [hleft, transitions, if_neg hs]

/-- R118, R119: with no bit left DECODE_RUN only raises TRUNCATED_BODY. -/
theorem exec_decodeRun_of_exhausted {s : State} {r : BitSource} {d : BitSink} (herr : s.err = 0)
    (hvalid : s.treeValid = true) (hsrc : s.src = some r) (hsnk : s.snk = some d) (hopen : d.closed = false)
    (hs : s.decState ≠ .done) (hend : r.bits.length ≤ r.pos) :
    exec .decodeRun s = .next (errorEntry .truncatedBody (encode .decodeRun) s) := by
  have hrun := transitions_exhausted (mem := s.node) (root := s.root) (d := decodingOf s r d) hs hend
  change transitions _ _ r.remaining _ = _ at hrun
  rw [exec_decodeRun_of_open herr hvalid hsrc hsnk hopen, hrun, Ran.stored_raised, decodingOf_store hsrc hsnk]

/-! ## Sources that agree on what is read -/

/-- A decoder on another source. -/
def Decoding.onSource (r : BitSource) (d : Decoding) : Decoding := { d with src := r }

/-- The source is of no matter to a move. -/
theorem arrive_onSource (mem : NodeMem) (root n : NodeIdx) (r : BitSource) (d : Decoding) :
    arrive mem root n (d.onSource r) = (arrive mem root n d).onSource r := by
  unfold arrive
  split
  · rfl
  · split <;> rfl

/-- R46, R117: a transition moves the source past one bit. -/
theorem src_of_transition_done {mem : NodeMem} {root : NodeIdx} {d d' : Decoding}
    (h : transition mem root d = .done () d') : d'.src = { d.src with pos := d.src.pos + 1 } := by
  rcases transition_cases mem root d with ⟨-, ht⟩ | ⟨b, rest, -, ht⟩
  · simp [ht] at h
  · obtain rfl := (Ran.done.inj (ht.symm.trans h)).2
    exact (arrive_keeps _ _ _ _).1

/-- R59, R117: a transition on a bit that another source shares is the same there. -/
theorem transition_onSource {mem : NodeMem} {root : NodeIdx} {bits tail : List Bool} {d d' : Decoding}
    (hsrc : d.src.bits = bits ++ tail) (h : transition mem root d = .done () d') (hlt : d.src.pos < bits.length)
    (tail' : List Bool) :
    transition mem root (d.onSource { bits := bits ++ tail', pos := d.src.pos }) =
      .done () (d'.onSource { bits := bits ++ tail', pos := d.src.pos + 1 }) := by
  rcases transition_cases mem root d with ⟨-, ht⟩ | ⟨b, rest, hb, ht⟩
  · simp [ht] at h
  · obtain rfl := (Ran.done.inj (ht.symm.trans h)).2
    have hb' : (bits ++ tail').drop d.src.pos = b :: (bits ++ tail').drop (d.src.pos + 1) := by
      rw [hsrc, List.drop_append_of_le_length hlt.le, List.drop_eq_getElem_cons hlt] at hb
      rw [List.drop_append_of_le_length hlt.le, List.drop_append_of_le_length hlt, List.drop_eq_getElem_cons hlt,
        ← (List.cons.inj hb).1]
      rfl
    refine (transition_of_drop (d := d.onSource { bits := bits ++ tail', pos := d.src.pos }) hb').trans ?_
    rw [← arrive_onSource]
    rfl

/-- R119: the loop never moves back. -/
theorem pos_le_of_transitions_done {mem : NodeMem} {root : NodeIdx} (n : Nat) {d d' : Decoding}
    (h : transitions mem root n d = .done () d') : d.src.pos ≤ d'.src.pos := by
  induction n generalizing d with
  | zero =>
    rw [transitions] at h
    split at h <;> simp at h
    rw [h]
  | succ n ih =>
    rw [transitions] at h
    split at h
    · rw [(Ran.done.inj h).2]
    · split at h
      · simp at h
      · next u d₁ ht =>
        have hpos := ih h
        rw [src_of_transition_done ht] at hpos
        exact (Nat.le_succ _).trans hpos

/-- R59, R119: a loop that ends in `DONE` within bits that another source shares ends there alike, with passes enough for the
bits read. -/
theorem transitions_onSource {mem : NodeMem} {root : NodeIdx} {bits tail : List Bool} (n n' : Nat) {d d' : Decoding}
    (hsrc : d.src.bits = bits ++ tail) (h : transitions mem root n d = .done () d') (hq : d'.src.pos ≤ bits.length)
    (hn' : d'.src.pos ≤ d.src.pos + n') (tail' : List Bool) :
    transitions mem root n' (d.onSource { bits := bits ++ tail', pos := d.src.pos }) =
      .done () (d'.onSource { bits := bits ++ tail', pos := d'.src.pos }) := by
  induction n generalizing d n' with
  | zero =>
    rw [transitions] at h
    split at h <;> simp at h
    next hs =>
    subst h
    exact transitions_of_done n' hs
  | succ n ih =>
    rw [transitions] at h
    split at h
    · next hs =>
      obtain rfl := (Ran.done.inj h).2
      exact transitions_of_done n' hs
    · next hs =>
      split at h
      · simp at h
      · next u d₁ ht =>
        have hpos := pos_le_of_transitions_done n h
        have hsrc₁ := src_of_transition_done ht
        have hpos₁ : d₁.src.pos = d.src.pos + 1 := by rw [hsrc₁]
        obtain ⟨m, rfl⟩ : ∃ m, n' = m + 1 := Nat.exists_eq_add_one.2 (by omega)
        have ht' := transition_onSource hsrc ht (by omega) tail'
        have hrest := ih m (by rw [hsrc₁]; exact hsrc) h (by omega)
        rw [hpos₁] at hrest
        rw [← hrest]
        exact transitions_succ (d := d.onSource { bits := bits ++ tail', pos := d.src.pos }) hs ht'

/-- The state with a source bound. -/
def State.withSource (r : BitSource) (s : State) : State := { s with src := some r }

/-- R59, R119: a loop that ends in `DONE` within bits that another source shares, stored. -/
theorem exec_decodeRun_withSource {s : State} {d : BitSink} {d' : Decoding} {bits tail : List Bool} {p : Nat}
    (herr : s.err = 0) (hvalid : s.treeValid = true) (hsnk : s.snk = some d) (hopen : d.closed = false)
    (hrun : transitions s.node s.root (BitSource.remaining { bits := bits ++ tail, pos := p })
      (decodingOf s { bits := bits ++ tail, pos := p } d) = .done () d')
    (hq : d'.src.pos ≤ bits.length) (tail' : List Bool) :
    exec .decodeRun (s.withSource { bits := bits ++ tail', pos := p }) =
      .next (Decoding.store (d'.onSource { bits := bits ++ tail', pos := d'.src.pos }) s) := by
  have hexec := exec_decodeRun_of_open (s := s.withSource { bits := bits ++ tail', pos := p }) herr hvalid rfl hsnk hopen
  have hon := transitions_onSource _ (BitSource.remaining { bits := bits ++ tail', pos := p }) rfl hrun hq
    (by simp only [BitSource.remaining, List.length_append, decodingOf]; omega) tail'
  exact hexec.trans (congrArg (Ran.stored _ _) hon)

end Sys2Proof.Machine

namespace Sys2Proof.Proofs

open Sys2Proof Sys2Proof.Machine

/-- Settles O42: the loop on the paths of a body (`transitions_body`), stored back. -/
theorem decodeRunDecodesABody : Obligations.DecodeRunDecodesABody := by
  unfold Obligations.DecodeRunDecodesABody
  intro s T r d bytes rest herr hvalid hT hs hcur hsrc hsnk hopen hbits hbytes
  obtain ⟨leaf, hleaf, hrun⟩ := exec_decodeRun_of_body herr hvalid hT hs hcur hsrc hsnk hopen hbits hbytes
  refine ⟨leaf, hleaf, hrun.trans ?_⟩
  rw [← bump_eq, ← hopen]
  rfl

/-- Settles O40: the checks of `decoding`, in its order, and the exhausted source. -/
theorem decodeChecksInOrder : Obligations.DecodeChecksInOrder := by
  unfold Obligations.DecodeChecksInOrder
  intro s herr
  rw [exec_decodeBit_of_err_zero herr, exec_decodeRun_of_err_zero herr]
  refine ⟨fun hvalid => ?_, fun hvalid hs => ?_, fun d hvalid hs hsnk hclosed => ?_,
    fun r d hvalid hs hsnk hopen hsrc hend => ?_⟩
  · exact ⟨decoding_of_no_tree _ _ hvalid, decoding_of_no_tree _ _ hvalid⟩
  · exact ⟨decoding_of_done _ _ hvalid hs, decoding_of_done _ _ hvalid hs⟩
  · exact ⟨decoding_of_closed _ _ hvalid hs hsnk hclosed, decoding_of_closed _ _ hvalid hs hsnk hclosed⟩
  · rw [← exec_decodeBit_of_err_zero herr, ← exec_decodeRun_of_err_zero herr]
    exact ⟨exec_decodeBit_of_exhausted herr hvalid hsrc hsnk hopen hs hend,
      exec_decodeRun_of_exhausted herr hvalid hsrc hsnk hopen hs hend⟩

/-- Settles O44: without an error DECODE_RUN found `DONE` and did nothing, or its loop ended, on shared bits only. -/
theorem decodeRunIgnoresWhatFollowsTheSentinel : Obligations.DecodeRunIgnoresWhatFollowsTheSentinel := by
  unfold Obligations.DecodeRunIgnoresWhatFollowsTheSentinel
  intro s t bits tail tail' p q herr h hterr htsrc hq
  have hexec (r : BitSource) := exec_decodeRun_of_err_zero (s := s.withSource r) herr
  rcases decoding_next ((hexec _).symm.trans h) with
    ⟨hvalid, hs, rfl⟩ | ⟨e, rfl⟩ | ⟨hvalid, hs, r, d, hsrc, hsnk, hopen, hrun⟩
  · obtain ⟨-, rfl⟩ := BitSource.mk.inj (Option.some.inj htsrc)
    exact (hexec _).trans (decoding_of_done _ _ hvalid hs)
  · exact absurd hterr (code_ne_zero e)
  · obtain rfl := Option.some.inj hsrc
    rcases transitions_ends (mem := s.node) (root := s.root) (BitSource.remaining { bits := bits ++ tail, pos := p })
      (decodingOf s { bits := bits ++ tail, pos := p } d) with ⟨d', hd, -⟩ | ⟨d', hd, -⟩
    all_goals obtain rfl := Host.Outcome.next.inj ((congrArg (Ran.stored _ _) hd).symm.trans hrun)
    · obtain rfl : q = d'.src.pos := by rw [Option.some.inj htsrc]
      exact exec_decodeRun_withSource herr hvalid hsnk hopen hd hq tail'
    · exact absurd hterr (code_ne_zero .truncatedBody)

/-- Settles O43: a run on the cut body that ended in `DONE` would end there on the whole body too, before the end of the
sentinel's path, which is where the run on the whole body ends. -/
theorem truncatedBodyIsRejected : Obligations.TruncatedBodyIsRejected := by
  unfold Obligations.TruncatedBodyIsRejected
  intro s T r d bytes missing herr hvalid hT hs hcur hsrc hsnk hopen hbits hmissing hbytes
  by_cases hend : r.bits.length ≤ r.pos
  · exact ⟨_, exec_decodeRun_of_exhausted herr hvalid hsrc hsnk hopen (hs.trans_ne nofun) hend, rfl, rfl⟩
  have hpos : r.pos ≤ r.bits.length := Nat.le_of_not_le hend
  rw [exec_decodeRun_of_open herr hvalid hsrc hsnk hopen]
  rcases transitions_ends (mem := s.node) (root := s.root) r.remaining (decodingOf s r d) with ⟨d', hd, -⟩ | ⟨d', hd, -⟩
  · obtain ⟨hbits', hq, -⟩ := transitions_keeps _ _ hpos d' (.inl hd)
    have hwhole : (r.bits ++ missing).drop r.pos = pathBody T bytes ++ [] := by
      rw [List.drop_append_of_le_length hpos, hbits, List.append_nil]
    obtain ⟨leaf, -, hrun⟩ := exec_decodeRun_of_body (s := s.withSource { bits := r.bits ++ missing, pos := r.pos }) herr
      hvalid hT hs hcur rfl hsnk hopen hwhole hbytes
    have hcut := exec_decodeRun_withSource (bits := r.bits) (tail := []) (p := r.pos) (d' := d') herr hvalid hsnk hopen
      (by simpa using hd) (by rwa [hbits'] at hq) missing
    have hsrcs := congrArg State.src (Host.Outcome.next.inj (hcut.symm.trans hrun))
    have hstop : d'.src.pos = r.pos + (pathBody T bytes).length := congrArg BitSource.pos (Option.some.inj hsrcs)
    have hlen := congrArg List.length hbits
    have hmissing' := List.length_pos_iff.2 hmissing
    rw [List.length_append, List.length_drop] at hlen
    rw [hbits'] at hq
    simp only [decodingOf] at hq
    omega
  · rw [hd]
    exact ⟨_, rfl, rfl, rfl⟩

end Sys2Proof.Proofs
end

section
/-! PROOFS. The tree BUILD_TREE leaves (R90 to R96): its nodes, its weights, its leaves, and the two small tables. -/

namespace Sys2Proof.Machine

/-! ## What the merge loop keeps -/

/-- R94: a merged node created in the next entry. -/
def Builder.merged (b : Builder) (a c : NodeIdx) (hroom : b.count.val < 513) : Builder :=
  { node := b.node.set b.count.val (mergedNode b.node a c), count := ⟨b.count.val + 1, by omega⟩ }

theorem Builder.merged_get (b : Builder) (a c : NodeIdx) (hroom : b.count.val < 513) (i : NodeIdx) :
    (b.merged a c hroom).node[i] = if b.count.val = i.val then mergedNode b.node a c else b.node[i] := by
  have hget := set_get b.node ⟨b.count.val, hroom⟩ i (mergedNode b.node a c)
  simp only [Fin.ext_iff] at hget
  exact hget

/-- What every merge keeps, the whole loop keeps. -/
theorem mergeLoop_induct {P : Builder → Prop} (hmerge : ∀ b a c hroom, P b → P (b.merged a c hroom)) (fuel : Nat)
    {b : Builder} (q : List NodeIdx) (hb : P b) : P (mergeLoop fuel b q) := by
  induction fuel generalizing b q with
  | zero => exact hb
  | succ fuel ih =>
    rw [mergeLoop]
    split
    · exact hb
    · next a q₁ _ =>
      split
      · exact hb
      · next c q₂ _ =>
        by_cases hroom : b.count.val < 513
        · rw [newNode_of_room _ hroom]
          exact ih _ (hmerge b a c hroom hb)
        · rw [Builder.newNode, dif_neg hroom]
          exact hb

/-- R94: the entries in use before the loop are as they were. -/
theorem mergeLoop_get {b : Builder} (fuel : Nat) (q : List NodeIdx) {i : NodeIdx} (hi : i.val < b.count.val) :
    (mergeLoop fuel b q).node[i] = b.node[i] := by
  refine (mergeLoop_induct (P := fun b' => i.val < b'.count.val ∧ b'.node[i] = b.node[i]) ?_ fuel q ⟨hi, rfl⟩).2
  rintro b' a c hroom ⟨hlt, hget⟩
  refine ⟨Nat.lt_succ_of_lt hlt, ?_⟩
  rw [b'.merged_get, if_neg hlt.ne', hget]

/-- A leaf entry weighs what its symbol counts (R91, R92). -/
def Node.LeafWeighs (freq : FreqTable) (n : Node) : Prop := n.kind = .leaf → n.weight = freq[n.sym]

/-- Every leaf in use does. -/
def LeavesWeigh (freq : FreqTable) (b : Builder) : Prop :=
  ∀ i : NodeIdx, i.val < b.count.val → b.node[i].LeafWeighs freq

theorem LeavesWeigh.merged {freq : FreqTable} (b : Builder) (a c : NodeIdx) (hroom : b.count.val < 513)
    (h : LeavesWeigh freq b) : LeavesWeigh freq (b.merged a c hroom) := by
  intro i hi
  rw [b.merged_get]
  split
  · exact nofun
  · next hne => exact h i (Nat.lt_of_le_of_ne (Nat.le_of_lt_succ hi) (Ne.symm hne))

theorem LeavesOf.leavesWeigh {freq : FreqTable} {b : Builder} {syms : List Symbol} (h : LeavesOf freq b syms) :
    LeavesWeigh freq b := by
  intro i hi
  rw [h.leaf i _ (List.getElem?_eq_getElem (h.count_eq ▸ hi))]
  exact fun _ => rfl

theorem builtTree_leavesWeigh (freq : FreqTable) : LeavesWeigh freq (builtTree freq) :=
  mergeLoop_induct LeavesWeigh.merged _ _ (builtLeaves_leavesOf freq).leavesWeigh

/-! ## Weights -/

/-- R91, R94: leaves weigh what their symbols count, internal nodes as much as their children. -/
structure Weighed (freq : FreqTable) (mem : NodeMem) (count : NodeCount) : Prop where
  leaf : ∀ i : NodeIdx, i.val < count.val → mem[i].LeafWeighs freq
  internal : ∀ i : NodeIdx, i.val < count.val → mem[i].kind = .internal →
    mem[i].weight = mem[mem[i].left].weight + mem[mem[i].right].weight

theorem Weighed.of_mergeInv {freq : FreqTable} {b : Builder} {q : List NodeIdx} (hleaf : LeavesWeigh freq b)
    (hinv : MergeInv b q) : Weighed freq b.node b.count where
  leaf := hleaf
  internal i hi hint := (hinv.merged i hi hint).weight_eq

theorem builtTree_weighed {freq : FreqTable} (hpos : 0 < (countedSymbols freq).length) :
    Weighed freq (builtTree freq).node (builtTree freq).count :=
  .of_mergeInv (builtTree_leavesWeigh freq) (builtTree_mergeInv hpos).2

/-- The counts of a tree's leaves, in all. -/
def CodeTree.weight (freq : FreqTable) (t : CodeTree) : Nat := (t.leaves.map fun a => freq[a]).sum

theorem CodeTree.weight_leaf (freq : FreqTable) (i : NodeIdx) (a : Symbol) :
    (leaf i a).weight freq = freq[a] := by
  simp [weight, leaves]

theorem CodeTree.weight_node (freq : FreqTable) (i : NodeIdx) (l r : CodeTree) :
    (node i l r).weight freq = l.weight freq + r.weight freq := by
  simp [weight, leaves]

/-- R94, R95: the topmost node of a tree weighs what its leaves' symbols count, and no node below it weighs more. -/
theorem Weighed.root_weight {freq : FreqTable} {mem : NodeMem} {count : NodeCount} (h : Weighed freq mem count)
    {t : CodeTree} (ht : t.heldBy mem = true) (hin : ∀ i ∈ t.indices, i.val < count.val) :
    mem[t.root].weight = t.weight freq ∧ ∀ i ∈ t.indices, mem[i].weight ≤ t.weight freq := by
  induction t with
  | leaf k a =>
    obtain ⟨hk, hsym, -⟩ := CodeTree.heldBy_leaf.1 ht
    have hw : mem[k].weight = freq[a] :=
      (h.leaf k (hin k List.mem_cons_self) hk).trans (congrArg (fun a : Symbol => freq[a]) hsym)
    rw [CodeTree.weight_leaf]
    refine ⟨hw, fun i hi => ?_⟩
    obtain rfl := List.mem_singleton.1 hi
    exact hw.le
  | node k l r ihl ihr =>
    obtain ⟨⟨hk, -, hleft, hright⟩, hl, hr⟩ := CodeTree.heldBy_node.1 ht
    simp only [CodeTree.indices, List.mem_cons, List.mem_append] at hin
    obtain ⟨hwl, hlel⟩ := ihl hl fun i hi => hin i (.inr (.inl hi))
    obtain ⟨hwr, hler⟩ := ihr hr fun i hi => hin i (.inr (.inr hi))
    have hw := h.internal k (hin k (.inl rfl)) hk
    simp only [hleft, hright] at hw
    rw [hwl, hwr, ← CodeTree.weight_node freq k] at hw
    refine ⟨hw, fun i hi => ?_⟩
    simp only [CodeTree.indices, List.mem_cons, List.mem_append] at hi
    rcases hi with rfl | hi | hi
    · exact hw.le
    · exact (hlel i hi).trans (CodeTree.weight_node freq k l r ▸ Nat.le_add_right _ _)
    · exact (hler i hi).trans (CodeTree.weight_node freq k l r ▸ Nat.le_add_left _ _)

/-- R25: the tree's nodes are the entries in use, each once. -/
theorem IsTree.indices_perm {mem : NodeMem} {root : NodeIdx} {count : NodeCount} {t : CodeTree}
    (h : IsTree mem root count t) : t.indices.Perm (usedIndices count) :=
  (List.perm_ext_iff_of_nodup h.indices_nodup (usedIndices_nodup count)).2 fun i =>
    (h.indices_iff i).trans mem_usedIndices.symm

theorem IsTree.count_eq_length {mem : NodeMem} {root : NodeIdx} {count : NodeCount} {t : CodeTree}
    (h : IsTree mem root count t) : count.val = t.indices.length := by
  rw [h.indices_perm.length_eq, usedIndices_length]

/-! ## The sum of all counts -/

theorem toList_eq_map (freq : FreqTable) : freq.toList = allSymbols.map fun a => freq[a] :=
  List.ext_getElem (by simp [allSymbols]) fun i h₁ h₂ => by simp [allSymbols]

/-- Symbols with count 0 add nothing. -/
theorem sum_countedOf (freq : FreqTable) (syms : List Symbol) :
    ((countedOf freq syms).map fun a => freq[a]).sum = (syms.map fun a => freq[a]).sum := by
  induction syms with
  | nil => rfl
  | cons a syms ih =>
    by_cases ha : 0 < freq[a]
    · rw [countedOf, List.filter_cons_of_pos (by simpa using ha), List.map_cons, List.sum_cons, List.map_cons,
        List.sum_cons, ← ih, countedOf]
    · rw [countedOf, List.filter_cons_of_neg (by simpa using ha), List.map_cons, List.sum_cons, ← ih, countedOf]
      omega

/-- R92, R95: the leaves' symbols count what all symbols count; the placeholder adds nothing. -/
theorem sum_leafSymbols (freq : FreqTable) :
    ((leafSymbols freq).map fun a => freq[a]).sum = freq.toList.sum := by
  have hplaceholder (p : Symbol) (hp : p ∈ (placeholder? freq).toList) : freq[p] = 0 :=
    (placeholder?_eq_some.1 (Option.mem_toList.1 hp)).1
  rw [leafSymbols, List.map_append, List.sum_append, countedSymbols_eq, sum_countedOf, toList_eq_map, Nat.add_eq_left]
  split
  · refine List.sum_eq_zero fun n hn => ?_
    obtain ⟨p, hp, rfl⟩ := List.mem_map.1 hn
    exact hplaceholder p hp
  · rfl

theorem leafSymbols_length {freq : FreqTable} (hpos : 0 < (countedSymbols freq).length) :
    (leafSymbols freq).length = max (countedSymbols freq).length 2 := by
  rw [← (builtLeaves_leavesOf freq).count_eq, (builtLeaves_spec hpos).1]

/-- R21, R95: counts of `w` bits make weights of `w + 9` bits. -/
theorem sum_toList_lt {freq : FreqTable} {w : Nat} (h : ∀ a : Symbol, freq[a] < 2 ^ w) :
    freq.toList.sum < 2 ^ (w + 9) := by
  have hle : freq.toList.sum ≤ freq.toList.length • 2 ^ w := by
    refine List.sum_le_card_nsmul _ _ fun n hn => ?_
    rw [toList_eq_map] at hn
    obtain ⟨a, -, rfl⟩ := List.mem_map.1 hn
    exact (h a).le
  have hlen : freq.toList.length = 257 := Vector.length_toList
  have hpos := Nat.two_pow_pos w
  rw [hlen, smul_eq_mul] at hle
  rw [pow_add]
  omega

/-- R25, R95: the same of the root and the entries of a valid tree. -/
theorem Weighed.weight_of_isTree {freq : FreqTable} {mem : NodeMem} {root : NodeIdx} {count : NodeCount} {T : CodeTree}
    (h : Weighed freq mem count) (hT : IsTree mem root count T) :
    mem[root].weight = T.weight freq ∧ ∀ i : NodeIdx, mem[i].weight ≤ T.weight freq := by
  obtain ⟨hroot, hle⟩ := h.root_weight hT.held fun i hi => (hT.indices_iff i).1 hi
  obtain rfl := hT.root_eq
  refine ⟨hroot, fun i => ?_⟩
  by_cases hi : i.val < count.val
  · exact hle i ((hT.indices_iff i).2 hi)
  · rw [hT.rest_zero i (Nat.le_of_not_lt hi)]
    exact Nat.zero_le _

/-- R90, R95: the nodes of a builder are one tree of R25 over the leaf symbols of a table, its weights made of the counts. -/
structure BuiltFrom (freq : FreqTable) (b : Builder) (T : CodeTree) : Prop where
  isTree : IsTree b.node (lastNode b.count) b.count T
  leaves_perm : T.leaves.Perm (leafSymbols freq)
  weighed : Weighed freq b.node b.count

/-- R95: the root weighs as much as all counts, and no entry more. -/
theorem BuiltFrom.weight {freq : FreqTable} {b : Builder} {T : CodeTree} (h : BuiltFrom freq b T) :
    b.node[lastNode b.count].weight = freq.toList.sum ∧ ∀ i : NodeIdx, b.node[i].weight ≤ freq.toList.sum := by
  have hweight := h.weighed.weight_of_isTree h.isTree
  rwa [CodeTree.weight, (h.leaves_perm.map _).sum_eq, sum_leafSymbols] at hweight

theorem countedSymbols_pos {freq : FreqTable} (hs : 0 < freq[sentinel]) : 0 < (countedSymbols freq).length :=
  List.length_pos_of_mem (mem_countedSymbols.2 hs)

/-- R90, R95: with the sentinel counted BUILD_TREE builds such a tree. -/
theorem exists_builtFrom {freq : FreqTable} (hs : 0 < freq[sentinel]) : ∃ T, BuiltFrom freq (builtTree freq) T := by
  obtain ⟨T, hT, hleaves⟩ := exists_builtTree_isTree hs
  exact ⟨T, hT, hleaves, builtTree_weighed (countedSymbols_pos hs)⟩

/-! ## GEN_CODES -/

/-- R97: with `TREE_VALID` GEN_CODES writes the table that its walk makes. -/
theorem exec_genCodes_of_walk {s : State} {codes : CodeTable} (herr : s.err = 0) (hvalid : s.treeValid = true)
    (h : walk s.node (maxDepth + 1) s.root 0 0 emptyCodes = some codes) :
    exec .genCodes s = .next { s with code := codes, codesValid := true } := by
  refine (whenNoError_of_zero herr _).trans ?_
  rw [genCodes, if_pos hvalid, h]

/-! ## The first entries -/

/-- R91, R92: the leaves BUILD_TREE starts from stay where they are. -/
theorem builtTree_get_leaf {freq : FreqTable} {i : NodeIdx} {a : Symbol} (h : (leafSymbols freq)[i.val]? = some a) :
    (builtTree freq).node[i] = leafNode a freq[a] := by
  have hleaves := builtLeaves_leavesOf freq
  obtain ⟨hi, -⟩ := List.getElem?_eq_some_iff.1 h
  rw [builtTree, mergeLoop_get _ _ (hleaves.count_eq ▸ hi), hleaves.leaf i a h]

/-! ## A table with one count (R92) -/

theorem leafSymbols_of_single {freq : FreqTable} {a p : Symbol} (ha : countedSymbols freq = [a])
    (hp : placeholder? freq = some p) : leafSymbols freq = [a, p] := by
  rw [leafSymbols, ha, hp]
  rfl

theorem countedSymbols_of_single {freq : FreqTable} {a : Symbol} (ha : 0 < freq[a]) (h : ∀ b, b ≠ a → freq[b] = 0) :
    countedSymbols freq = [a] := by
  have hnd : (countedSymbols freq).Nodup := (List.nodup_finRange 257).filter _
  refine List.perm_singleton.1 ((List.perm_ext_iff_of_nodup hnd (List.nodup_singleton a)).2 fun b => ?_)
  rw [mem_countedSymbols, List.mem_singleton]
  refine ⟨fun hb => ?_, fun hb => hb ▸ ha⟩
  by_contra hne
  exact hb.ne' (h b hne)

/-- R93, R94: of two leaves the second of which weighs less, the second becomes the left child of the one merge. -/
theorem mergeLoop_two {b : Builder} {q : List NodeIdx} (hcount : b.count.val = 2) (hnd : q.Nodup)
    (hq : ∀ j, j ∈ q ↔ j = 0 ∨ j = 1) (hlt : b.node[(1 : NodeIdx)].weight < b.node[(0 : NodeIdx)].weight)
    {fuel : Nat} (hfuel : 0 < fuel) : mergeLoop fuel b q = b.merged 1 0 (by omega) := by
  obtain ⟨fuel, rfl⟩ := Nat.exists_eq_add_one.2 hfuel
  have hlen : q.length = 2 := ((List.perm_ext_iff_of_nodup hnd (by decide : [(0 : NodeIdx), 1].Nodup)).2 fun j => by
    simp [hq]).length_eq
  obtain ⟨a, c, ha, hc, hloop⟩ := mergeLoop_succ (b := b) (q := q) fuel (by omega) (by omega)
  obtain ⟨hamem, -, halen, hmin⟩ := extractMin_spec ha
  obtain ⟨hcmem, -, hclen, -⟩ := extractMin_spec hc
  obtain rfl : a = 1 := by
    rcases (hq a).1 hamem with rfl | rfl
    · exact absurd (keyLt_iff.2 (.inl hlt)) (hmin 1 ((hq 1).2 (.inr rfl)))
    · rfl
  obtain rfl : c = 0 := by
    obtain ⟨hne, hcq⟩ := hnd.mem_erase_iff.1 hcmem
    exact ((hq c).1 hcq).resolve_right hne
  have hnil : (q.erase 1).erase 0 = [] := List.length_eq_zero_iff.1 (by omega)
  rw [hloop, hnil, mergeLoop_single]
  rfl

/-- R92: the tree of one count is one merge of its leaf and the placeholder. -/
theorem builtTree_of_single {freq : FreqTable} {a p : Symbol} (ha : countedSymbols freq = [a])
    (hp : placeholder? freq = some p) :
    (builtTree freq).count.val = 3 ∧ (builtTree freq).node[(0 : NodeIdx)] = leafNode a freq[a] ∧
      (builtTree freq).node[(1 : NodeIdx)] = leafNode p 0 ∧
      (builtTree freq).node[(2 : NodeIdx)] =
        { kind := .internal, sym := 0, left := 1, right := 0, weight := freq[a] } := by
  have hsyms := leafSymbols_of_single ha hp
  have hp0 : freq[p] = 0 := (placeholder?_eq_some.1 hp).1
  have hapos : 0 < freq[a] := mem_countedSymbols.1 (ha ▸ List.mem_cons_self)
  have hleaves := builtLeaves_leavesOf freq
  have hcount : (builtLeaves freq).count.val = 2 := by rw [hleaves.count_eq, hsyms]; rfl
  have h₀ : (builtLeaves freq).node[(0 : NodeIdx)] = leafNode a freq[a] := hleaves.leaf 0 a (by rw [hsyms]; rfl)
  have h₁ : (builtLeaves freq).node[(1 : NodeIdx)] = leafNode p 0 := by
    rw [hleaves.leaf 1 p (by rw [hsyms]; rfl), hp0]
  have htree : builtTree freq = (builtLeaves freq).merged 1 0 (by omega) := by
    refine mergeLoop_two hcount (usedIndices_nodup _) (fun j => ?_) (by rw [h₀, h₁]; exact hapos) (by omega)
    rw [mem_usedIndices, hcount, Fin.ext_iff, Fin.ext_iff]
    simp only [Fin.val_zero, Fin.val_one]
    omega
  rw [htree]
  refine ⟨congrArg (· + 1) hcount, ?_, ?_, ?_⟩
  · rw [Builder.merged_get, hcount, if_neg (by decide), h₀]
  · rw [Builder.merged_get, hcount, if_neg (by decide), h₁]
  · rw [Builder.merged_get, hcount, if_pos (by decide), mergedNode, h₀, h₁]
    simp [leafNode]

end Sys2Proof.Machine

namespace Sys2Proof.Proofs

open Sys2Proof Sys2Proof.Machine

/-- Settles O18: what BUILD_TREE installs is `exists_builtFrom`'s tree. -/
theorem buildTreeInstallsATree : Obligations.BuildTreeInstallsATree := by
  unfold Obligations.BuildTreeInstallsATree
  intro s herr hsent
  have hs : 0 < s.freq[sentinel] := Nat.one_pos.trans_eq hsent.symm
  obtain ⟨T, hbuilt⟩ := exists_builtFrom hs
  have hexec := exec_buildTree_of_count herr hs.ne'
  generalize builtTree s.freq = b at hbuilt hexec
  obtain ⟨hroot, -⟩ := hbuilt.weight
  obtain ⟨hT, hleaves, hweighed⟩ := hbuilt
  have hlen : T.leaves.length = max (countedSymbols s.freq).length 2 :=
    hleaves.length_eq.trans (leafSymbols_length (countedSymbols_pos hs))
  have hcount : b.count.val + 1 = 2 * T.leaves.length := hT.count_eq_length ▸ T.indices_length
  refine ⟨_, T, hexec, hT, rfl, hlen ▸ hcount, ?_, fun a ha => ?_, hlen, fun i => hweighed.internal i, hroot⟩
  · exact Nat.sub_add_cancel (Nat.zero_lt_of_lt hT.root_lt)
  · exact hleaves.mem_iff.2 (mem_leafSymbols_of_pos ha)

/-- Settles O19: the counted symbols are the first of the leaf symbols, and their leaves stay where they were created. -/
theorem buildTreeCreatesLeavesInSymbolOrder : Obligations.BuildTreeCreatesLeavesInSymbolOrder := by
  unfold Obligations.BuildTreeCreatesLeavesInSymbolOrder
  intro s herr hsent
  refine ⟨_, exec_buildTree_of_count herr (hsent.trans_ne one_ne_zero), fun i a hi => builtTree_get_leaf ?_⟩
  obtain ⟨hlt, -⟩ := List.getElem?_eq_some_iff.1 hi
  rw [leafSymbols, List.getElem?_append_left hlt, hi]

/-- Settles O20: the tree of one count (`builtTree_of_single`), and the walk over it. -/
theorem buildTreeAddsThePlaceholder : Obligations.BuildTreeAddsThePlaceholder := by
  unfold Obligations.BuildTreeAddsThePlaceholder
  intro s a herr hapos hothers
  have ha := countedSymbols_of_single hapos hothers
  obtain ⟨p, hp⟩ := exists_placeholder (freq := s.freq) (by rw [ha]; rfl)
  obtain ⟨hp0, hpmin⟩ := placeholder?_eq_some.1 hp
  have hne : p ≠ a := by
    rintro rfl
    exact hapos.ne' hp0
  have hexec := exec_buildTree_of_count herr hapos.ne'
  have htree := builtTree_of_single ha hp
  generalize builtTree s.freq = b at htree hexec
  obtain ⟨hcount, h₀, h₁, h₂⟩ := htree
  have hroot : lastNode b.count = 2 := Fin.ext (by simp [lastNode, hcount])
  refine ⟨p, _, hp0, hpmin, hexec, Fin.ext hcount, hroot, h₀, h₁, h₂, ?_⟩
  have hheld : (CodeTree.node 2 (.leaf 1 p) (.leaf 0 a)).heldBy b.node = true := by
    rw [CodeTree.heldBy_node, CodeTree.heldBy_leaf, CodeTree.heldBy_leaf, h₀, h₁, h₂]
    simp [leafNode]
  obtain ⟨codes, hwalk, hcodes⟩ := walk_eq (maxDepth + 1) 0 0 emptyCodes hheld
    (by simp [CodeTree.depth, maxDepth]) (by simpa [CodeTree.leaves] using hne)
  have hpath : (CodeTree.node 2 (.leaf 1 p) (.leaf 0 a)).path? p = some [false] := by simp [CodeTree.path?]
  have hpath' : (CodeTree.node 2 (.leaf 1 p) (.leaf 0 a)).path? a = some [true] := by simp [CodeTree.path?, hne]
  have hcode := hcodes p
  have hcode' := hcodes a
  simp only [hpath, hpath'] at hcode hcode'
  exact ⟨_, exec_genCodes_of_walk herr rfl (hroot ▸ hwalk), hcode.trans rfl, hcode'.trans rfl⟩

/-- Settles O23: the check of R96 finds every count 0. -/
theorem buildTreeWithoutSymbolsRaisesNoSymbols : Obligations.BuildTreeWithoutSymbolsRaisesNoSymbols := by
  unfold Obligations.BuildTreeWithoutSymbolsRaisesNoSymbols
  intro s herr hzero
  refine (whenNoError_of_zero herr _).trans ?_
  rw [buildTree, if_pos (List.all_eq_true.2 fun a _ => decide_eq_true (hzero a))]
  rfl

end Sys2Proof.Proofs
end

section
/-! PROOFS. Optimality (R95). The cost of a tree is the sum of its internal nodes' weights, so the cost of the built tree is what
its merges add up to. Against any other tree: the two smallest weights may be moved to two deepest siblings, and merging those
leaves a tree for the merged weights; so no merge costs more than the other tree pays for it. -/

namespace Sys2Proof.Machine

/-! ## Depths and costs -/

/-- The depths of the leaves, left to right. -/
def CodeTree.depths : CodeTree → List Nat
  | .leaf _ _ => [0]
  | .node _ l r => (l.depths ++ r.depths).map (· + 1)

/-- Weights paired with depths, and what they cost. -/
def pairCost (ps : List (Nat × Nat)) : Nat := (ps.map fun p => p.1 * p.2).sum

theorem pairCost_cons (p : Nat × Nat) (ps : List (Nat × Nat)) : pairCost (p :: ps) = p.1 * p.2 + pairCost ps := by
  simp [pairCost]

theorem pairCost_perm {ps qs : List (Nat × Nat)} (h : ps.Perm qs) : pairCost ps = pairCost qs := (h.map _).sum_eq

namespace CodeTree

variable {l r : CodeTree} {i : NodeIdx}

theorem path_node_left {a : Symbol} (ha : a ∈ l.leaves) : (node i l r).path a = false :: l.path a :=
  path_of_path? (by rw [path?, path?_of_mem ha])

theorem path_node_right {a : Symbol} (ha : a ∈ r.leaves) (hl : a ∉ l.leaves) :
    (node i l r).path a = true :: r.path a :=
  path_of_path? (by rw [path?, path?_eq_none.2 hl, path?_of_mem ha]; rfl)

/-- With distinct symbols a symbol's path is as long as its leaf is deep. -/
theorem map_path_length {t : CodeTree} (hnd : t.leaves.Nodup) : (t.leaves.map fun a => (t.path a).length) = t.depths := by
  induction t with
  | leaf i a => simp [leaves, depths, path, path?]
  | node i l r ihl ihr =>
    obtain ⟨hl, hr, hdisj⟩ := List.nodup_append.1 hnd
    rw [leaves, depths, List.map_append, List.map_append, ← ihl hl, ← ihr hr, List.map_map, List.map_map]
    congr 1
    · exact List.map_congr_left fun a ha => congrArg List.length (path_node_left ha)
    · exact List.map_congr_left fun a ha => congrArg List.length (path_node_right ha fun h => hdisj a h a ha rfl)

/-- R113: the cost of a tree pairs its leaves' counts with their depths. -/
theorem cost_eq_pairCost (freq : FreqTable) {t : CodeTree} :
    t.cost freq = pairCost (t.leaves.map fun a => (freq[a], (t.path a).length)) := by
  rw [cost, pairCost, List.map_map]
  rfl

/-- What the internal nodes of a tree weigh, in all. -/
def mergeCost (freq : FreqTable) : CodeTree → Nat
  | .leaf _ _ => 0
  | .node i l r => (CodeTree.node i l r).weight freq + l.mergeCost freq + r.mergeCost freq

/-- Every internal node adds one to the depths of its leaves. -/
theorem cost_eq_mergeCost (freq : FreqTable) {t : CodeTree} (hnd : t.leaves.Nodup) : t.cost freq = t.mergeCost freq := by
  induction t with
  | leaf i a => simp [cost, leaves, path, path?, mergeCost]
  | node i l r ihl ihr =>
    obtain ⟨hl, hr, hdisj⟩ := List.nodup_append.1 hnd
    have hleft : (l.leaves.map fun a => freq[a] * ((node i l r).path a).length).sum = l.cost freq + l.weight freq := by
      rw [cost, weight, ← List.sum_map_add]
      refine congrArg List.sum (List.map_congr_left fun a ha => ?_)
      rw [path_node_left ha]
      exact Nat.mul_succ _ _
    have hright : (r.leaves.map fun a => freq[a] * ((node i l r).path a).length).sum = r.cost freq + r.weight freq := by
      rw [cost, weight, ← List.sum_map_add]
      refine congrArg List.sum (List.map_congr_left fun a ha => ?_)
      rw [path_node_right ha fun h => hdisj a h a ha rfl]
      exact Nat.mul_succ _ _
    rw [cost, leaves, List.map_append, List.sum_append, hleft, hright, mergeCost, weight_node, ihl hl, ihr hr]
    omega

/-! ## Deepest siblings -/

theorem le_depth_of_mem_depths {t : CodeTree} {d : Nat} (h : d ∈ t.depths) : d ≤ t.depth := by
  induction t generalizing d with
  | leaf i a => simp_all [depths]
  | node i l r ihl ihr =>
    simp only [depths, List.mem_map, List.mem_append] at h
    obtain ⟨e, he | he, rfl⟩ := h
    · exact Nat.succ_le_succ ((ihl he).trans (le_max_left _ _))
    · exact Nat.succ_le_succ ((ihr he).trans (le_max_right _ _))

theorem depths_node_comm (i : NodeIdx) (l r : CodeTree) : (node i l r).depths.Perm (node i r l).depths :=
  List.perm_append_comm.map _

/-- The deepest leaves of a tree are in its deeper half. -/
theorem depths_perm_of_left {i : NodeIdx} {l r u : CodeTree} {D : Nat} {ds : List Nat}
    (hl : l.depths.Perm ((D + 1) :: (D + 1) :: ds)) (hu : u.depths.Perm (D :: ds)) :
    (node i l r).depths.Perm ((D + 2) :: (D + 2) :: (ds ++ r.depths).map (· + 1)) ∧
      (node i u r).depths.Perm ((D + 1) :: (ds ++ r.depths).map (· + 1)) :=
  ⟨(hl.append_right r.depths).map _, (hu.append_right r.depths).map _⟩

/-- A tree with an internal root has two deepest leaves that are siblings; some tree has their parent as a leaf instead. -/
theorem exists_deepest_siblings {t : CodeTree} {n : Nat} (h : t.depth = n + 1) :
    ∃ (u : CodeTree) (ds : List Nat), t.depths.Perm ((n + 1) :: (n + 1) :: ds) ∧ u.depths.Perm (n :: ds) := by
  induction t generalizing n with
  | leaf i a => simp [depth] at h
  | node i l r ihl ihr =>
    simp only [depth, Nat.add_right_cancel_iff] at h
    cases n with
    | zero =>
      cases l with
      | node => simp [depth] at h
      | leaf =>
        cases r with
        | node => simp [depth] at h
        | leaf => exact ⟨.leaf 0 0, [], .refl _, .refl _⟩
    | succ n =>
      rcases le_total r.depth l.depth with hle | hle
      · rw [max_eq_left hle] at h
        obtain ⟨u, ds, hl, hu⟩ := ihl h
        obtain ⟨hnode, hnode'⟩ := depths_perm_of_left (i := i) (r := r) hl hu
        exact ⟨.node i u r, _, hnode, hnode'⟩
      · rw [max_eq_right hle] at h
        obtain ⟨u, ds, hr, hu⟩ := ihr h
        obtain ⟨hnode, hnode'⟩ := depths_perm_of_left (i := i) (r := l) hr hu
        exact ⟨.node i u l, _, (depths_node_comm i l r).trans hnode, hnode'⟩

end CodeTree

/-! ## The exchange -/

/-- The smallest weight may be paired with the largest depth: that costs no more. -/
theorem exists_pairing_smallest_deepest {ps : List (Nat × Nat)} {w d : Nat} {ws ds : List Nat}
    (hw : (ps.map Prod.fst).Perm (w :: ws)) (hd : (ps.map Prod.snd).Perm (d :: ds)) (hmin : ∀ v ∈ ws, w ≤ v)
    (hmax : ∀ e ∈ ds, e ≤ d) :
    ∃ qs : List (Nat × Nat), (qs.map Prod.fst).Perm ws ∧ (qs.map Prod.snd).Perm ds ∧ w * d + pairCost qs ≤ pairCost ps := by
  obtain ⟨⟨w, e⟩, hp, rfl⟩ := List.mem_map.1 (hw.mem_iff.2 List.mem_cons_self)
  obtain ⟨⟨v, d⟩, hq, rfl⟩ := List.mem_map.1 (hd.mem_iff.2 List.mem_cons_self)
  have hps := List.perm_cons_erase hp
  by_cases heq : e = d
  · subst heq
    exact ⟨_, ((hps.symm.map _).trans hw).cons_inv, ((hps.symm.map _).trans hd).cons_inv,
      by rw [pairCost_perm hps, pairCost_cons]⟩
  · have hq' : (v, d) ∈ ps.erase (w, e) := (List.mem_erase_of_ne (by simp [Ne.symm heq])).2 hq
    obtain ⟨rest, hps'⟩ : ∃ rest, ps.Perm ((w, e) :: (v, d) :: rest) :=
      ⟨_, hps.trans ((List.perm_cons_erase hq').cons _)⟩
    have hws : (v :: rest.map Prod.fst).Perm ws := ((hps'.symm.map _).trans hw).cons_inv
    have hds : (e :: rest.map Prod.snd).Perm ds :=
      ((List.Perm.swap _ _ _).trans ((hps'.symm.map _).trans hd)).cons_inv
    have hcost : w * d + v * e ≤ w * e + v * d := mul_add_mul_le_mul_add_mul
      (hmin v (hws.mem_iff.1 List.mem_cons_self)) (hmax e (hds.mem_iff.1 List.mem_cons_self))
    refine ⟨(v, e) :: rest, hws, hds, ?_⟩
    simp only [pairCost_perm hps', pairCost_cons]
    omega

/-- R95: a tree over weights of which `a` and `c` are the smallest costs no less than `a + c` and some tree over the weights
with those two merged. -/
theorem exists_pairing_merged {t : CodeTree} {ps : List (Nat × Nat)} {a c : Nat} {ws : List Nat}
    (hd : (ps.map Prod.snd).Perm t.depths) (hw : (ps.map Prod.fst).Perm (a :: c :: ws)) (hac : a ≤ c)
    (hmin : ∀ v ∈ ws, c ≤ v) :
    ∃ (u : CodeTree) (qs : List (Nat × Nat)), (qs.map Prod.snd).Perm u.depths ∧
      (qs.map Prod.fst).Perm ((a + c) :: ws) ∧ a + c + pairCost qs ≤ pairCost ps := by
  obtain ⟨n, hn⟩ : ∃ n, t.depth = n + 1 := by
    cases t with
    | leaf =>
      have hlen := hd.length_eq.symm.trans ((List.length_map _).trans ((List.length_map _).symm.trans hw.length_eq))
      simp [CodeTree.depths] at hlen
    | node => exact ⟨_, rfl⟩
  obtain ⟨u, ds, htds, huds⟩ := CodeTree.exists_deepest_siblings hn
  have hmax (d : Nat) (h : d ∈ (n + 1) :: ds) : d ≤ n + 1 :=
    hn ▸ CodeTree.le_depth_of_mem_depths (htds.mem_iff.2 (List.mem_cons_of_mem _ h))
  obtain ⟨ps₁, hw₁, hd₁, hcost₁⟩ := exists_pairing_smallest_deepest hw (hd.trans htds)
    (fun v hv => (List.mem_cons.1 hv).elim (fun h => h ▸ hac) fun h => hac.trans (hmin v h)) hmax
  obtain ⟨ps₂, hw₂, hd₂, hcost₂⟩ := exists_pairing_smallest_deepest hw₁ hd₁ hmin
    fun d h => hmax d (List.mem_cons_of_mem _ h)
  refine ⟨u, (a + c, n) :: ps₂, (hd₂.cons n).trans huds.symm, hw₂.cons _, ?_⟩
  rw [pairCost_cons]
  simp only [Nat.mul_succ, Nat.add_mul] at hcost₁ hcost₂ ⊢
  omega

/-! ## The merges' weights -/

/-- What an entry weighs if it is internal. -/
def Node.internalWeight (n : Node) : Nat :=
  match n.kind with
  | .internal => n.weight
  | .leaf => 0

/-- What the internal entries in use weigh, in all. -/
def Builder.mergedWeight (b : Builder) : Nat := ((usedIndices b.count).map fun i => b.node[i].internalWeight).sum

theorem usedIndices_succ {count count' : NodeCount} {k : NodeIdx} (hk : count.val = k.val) (hcount : count'.val = k.val + 1) :
    (usedIndices count').Perm (k :: usedIndices count) := by
  have hnd : (k :: usedIndices count).Nodup :=
    List.nodup_cons.2 ⟨by simp [mem_usedIndices, hk], usedIndices_nodup count⟩
  refine (List.perm_ext_iff_of_nodup (usedIndices_nodup count') hnd).2 fun i => ?_
  rw [List.mem_cons, mem_usedIndices, mem_usedIndices, Fin.ext_iff]
  omega

/-- R94: a merge adds what its node weighs. -/
theorem Builder.mergedWeight_merged (b : Builder) (a c : NodeIdx) (hroom : b.count.val < 513) :
    (b.merged a c hroom).mergedWeight = b.node[a].weight + b.node[c].weight + b.mergedWeight := by
  have hperm := usedIndices_succ (count := b.count) (count' := (b.merged a c hroom).count) (k := ⟨b.count.val, hroom⟩) rfl rfl
  rw [mergedWeight, (hperm.map _).sum_eq, List.map_cons, List.sum_cons, b.merged_get, if_pos rfl, mergedWeight]
  refine congrArg₂ _ rfl (congrArg List.sum (List.map_congr_left fun i hi => ?_))
  rw [b.merged_get, if_neg (mem_usedIndices.1 hi).ne']

/-- Leaves are no merges. -/
theorem Builder.mergedWeight_of_leaves {b : Builder} (h : ∀ i : NodeIdx, i.val < b.count.val → b.node[i].kind = .leaf) :
    b.mergedWeight = 0 := by
  refine List.sum_eq_zero fun n hn => ?_
  obtain ⟨i, hi, rfl⟩ := List.mem_map.1 hn
  rw [Node.internalWeight, h i (mem_usedIndices.1 hi)]

/-- R94, R95: no tree over the queued weights costs less than the merges still to come. -/
theorem mergedWeight_mergeLoop_le {b : Builder} {q : List NodeIdx} (fuel : Nat) {t : CodeTree} {ps : List (Nat × Nat)}
    (hinv : MergeInv b q) (hpos : 0 < q.length) (hroom : b.count.val + q.length ≤ 514)
    (hw : (ps.map Prod.fst).Perm (q.map fun i => b.node[i].weight)) (hd : (ps.map Prod.snd).Perm t.depths) :
    (mergeLoop fuel b q).mergedWeight ≤ b.mergedWeight + pairCost ps := by
  induction fuel generalizing b q t ps with
  | zero => exact Nat.le_add_right _ _
  | succ fuel ih =>
    by_cases hone : q.length = 1
    · obtain ⟨r, rfl⟩ := List.length_eq_one_iff.1 hone
      rw [mergeLoop_single]
      exact Nat.le_add_right _ _
    obtain ⟨a, c, ha, hc, hloop⟩ := mergeLoop_succ (b := b) fuel (show 1 < q.length by omega) (by omega)
    obtain ⟨hamem, -, hlen₁, hamin⟩ := extractMin_spec ha
    obtain ⟨hcmem, -, hlen₂, hcmin⟩ := extractMin_spec hc
    have hle {i j : NodeIdx} (h : ¬ keyLt b.node j i = true) : b.node[i].weight ≤ b.node[j].weight := by
      rw [keyLt_iff] at h
      omega
    have hq : (q.map fun i => b.node[i].weight).Perm (b.node[a].weight :: b.node[c].weight ::
        (((q.erase a).erase c).map fun i => b.node[i].weight)) :=
      ((List.perm_cons_erase hamem).trans ((List.perm_cons_erase hcmem).cons a)).map _
    obtain ⟨u, qs, hqd, hqw, hcost⟩ := exists_pairing_merged hd (hw.trans hq) (hle (hamin c (List.mem_of_mem_erase hcmem)))
      fun v hv => by
        obtain ⟨j, hj, rfl⟩ := List.mem_map.1 hv
        exact hle (hcmin j (List.mem_of_mem_erase hj))
    have hroom' : b.count.val < 513 := by omega
    have hweights : ((⟨b.count.val, hroom'⟩ :: (q.erase a).erase c).map fun i => (b.merged a c hroom').node[i].weight) =
        (b.node[a].weight + b.node[c].weight) :: ((q.erase a).erase c).map fun i => b.node[i].weight := by
      rw [List.map_cons, b.merged_get, if_pos rfl]
      refine congrArg₂ _ rfl (List.map_congr_left fun i hi => ?_)
      have hlt : i.val < b.count.val := ((hinv.mem_iff i).1 (List.mem_of_mem_erase (List.mem_of_mem_erase hi))).1
      rw [b.merged_get, if_neg hlt.ne']
    have hrest : (mergeLoop fuel (b.merged a c hroom') (⟨b.count.val, hroom'⟩ :: (q.erase a).erase c)).mergedWeight ≤
        (b.merged a c hroom').mergedWeight + pairCost qs :=
      ih (hinv.merge ha hc hroom') (Nat.succ_pos _) (by simp only [List.length_cons, Builder.merged]; omega)
        (hweights ▸ hqw) hqd
    rw [b.mergedWeight_merged] at hrest
    rw [hloop]
    exact hrest.trans (by omega)

/-- R94: the internal nodes of a weighed tree are the merges that made it. -/
theorem Weighed.mergeCost_eq {freq : FreqTable} {mem : NodeMem} {count : NodeCount} (h : Weighed freq mem count)
    {t : CodeTree} (ht : t.heldBy mem = true) (hin : ∀ i ∈ t.indices, i.val < count.val) :
    (t.indices.map fun i => mem[i].internalWeight).sum = t.mergeCost freq := by
  induction t with
  | leaf k a =>
    obtain ⟨hk, -⟩ := CodeTree.heldBy_leaf.1 ht
    rw [CodeTree.indices, List.map_singleton, List.sum_singleton, Node.internalWeight, hk, CodeTree.mergeCost]
  | node k l r ihl ihr =>
    obtain ⟨hroot, -⟩ := h.root_weight ht hin
    obtain ⟨⟨hk, -⟩, hl, hr⟩ := CodeTree.heldBy_node.1 ht
    have hkw : mem[k].internalWeight = (CodeTree.node k l r).weight freq := by rw [Node.internalWeight, hk]; exact hroot
    simp only [CodeTree.indices, List.mem_cons, List.mem_append] at hin
    rw [CodeTree.indices, List.map_cons, List.sum_cons, List.map_append, List.sum_append,
      ihl hl fun i hi => hin i (.inr (.inl hi)), ihr hr fun i hi => hin i (.inr (.inr hi)), hkw, CodeTree.mergeCost,
      Nat.add_assoc]

/-- R113: the cost of the tree a builder holds. -/
theorem BuiltFrom.cost_eq {freq : FreqTable} {b : Builder} {T : CodeTree} (h : BuiltFrom freq b T) :
    T.cost freq = b.mergedWeight := by
  rw [CodeTree.cost_eq_mergeCost freq h.isTree.leaves_nodup,
    ← h.weighed.mergeCost_eq h.isTree.held fun i hi => (h.isTree.indices_iff i).1 hi, (h.isTree.indices_perm.map _).sum_eq]
  rfl

/-- R91: the leaves' weights are the leaf symbols' counts. -/
theorem LeavesOf.weights_perm {freq : FreqTable} {b : Builder} {syms : List Symbol} (h : LeavesOf freq b syms)
    (hpos : 0 < syms.length) (hnd : syms.Nodup) :
    ((usedIndices b.count).map fun i => b.node[i].weight).Perm (syms.map fun a => freq[a]) := by
  have hsyms := (Forest.of_leavesOf h hpos hnd).leaves_perm
  simp only [List.flatMap_map, CodeTree.leaves, ← List.map_eq_flatMap] at hsyms
  refine List.Perm.trans (.of_eq ?_) (hsyms.map fun a => freq[a])
  rw [List.map_map]
  refine List.map_congr_left fun i hi => ?_
  rw [mem_usedIndices, h.count_eq] at hi
  have hleaf : b.node[i].kind = .leaf := by
    rw [h.leaf i _ (List.getElem?_eq_getElem hi)]
    rfl
  exact h.leavesWeigh i (h.count_eq ▸ hi) hleaf

/-- R95: no tree over the leaf symbols costs less than the tree BUILD_TREE builds. -/
theorem BuiltFrom.cost_le {freq : FreqTable} {T T' : CodeTree} (hs : 0 < freq[sentinel])
    (h : BuiltFrom freq (builtTree freq) T) (hT' : T'.leaves.Perm T.leaves) : T.cost freq ≤ T'.cost freq := by
  have hleaves := builtLeaves_leavesOf freq
  obtain ⟨hcount, hkinds⟩ := builtLeaves_spec (countedSymbols_pos hs)
  have hle := countedSymbols_length_le freq
  have hused := usedIndices_length (builtLeaves freq).count
  have hweights := hleaves.weights_perm (List.length_pos_of_mem (mem_leafSymbols_of_pos hs)) (leafSymbols_nodup freq)
  have hbound := mergedWeight_mergeLoop_le (builtLeaves freq).count.val (t := T')
    (ps := T'.leaves.map fun a => (freq[a], (T'.path a).length)) (MergeInv.of_leaves hkinds) (by omega) (by omega)
    (by rw [List.map_map]; exact ((hT'.trans h.leaves_perm).map _).trans hweights.symm)
    (by rw [List.map_map]; exact .of_eq (CodeTree.map_path_length (hT'.nodup_iff.2 h.isTree.leaves_nodup)))
  rw [Builder.mergedWeight_of_leaves hkinds, Nat.zero_add] at hbound
  rw [h.cost_eq, CodeTree.cost_eq_pairCost]
  exact hbound

end Sys2Proof.Machine

namespace Sys2Proof.Proofs

open Sys2Proof Sys2Proof.Machine

/-- Settles O22: `BuiltFrom.cost_le` for the tree BUILD_TREE installs. -/
theorem buildTreeCodeIsOptimal : Obligations.BuildTreeCodeIsOptimal := by
  unfold Obligations.BuildTreeCodeIsOptimal
  intro s herr hsent
  have hs : 0 < s.freq[sentinel] := Nat.one_pos.trans_eq hsent.symm
  obtain ⟨T, hbuilt⟩ := exists_builtFrom hs
  exact ⟨_, T, exec_buildTree_of_count herr hs.ne', hbuilt.isTree, fun T' => hbuilt.cost_le hs⟩

end Sys2Proof.Proofs
end

section
/-! PROOFS. The codes as fields (R26, R97, R99), and the commands that write or check the wire format: the magic number (R102,
R104), the header (R103), the codes of symbols and of the whole source (R110 to R114). -/

namespace Sys2Proof.Machine

/-! ## GEN_CODES -/

/-- R99: without a tree GEN_CODES clears the table. -/
theorem exec_genCodes_of_no_tree {s : State} (herr : s.err = 0) (hvalid : s.treeValid = false) :
    exec .genCodes s = .next { s with code := emptyCodes, codesValid := true } := by
  refine (whenNoError_of_zero herr _).trans ?_
  rw [genCodes, if_neg (by simp [hvalid])]

/-- R26: the entry of a path of at most 256 bits has its length and a value of so many bits. -/
theorem entryOfPath_fields {p : List Bool} (h : p.length ≤ 256) :
    (entryOfPath p).len.toNat = p.length ∧ (entryOfPath p).bits.toNat < 2 ^ p.length := by
  have hlt : natOfBits p < 2 ^ p.length := natOfBits_lt p
  have hlen : p.length < 2 ^ 9 := by omega
  refine ⟨Nat.mod_eq_of_lt hlen, ?_⟩
  exact (Nat.mod_le _ _).trans_lt hlt

/-- R26, R99: what an entry of a tree's code table is. -/
theorem IsTree.codeTableOf_fields {mem : NodeMem} {root : NodeIdx} {count : NodeCount} {T : CodeTree}
    (hT : IsTree mem root count T) (a : Symbol) :
    ((codeTableOf T)[a].valid = true → 1 ≤ (codeTableOf T)[a].len.toNat ∧ (codeTableOf T)[a].len.toNat ≤ 256 ∧
      (codeTableOf T)[a].bits.toNat < 2 ^ (codeTableOf T)[a].len.toNat) ∧
    ((codeTableOf T)[a].valid = false → (codeTableOf T)[a].len = 0 ∧ (codeTableOf T)[a].bits = 0) := by
  rw [codeTableOf_get]
  cases hp : T.path? a with
  | none => exact ⟨nofun, fun _ => ⟨rfl, rfl⟩⟩
  | some p =>
    have hle : p.length ≤ 256 := (CodeTree.path?_length_le hp).trans hT.depth_le
    obtain ⟨hlen, hbits⟩ := entryOfPath_fields hle
    dsimp only
    rw [hlen]
    exact ⟨fun _ => ⟨List.length_pos_iff.2 (CodeTree.path?_ne_nil hT.root_internal hp), hle, hbits⟩, nofun⟩

/-! ## A closed sink (R51, R151) -/

section
variable {s : State} {d : BitSink} (herr : s.err = 0) (hsnk : s.snk = some d) (hclosed : d.closed = true)
include herr hsnk hclosed

theorem exec_writeMagic_of_closed : exec .writeMagic s = .next (errorEntry .sinkClosed (encode .writeMagic) s) :=
  (whenNoError_of_zero herr _).trans (needOpenSink_of_closed _ hsnk hclosed _)

theorem exec_writeTree_of_closed (hvalid : s.treeValid = true) :
    exec .writeTree s = .next (errorEntry .sinkClosed (encode .writeTree) s) := by
  refine (whenNoError_of_zero herr _).trans ?_
  rw [writeTree, if_pos hvalid, needOpenSink_of_closed _ hsnk hclosed]

theorem exec_encodeScan_of_closed (hcodes : s.codesValid = true) :
    exec .encodeScan s = .next (errorEntry .sinkClosed (encode .encodeScan) s) := by
  refine (whenNoError_of_zero herr _).trans ?_
  rw [encodeScan, if_pos hcodes, needOpenSink_of_closed _ hsnk hclosed]

theorem exec_decodeBit_of_closed (hvalid : s.treeValid = true) (hs : s.decState ≠ .done) :
    exec .decodeBit s = .next (errorEntry .sinkClosed (encode .decodeBit) s) :=
  (exec_decodeBit_of_err_zero herr).trans (decoding_of_closed _ _ hvalid hs hsnk hclosed)

theorem exec_decodeRun_of_closed (hvalid : s.treeValid = true) (hs : s.decState ≠ .done) :
    exec .decodeRun s = .next (errorEntry .sinkClosed (encode .decodeRun) s) :=
  (exec_decodeRun_of_err_zero herr).trans (decoding_of_closed _ _ hvalid hs hsnk hclosed)

end

/-! ## ENCODE_SYM -/

theorem argSymbol?_eq_some {arg : BitVec 9} {a : Symbol} : argSymbol? arg = some a ↔ arg.toNat = a.val :=
  symbolOf?_eq_some

/-- An operand of at most 256 is a symbol. -/
theorem exists_argSymbol {arg : BitVec 9} (h : arg.toNat ≤ 256) : ∃ a : Symbol, arg.toNat = a.val :=
  ⟨⟨arg.toNat, by omega⟩, rfl⟩

section
variable {s : State} {arg : BitVec 9} (herr : s.err = 0)
include herr

/-- R69, R111: the operand's symbol is encoded. -/
theorem exec_encodeSym_of_symbol {a : Symbol} (ha : arg.toNat = a.val) :
    exec (.encodeSym arg) s = encodeSym (encode (.encodeSym arg)) a s := by
  change execEncodeSym arg s = _
  rw [execEncodeSym, argSymbol?_eq_some.2 ha]
  exact whenNoError_of_zero herr _

/-- R73: an operand above 256 makes the word illegal. -/
theorem exec_encodeSym_of_illegal (harg : 256 < arg.toNat) :
    exec (.encodeSym arg) s = .next (errorEntry .illegalCommand (encode (.encodeSym arg)) s) := by
  change execEncodeSym arg s = _
  rw [execEncodeSym, argSymbol?, symbolOf?_eq_none.2 harg]
  exact illegalWord_of_err_zero herr _

variable {a : Symbol} (ha : arg.toNat = a.val)
include ha

theorem exec_encodeSym_of_no_codes (hcodes : s.codesValid = false) :
    exec (.encodeSym arg) s = .next (errorEntry .noCodes (encode (.encodeSym arg)) s) := by
  rw [exec_encodeSym_of_symbol herr ha, encodeSym, if_neg (by simp [hcodes]), raise_eq]

variable {d : BitSink} (hcodes : s.codesValid = true) (hsnk : s.snk = some d)
include hcodes hsnk

theorem exec_encodeSym_of_closed (hclosed : d.closed = true) :
    exec (.encodeSym arg) s = .next (errorEntry .sinkClosed (encode (.encodeSym arg)) s) := by
  rw [exec_encodeSym_of_symbol herr ha, encodeSym, if_pos hcodes, needOpenSink_of_closed _ hsnk hclosed]

variable (hopen : d.closed = false)
include hopen

/-- R110, R111: a symbol with a code is written and counted. -/
theorem exec_encodeSym_of_valid (hv : s.code[a].valid = true) :
    exec (.encodeSym arg) s = .next { s with
      snk := some { d with bits := d.bits ++ codeBits s.code[a] }
      encBits := bump s.encBits (codeBits s.code[a]).length } := by
  rw [exec_encodeSym_of_symbol herr ha, encodeSym, if_pos hcodes, needOpenSink_of_open _ hsnk hopen, emit_of_valid hv]

/-- R110, R111: a symbol without a code is NO_CODE. -/
theorem exec_encodeSym_of_invalid (hv : s.code[a].valid = false) :
    exec (.encodeSym arg) s = .next (errorEntry .noCode (encode (.encodeSym arg)) s) := by
  rw [exec_encodeSym_of_symbol herr ha, encodeSym, if_pos hcodes, needOpenSink_of_open _ hsnk hopen, emit_of_invalid hv,
    raise_eq]

end

/-! ## ENCODE_SCAN -/

theorem Encoding.wholeBytes_coded {codes : CodeTable} {pre post : List Nat} {e : Encoding} (hpos : e.src.pos = 0)
    (h : wholeBytes e.src.bits = pre ++ post) :
    wholeBytes ((e.coded codes pre).src.bits.drop (e.coded codes pre).src.pos) = post := by
  simp only [Encoding.coded, hpos, Nat.zero_add]
  exact wholeBytes_drop_of_append h

/-- R112: from the start of the source the leading bytes that have codes are encoded; the passes left are enough for the bytes
behind them. -/
theorem encodeBytes_of_valid {codes : CodeTable} {pre post : List Nat} {e : Encoding} (hpos : e.src.pos = 0)
    (h : wholeBytes e.src.bits = pre ++ post) (hvalid : ∀ b ∈ pre, codes[byteSymbol b].valid = true) :
    ∃ fuel, post.length ≤ fuel ∧ encodeBytes codes e.src.remaining e = encodeBytes codes fuel (e.coded codes pre) := by
  have hlen : pre.length + post.length = e.src.bits.length / 8 := by
    rw [← List.length_append, ← h, wholeBytes_length]
  obtain ⟨fuel, hfuel⟩ : ∃ fuel, e.src.remaining = pre.length + fuel :=
    Nat.exists_eq_add_of_le (by rw [BitSource.remaining]; omega)
  refine ⟨fuel, by rw [BitSource.remaining] at hfuel; omega, ?_⟩
  rw [hfuel, encodeBytes_append pre post fuel e (by rwa [hpos]) hvalid]

/-- R112: the first byte without a code is read and raises NO_CODE. -/
theorem encodeBody_noCode {codes : CodeTable} {before after : List Nat} {b : Nat} {e : Encoding} (hpos : e.src.pos = 0)
    (h : wholeBytes e.src.bits = before ++ b :: after) (hvalid : ∀ c ∈ before, codes[byteSymbol c].valid = true)
    (hb : codes[byteSymbol b].valid = false) :
    encodeBody codes e = .raised .noCode
      { e.coded codes before with src := { e.src with pos := 8 * (before.length + 1) } } := by
  obtain ⟨fuel, hfuel, hloop⟩ := encodeBytes_of_valid hpos h hvalid
  obtain ⟨fuel, rfl⟩ := Nat.exists_eq_add_one.2 (Nat.lt_of_lt_of_le (Nat.succ_pos after.length) hfuel)
  rw [encodeBody, hloop, encodeBytes_noCode fuel _ (Encoding.wholeBytes_coded hpos h) hb]
  simp only [Encoding.coded, hpos, Nat.zero_add, Nat.mul_succ]

/-- R112: with codes for all bytes and none for the sentinel NO_CODE is raised behind the last byte. -/
theorem encodeBody_noSentinel {codes : CodeTable} {e : Encoding} (hpos : e.src.pos = 0)
    (hvalid : ∀ c ∈ wholeBytes e.src.bits, codes[byteSymbol c].valid = true) (hs : codes[sentinel].valid = false) :
    encodeBody codes e = .raised .noCode (e.coded codes (wholeBytes e.src.bits)) := by
  have h : wholeBytes e.src.bits = wholeBytes e.src.bits ++ [] := (List.append_nil _).symm
  obtain ⟨fuel, -, hloop⟩ := encodeBytes_of_valid hpos h hvalid
  rw [encodeBody, hloop, encodeBytes_nil fuel _ (Encoding.wholeBytes_coded hpos h)]
  exact Encoding.emit_of_invalid hs _

theorem exec_encodeScan_of_no_codes {s : State} (herr : s.err = 0) (hcodes : s.codesValid = false) :
    exec .encodeScan s = .next (errorEntry .noCodes (encode .encodeScan) s) := by
  refine (whenNoError_of_zero herr _).trans ?_
  rw [encodeScan, if_neg (by simp [hcodes]), raise_eq]

/-- What ENCODE_SCAN starts its loop from (R112). -/
def Encoding.start (r : BitSource) (d : BitSink) : Encoding := { src := r.resetToStart, snk := d, encBits := 0 }

/-- R112, R126: an ENCODE_SCAN that raises keeps what it has read and written. -/
theorem exec_encodeScan_of_raised {s : State} {r : BitSource} {d : BitSink} {er : Err} {e : Encoding} (herr : s.err = 0)
    (hcodes : s.codesValid = true) (hsrc : s.src = some r) (hsnk : s.snk = some d) (hopen : d.closed = false)
    (h : encodeBody s.code (.start r d) = .raised er e) :
    exec .encodeScan s = .next (errorEntry er (encode .encodeScan) (e.store s)) := by
  rw [Encoding.start] at h
  refine (whenNoError_of_zero herr _).trans ?_
  rw [encodeScan, if_pos hcodes, needOpenSink_of_open _ hsnk hopen, needSource_of_some hsrc, h]
  exact raise_eq _ _ _

/-! ## READ_MAGIC and WRITE_TREE -/

section
variable {s : State} {r : BitSource} (herr : s.err = 0) (hsrc : s.src = some r)
include herr hsrc

/-- R104: other bits than `MAGIC`'s are moved past, and raise BAD_MAGIC. -/
theorem exec_readMagic_of_other (hlen : r.pos + 32 ≤ r.bits.length)
    (hne : (r.bits.drop r.pos).take 32 ≠ bitsOf 32 s.params.magic.toNat) :
    exec .readMagic s =
      .next (errorEntry .badMagic (encode .readMagic) { s with src := some { r with pos := r.pos + 32 } }) := by
  have hread : r.readBits 32 = some (natOfBits ((r.bits.drop r.pos).take 32), { r with pos := r.pos + 32 }) :=
    BitSource.readBits_eq_some.2 ⟨hlen, rfl, rfl⟩
  have hvalue : natOfBits ((r.bits.drop r.pos).take 32) ≠ s.params.magic.toNat := by
    intro hvalue
    have htake : ((r.bits.drop r.pos).take 32).length = 32 := by
      rw [List.length_take, List.length_drop]
      omega
    have hbits := bitsOf_natOfBits ((r.bits.drop r.pos).take 32)
    rw [htake, hvalue] at hbits
    exact hne hbits.symm
  refine (whenNoError_of_zero herr _).trans ?_
  rw [readMagic, needSource_of_some hsrc, hread]
  exact (if_neg hvalue).trans (raise_eq _ _ _)

/-- R104: fewer than 32 bits raise BAD_MAGIC and move nothing. -/
theorem exec_readMagic_of_short (hlen : r.bits.length < r.pos + 32) :
    exec .readMagic s = .next (errorEntry .badMagic (encode .readMagic) s) := by
  refine (whenNoError_of_zero herr _).trans ?_
  rw [readMagic, needSource_of_some hsrc, BitSource.readBits_eq_none.2 hlen]
  exact raise_eq _ _ _

end

theorem exec_writeTree_of_no_tree {s : State} (herr : s.err = 0) (hvalid : s.treeValid = false) :
    exec .writeTree s = .next (errorEntry .noTree (encode .writeTree) s) := by
  refine (whenNoError_of_zero herr _).trans ?_
  rw [writeTree, if_neg (by simp [hvalid]), raise_eq]

end Sys2Proof.Machine

namespace Sys2Proof.Proofs

open Sys2Proof Sys2Proof.Machine

/-- Settles O24: the walk over a valid tree, and the cleared table without one. -/
theorem genCodesAssignsEveryPath : Obligations.GenCodesAssignsEveryPath := by
  unfold Obligations.GenCodesAssignsEveryPath
  intro s herr
  exact ⟨fun T hvalid hT => exec_genCodes_of_isTree herr hvalid hT, exec_genCodes_of_no_tree herr⟩

/-- Settles O26: the entries of the tree's code table (`IsTree.codeTableOf_fields`). -/
theorem generatedCodesFitTheirFields : Obligations.GeneratedCodesFitTheirFields := by
  unfold Obligations.GeneratedCodesFitTheirFields
  intro s T herr hvalid hT
  exact ⟨_, exec_genCodes_of_isTree herr hvalid hT, hT.codeTableOf_fields⟩

/-- Settles O27: `writeBits` of the 32 bits, or the closed sink's error. -/
theorem writeMagicAppendsTheMagicNumber : Obligations.WriteMagicAppendsTheMagicNumber := by
  unfold Obligations.WriteMagicAppendsTheMagicNumber
  intro s d herr hsnk
  refine ⟨fun hopen => ?_, fun hclosed => exec_writeMagic_of_closed herr hsnk hclosed⟩
  rw [exec_writeMagic_of_open herr hsnk hopen, bitsOf_magic, hopen]

/-- Settles O28: `ser` writes the tree's header, whose length is `header_length`'s. -/
theorem writeTreeAppendsTheHeader : Obligations.WriteTreeAppendsTheHeader := by
  unfold Obligations.WriteTreeAppendsTheHeader
  intro s herr
  refine ⟨fun d T hvalid hT hsnk hopen => ?_, exec_writeTree_of_no_tree herr,
    fun d hvalid hsnk hclosed => exec_writeTree_of_closed herr hsnk hclosed hvalid⟩
  have hlen : T.header.length = 11 * T.leaves.length - 1 := Nat.eq_sub_of_add_eq T.header_length
  refine ⟨hlen, ?_⟩
  rw [exec_writeTree_of_isTree herr hsnk hopen hvalid hT, hlen, hopen]

/-- Settles O29: 32 bits are equal to `MAGIC`'s exactly if their values are. -/
theorem readMagicChecksTheMagicNumber : Obligations.ReadMagicChecksTheMagicNumber := by
  unfold Obligations.ReadMagicChecksTheMagicNumber
  intro s r herr hsrc
  rw [← bitsOf_magic]
  refine ⟨fun hlen => ⟨fun heq => ?_, exec_readMagic_of_other herr hsrc hlen⟩, exec_readMagic_of_short herr hsrc⟩
  exact exec_readMagic_of_magic herr hsrc (rest := (r.bits.drop r.pos).drop 32) (by rw [← heq, List.take_append_drop])

/-- Settles O34: the checks of ENCODE_SYM in their order, then `emit`. -/
theorem encodeSymAppendsTheCode : Obligations.EncodeSymAppendsTheCode := by
  unfold Obligations.EncodeSymAppendsTheCode
  intro s arg herr
  rw [← encode_encodeSym_eq]
  refine ⟨fun a d ha hcodes hsnk hopen => ⟨fun hv => ?_, exec_encodeSym_of_invalid herr ha hcodes hsnk hopen⟩,
    fun harg hcodes => ?_, fun d harg hcodes hsnk hclosed => ?_, exec_encodeSym_of_illegal herr⟩
  · rw [exec_encodeSym_of_valid herr ha hcodes hsnk hopen hv, bump_eq, codeBits, bitsOf_length, hopen]
  · obtain ⟨a, ha⟩ := exists_argSymbol harg
    exact exec_encodeSym_of_no_codes herr ha hcodes
  · obtain ⟨a, ha⟩ := exists_argSymbol harg
    exact exec_encodeSym_of_closed herr ha hcodes hsnk hclosed

/-- Settles O35: `exec_encodeScan_of_valid`. -/
theorem encodeScanAppendsTheBody : Obligations.EncodeScanAppendsTheBody := by
  unfold Obligations.EncodeScanAppendsTheBody
  intro s r d herr hcodes hsrc hsnk hopen hbytes hs
  rw [exec_encodeScan_of_valid herr hsnk hopen hcodes hsrc hbytes hs, hopen]

/-- Settles O36: the two checks, then the first symbol without a code, a byte or the sentinel. -/
theorem encodeScanErrors : Obligations.EncodeScanErrors := by
  unfold Obligations.EncodeScanErrors
  intro s herr
  refine ⟨exec_encodeScan_of_no_codes herr, fun d hcodes hsnk hclosed => exec_encodeScan_of_closed herr hsnk hclosed hcodes,
    fun r d hcodes hsrc hsnk hopen => ⟨fun before b after hbytes hvalid hb => ?_, fun hvalid hs => ?_⟩⟩
  · have hbody := encodeBody_noCode (e := .start r d) rfl hbytes hvalid hb
    rw [exec_encodeScan_of_raised herr hcodes hsrc hsnk hopen hbody, ← bump_zero]
    exact ⟨_, rfl⟩
  · obtain ⟨e, hbody, hsrc', hbits⟩ : ∃ e, encodeBody s.code (.start r d) = .raised .noCode e ∧
        e.src = { bits := r.bits, pos := 8 * (r.bits.length / 8) } ∧
        e.encBits = BitVec.ofNat 32 (codesOfBytes s.code (wholeBytes r.bits)).length := by
      refine ⟨_, encodeBody_noSentinel (e := .start r d) rfl hvalid hs, ?_, bump_zero _⟩
      simp only [Encoding.coded, Encoding.start, BitSource.resetToStart, Nat.zero_add, wholeBytes_length]
    rw [exec_encodeScan_of_raised herr hcodes hsrc hsnk hopen hbody, ← hsrc', ← hbits]
    exact ⟨e.snk, rfl⟩

/-- Settles O38: each writing command's check of the sink, behind its earlier checks. -/
theorem closedSinkStopsEveryWrite : Obligations.ClosedSinkStopsEveryWrite := by
  unfold Obligations.ClosedSinkStopsEveryWrite
  intro s d herr hsnk hclosed
  refine ⟨exec_writeMagic_of_closed herr hsnk hclosed, exec_writeTree_of_closed herr hsnk hclosed,
    fun arg harg hcodes => ?_, exec_encodeScan_of_closed herr hsnk hclosed, exec_closeOut_of_closed herr hsnk hclosed,
    fun hvalid hs => ⟨exec_decodeBit_of_closed herr hsnk hclosed hvalid hs,
      exec_decodeRun_of_closed herr hsnk hclosed hvalid hs⟩⟩
  obtain ⟨a, ha⟩ := exists_argSymbol harg
  rw [← encode_encodeSym_eq]
  exact exec_encodeSym_of_closed herr ha hcodes hsnk hclosed

end Sys2Proof.Proofs
end

section
/-! PROOFS. The host's side: its operations as steps (R85, R138, R143), the two control commands (R83, R84) and the read port
(R26, R28, R29, R60). -/

namespace Sys2Proof.Machine

/-! ## Steps -/

theorem step_of_idle {s : State} (h : s.pending = []) : step s = .next s := by
  rw [step, hostTurn, h]

/-- R143: a step is the next queued operation, on the state without it. -/
theorem step_of_queued {s : State} {op : HostOp} {rest : List HostOp} (h : s.pending = op :: rest) :
    step s = hostStep op { s with pending := rest } := by
  rw [step, hostTurn, h]

/-- R143: TakeSink with a sink bound replies its bits. -/
theorem takeSink_of_bound {s : State} {d : BitSink} (h : s.snk = some d) :
    takeSink s = .next { s with reply := some (.sinkBits d.bits) } := by
  rw [takeSink, h]

/-! ## NOP and CLEAR -/

/-- R83, R85: NOP does nothing, whether an error is recorded or not. -/
theorem exec_nop (s : State) : exec .nop s = .next s := by
  by_cases h : s.err = 0
  · exact whenNoError_of_zero h _
  · exact whenNoError_of_ne h _

/-- R43: what CLEAR leaves is the reset state, but for the parameters, the streams and the host's fields. -/
theorem clearCore_eq (s : State) : clearCore s = { State.reset with
    params := s.params, src := s.src, snk := s.snk, pending := s.pending, reply := s.reply } := rfl

/-! ## The registers -/

theorem readRegister_of_gt (s : State) {n : Nat} (h : 0x09 < n) : readRegister s n = 0 := by
  obtain ⟨k, rfl⟩ := Nat.exists_eq_add_of_le' h
  rfl

theorem hostRead_freq (s : State) (a : Symbol) : hostRead s 1 a.val = s.freq[a] := dif_pos a.isLt

theorem hostRead_code (s : State) (a : Symbol) : hostRead s 3 a.val = packCode s.code[a] := dif_pos a.isLt

theorem hostRead_of_space_gt (s : State) {space : Nat} (h : 3 < space) (n : Nat) : hostRead s space n = 0 := by
  obtain ⟨k, rfl⟩ := Nat.exists_eq_add_of_le' h
  rfl

/-- R29: fields that fit their widths are read back from their bits of `STATUS`. -/
theorem statusFields {tree codes dec closed err w : Nat} (htree : tree < 2) (hcodes : codes < 2) (hdec : dec < 4)
    (hclosed : closed < 2) (herr : err < 256) (hw : w = tree + 2 * codes + 4 * dec + 16 * closed + 256 * err) :
    w < 2 ^ 16 ∧ w % 2 = tree ∧ w / 2 % 2 = codes ∧ w / 4 % 4 = dec ∧ w / 16 % 2 = closed ∧ w / 32 % 8 = 0 ∧
      w / 256 = err := by
  omega

theorem decStateCode_lt (d : DecState) : d.code < 4 := by cases d <;> decide

/-- R29: the fields of `STATUS`. -/
theorem statusWord_fields (s : State) :
    statusWord s < 2 ^ 16 ∧ statusWord s % 2 = s.treeValid.toNat ∧ statusWord s / 2 % 2 = s.codesValid.toNat ∧
      statusWord s / 4 % 4 = s.decState.code ∧ statusWord s / 16 % 2 = (sinkClosedBit s).toNat ∧
      statusWord s / 32 % 8 = 0 ∧ statusWord s / 256 = s.err.toNat :=
  statusFields (Bool.toNat_lt _) (Bool.toNat_lt _) (decStateCode_lt _) (Bool.toNat_lt _) s.err.isLt rfl

end Sys2Proof.Machine

namespace Sys2Proof.Proofs

open Sys2Proof Sys2Proof.Machine

/-- Settles O6: the queued operation is the issue of the word, which executes its command. -/
theorem stepExecutesTheDecodedCommand : Obligations.StepExecutesTheDecodedCommand := by
  unfold Obligations.StepExecutesTheDecodedCommand
  intro s w i rest hpending hw
  rw [step_of_queued hpending, hostStep_issue hw]

/-- Settles O9: `step_of_idle`. -/
theorem idleCoreKeepsItsState : Obligations.IdleCoreKeepsItsState := fun _ => step_of_idle

/-- Settles O10: each operation on the state without it (`step_of_queued`). -/
theorem hostOperationsHaveTheirEffects : Obligations.HostOperationsHaveTheirEffects := by
  unfold Obligations.HostOperationsHaveTheirEffects
  intro s rest
  refine ⟨fun w h => step_of_queued h, fun bits h => step_of_queued h, fun h => step_of_queued h,
    fun space index h => step_of_queued h, fun d h hsnk => ?_⟩
  rw [step_of_queued h]
  exact takeSink_of_bound hsnk

/-- Settles O14: CLEAR is `clearCore`. -/
theorem clearReturnsTheCoreToReset : Obligations.ClearReturnsTheCoreToReset := by
  unfold Obligations.ClearReturnsTheCoreToReset
  intro s
  rw [exec_clear_next, clearCore_eq]

/-- Settles O16: `exec_nop`. -/
theorem nopChangesNothing : Obligations.NopChangesNothing := exec_nop

/-- Settles O13: the fields of the reset state are fixed but for `MAGIC`. -/
theorem registersReadTheirResetValues : Obligations.RegistersReadTheirResetValues := by
  unfold Obligations.RegistersReadTheirResetValues
  exact ⟨by decide, rfl, rfl, fun n => readRegister_of_gt State.reset⟩

/-- Settles O48: the fields of `STATUS` (`statusWord_fields`); `COUNT_W` below 256 is read whole. -/
theorem registerMapReadsTheRegisters : Obligations.RegisterMapReadsTheRegisters := by
  unfold Obligations.RegisterMapReadsTheRegisters
  intro s hwf
  obtain ⟨-, hcountW⟩ : 1 ≤ s.params.countW ∧ s.params.countW ≤ 255 := of_decide_eq_true hwf
  obtain ⟨hlt, htree, hcodes, hdec, hclosed, hzero, herr⟩ := statusWord_fields s
  refine ⟨⟨statusWord s, rfl, hlt, htree, hcodes, hdec.trans ?_, hclosed.trans ?_, hzero, herr⟩,
    rfl, rfl, rfl, rfl, rfl, rfl, rfl, rfl, Nat.mod_eq_of_lt (Nat.lt_succ_of_le hcountW)⟩
  · cases s.decState <;> rfl
  · rw [sinkClosedBit]
    cases s.snk <;> rfl

/-- Settles O49: the ranges of the read port, space by space. -/
theorem readPortRanges : Obligations.ReadPortRanges := by
  unfold Obligations.ReadPortRanges
  intro s
  exact ⟨hostRead_freq s, fun n => readRegister_of_gt s, fun n h => dif_neg (Nat.not_lt_of_le h),
    fun n h => dif_neg (Nat.not_lt_of_le h), fun n h => dif_neg (Nat.not_lt_of_le h),
    fun space n h => hostRead_of_space_gt s h n⟩

/-- Settles O51: VALID is below 2 and LEN below 2^9. -/
theorem packedCodeWordHoldsEveryField : Obligations.PackedCodeWordHoldsEveryField := by
  unfold Obligations.PackedCodeWordHoldsEveryField
  intro s a w hw
  rw [hostRead_code, packCode] at hw
  have hvalid := Bool.toNat_lt s.code[a].valid
  have hlen := s.code[a].len.isLt
  omega

end Sys2Proof.Proofs
end

section
/-! PROOFS. What a command can answer, said once (R85, R124 to R127, R143). While no error is recorded a command other than CLEAR
leaves one of the states of `Worked`, with an error entered or not; or it is refused for an unbound stream; or it faults on a
memory that holds no tree. The statements about every command are read off these cases. -/

namespace Sys2Proof.Machine

/-- What a command other than CLEAR has done to a state without an error when it ends or raises an error: a case for each way,
with what it found. -/
inductive Worked : Instr → State → State → Prop
  | nothing (i : Instr) (s : State) : Worked i s s
  | counted {s : State} {r : BitSource} (hsrc : s.src = some r) :
      Worked .freqScan s ((scanSource s.params.countW r).state.store s)
  | dropped {s : State} (hzero : ∀ a : Symbol, s.freq[a] = 0) : Worked .buildTree s (dropTree s)
  | built (s : State) : Worked .buildTree s (installTree (lastNode (builtTree s.freq).count)
      { dropTree s with node := (builtTree s.freq).node, nodeCount := (builtTree s.freq).count })
  | cleared {s : State} (hvalid : s.treeValid = false) :
      Worked .genCodes s { s with code := emptyCodes, codesValid := true }
  | coded {s : State} {codes : CodeTable} (hvalid : s.treeValid = true)
      (hwalk : walk s.node (maxDepth + 1) s.root 0 0 emptyCodes = some codes) :
      Worked .genCodes s { s with code := codes, codesValid := true }
  | magicWritten {s : State} {d : BitSink} (hsnk : s.snk = some d) (hopen : d.closed = false) :
      Worked .writeMagic s { s with snk := some (d.writeBits 32 s.params.magic.toNat) }
  | treeWritten {s : State} {d : BitSink} {h : HeaderWriter} (hsnk : s.snk = some d) (hopen : d.closed = false)
      (hser : ser s.node (maxDepth + 1) s.root { snk := d, hdrBits := 0 } = some h) :
      Worked .writeTree s { s with snk := some h.snk, hdrBits := h.hdrBits }
  | symbolWritten {s : State} {d d' : BitSink} {arg : BitVec 9} {a : Symbol} {n : BitVec 32} (hsnk : s.snk = some d)
      (hopen : d.closed = false) (hemit : emit s.code a d s.encBits = some (d', n)) :
      Worked (.encodeSym arg) s { s with snk := some d', encBits := n }
  | sourceWritten {s : State} {r : BitSource} {d : BitSink} (hsrc : s.src = some r) (hsnk : s.snk = some d)
      (hopen : d.closed = false) : Worked .encodeScan s ((encodeBody s.code (.start r d)).state.store s)
  | sinkClosed {s : State} {d : BitSink} (hsnk : s.snk = some d) (hopen : d.closed = false) :
      Worked .closeOut s { s with snk := some d.close }
  | magicRead {s : State} {r r' : BitSource} {v : Nat} (hsrc : s.src = some r) (hread : r.readBits 32 = some (v, r')) :
      Worked .readMagic s { s with src := some r' }
  | treeRead {s : State} {r : BitSource} {h : HeaderReader} {T : CodeTree} (hsrc : s.src = some r)
      (hkeeps : ReaderKeeps (.start r) h) (hT : IsTree h.node 0 h.count T) :
      Worked .readTree s (installTree 0 (h.store (dropTree s)))
  | noTreeRead {s : State} {r : BitSource} {h : HeaderReader} (hsrc : s.src = some r)
      (hkeeps : ReaderKeeps (.start r) h) (hno : NoTree h.node 0 h.count) : Worked .readTree s (h.store (dropTree s))
  | bitDecoded {s : State} {r : BitSource} {d : BitSink} (hvalid : s.treeValid = true) (hs : s.decState ≠ .done)
      (hsrc : s.src = some r) (hsnk : s.snk = some d) (hopen : d.closed = false) :
      Worked .decodeBit s ((transition s.node s.root (decodingOf s r d)).state.store s)
  | runDecoded {s : State} {r : BitSource} {d : BitSink} (hvalid : s.treeValid = true) (hs : s.decState ≠ .done)
      (hsrc : s.src = some r) (hsnk : s.snk = some d) (hopen : d.closed = false) :
      Worked .decodeRun s ((transitions s.node s.root r.remaining (decodingOf s r d)).state.store s)

/-- What a command other than CLEAR can answer on a state without an error. -/
inductive Answers (i : Instr) (s : State) : Result → Prop
  | next {u : State} (h : Worked i s u) : Answers i s (.next u)
  | error {u : State} (e : Err) (h : Worked i s u) : Answers i s (.next (errorEntry e (encode i) u))
  | noSource (hneeds : needsSource i = true) (hsrc : s.src = none) : Answers i s (.refused .sourceUnbound)
  | noSink (hneeds : needsSink i = true) (hsnk : s.snk = none) : Answers i s (.refused .sinkUnbound)
  | fault (hi : i = .genCodes ∨ i = .writeTree) (hvalid : s.treeValid = true) (hno : ¬ TreeOk s) (f : Fault) :
      Answers i s (.fault f)

/-! ## The checks a command makes -/

section
variable {i : Instr} {s : State}

theorem answers_needSource {k : BitSource → Result} (hneeds : needsSource i = true)
    (h : ∀ r, s.src = some r → Answers i s (k r)) : Answers i s (needSource s k) := by
  cases hsrc : s.src with
  | none => exact needSource_of_none hsrc k ▸ .noSource hneeds hsrc
  | some r => exact needSource_of_some hsrc k ▸ h r hsrc

theorem answers_needOpenSink {k : BitSink → Result} (hneeds : needsSink i = true)
    (h : ∀ d, s.snk = some d → d.closed = false → Answers i s (k d)) : Answers i s (needOpenSink (encode i) s k) := by
  cases hsnk : s.snk with
  | none => exact needOpenSink_of_none _ hsnk k ▸ .noSink hneeds hsnk
  | some d =>
    cases hclosed : d.closed with
    | true => exact needOpenSink_of_closed _ hsnk hclosed k ▸ .error _ (.nothing i s)
    | false => exact needOpenSink_of_open _ hsnk hclosed k ▸ h d hsnk hclosed

theorem answers_whenNoError {body : Result} (herr : s.err = 0) (h : Answers i s body) :
    Answers i s (whenNoError s body) := by
  rwa [whenNoError_of_zero herr]

end

/-! ## The commands -/

theorem answers_freqScan (s : State) : Answers .freqScan s (freqScan s) := by
  refine answers_needSource rfl fun r hsrc => ?_
  have hw : Worked .freqScan s ((countBytes s.params.countW r.resetToStart.remaining
    { src := r.resetToStart, freq := emptyFreq }).state.store s) := .counted hsrc
  generalize countBytes _ _ _ = ran at hw ⊢
  cases ran with
  | done _ _ => exact .next hw
  | raised e _ => exact .error e hw

theorem answers_buildTree (s : State) : Answers .buildTree s (buildTree s) := by
  rw [buildTree]
  split
  · next hall => exact .error _ (.dropped fun a => of_decide_eq_true (List.all_eq_true.1 hall a (List.mem_finRange a)))
  · exact .next (.built s)

theorem answers_genCodes (s : State) : Answers .genCodes s (genCodes s) := by
  rw [genCodes]
  split
  · next hvalid =>
    split
    · next hwalk =>
      exact .fault (.inl rfl) hvalid (fun ⟨T, hT⟩ => nomatch hwalk.symm.trans (walk_root hT)) _
    · next codes hwalk => exact .next (.coded hvalid hwalk)
  · next hvalid => exact .next (.cleared (by simpa using hvalid))

theorem answers_writeMagic (s : State) : Answers .writeMagic s (writeMagic s) :=
  answers_needOpenSink rfl fun _ hsnk hopen => .next (.magicWritten hsnk hopen)

theorem answers_writeTree (s : State) : Answers .writeTree s (writeTree s) := by
  rw [writeTree]
  split
  · next hvalid =>
    refine answers_needOpenSink rfl fun d hsnk hopen => ?_
    split
    · next hser =>
      refine .fault (.inr rfl) hvalid (fun ⟨T, hT⟩ => ?_) _
      rw [← hT.root_eq] at hser
      exact nomatch hser.symm.trans (ser_eq _ _ hT.held (Nat.lt_succ_of_le hT.depth_le))
    · next h hser => exact .next (.treeWritten hsnk hopen hser)
  · exact .error _ (.nothing _ s)

theorem answers_encodeSym (arg : BitVec 9) (a : Symbol) (s : State) :
    Answers (.encodeSym arg) s (encodeSym (encode (.encodeSym arg)) a s) := by
  rw [encodeSym]
  split
  · refine answers_needOpenSink rfl fun d hsnk hopen => ?_
    split
    · exact .error _ (.nothing _ s)
    · next d' n hemit => exact .next (.symbolWritten hsnk hopen hemit)
  · exact .error _ (.nothing _ s)

theorem answers_encodeScan (s : State) : Answers .encodeScan s (encodeScan s) := by
  rw [encodeScan]
  split
  · refine answers_needOpenSink rfl fun d hsnk hopen => answers_needSource rfl fun r hsrc => ?_
    have hw : Worked .encodeScan s
      ((encodeBody s.code { src := r.resetToStart, snk := d, encBits := 0 }).state.store s) :=
      .sourceWritten hsrc hsnk hopen
    generalize encodeBody _ _ = ran at hw ⊢
    cases ran with
    | done _ _ => exact .next hw
    | raised e _ => exact .error e hw
  · exact .error _ (.nothing _ s)

theorem answers_closeOut (s : State) : Answers .closeOut s (closeOut s) :=
  answers_needOpenSink rfl fun _ hsnk hopen => .next (.sinkClosed hsnk hopen)

theorem answers_readMagic (s : State) : Answers .readMagic s (readMagic s) := by
  refine answers_needSource rfl fun r hsrc => ?_
  split
  · exact .error _ (.nothing _ s)
  · next v r' hread =>
    split
    · exact .next (.magicRead hsrc hread)
    · exact .error _ (.magicRead hsrc hread)

theorem answers_readTree {s : State} (herr : s.err = 0) : Answers .readTree s (exec .readTree s) := by
  cases hsrc : s.src with
  | none =>
    rw [show exec .readTree s = readTree s from whenNoError_of_zero herr _, readTree, needSource_of_none hsrc]
    exact .noSource rfl hsrc
  | some r =>
    obtain ⟨h, hkeeps, ⟨T, -, hT, hend⟩ | ⟨e, -, hno, hend⟩⟩ := exec_readTree_cases herr hsrc
    · exact hend ▸ .next (.treeRead hsrc hkeeps hT)
    · exact hend ▸ .error e (.noTreeRead hsrc hkeeps hno)

theorem answers_decoding {i : Instr} {s : State} {run : Decoding → Ran Decoding Unit} (hsource : needsSource i = true)
    (hsink : needsSink i = true)
    (h : ∀ r d, s.treeValid = true → s.decState ≠ .done → s.src = some r → s.snk = some d → d.closed = false →
      Worked i s ((run (decodingOf s r d)).state.store s)) : Answers i s (decoding (encode i) s run) := by
  rw [decoding]
  split
  · next hvalid =>
    split
    · exact .next (.nothing i s)
    · next hs =>
      refine answers_needOpenSink hsink fun d hsnk hopen => answers_needSource hsource fun r hsrc => ?_
      have hw : Worked i s ((run (decodingOf s r d)).state.store s) := h r d hvalid hs hsrc hsnk hopen
      rw [decodingOf] at hw
      generalize run _ = ran at hw ⊢
      cases ran with
      | done _ _ => exact .next hw
      | raised e _ => exact .error e hw
  · exact .error _ (.nothing i s)

/-- R85: what a command other than CLEAR can answer while no error is recorded. -/
theorem answers_exec {i : Instr} {s : State} (hi : i ≠ .clear) (herr : s.err = 0) : Answers i s (exec i s) := by
  cases i with
  | clear => exact absurd rfl hi
  | nop => exact answers_whenNoError herr (.next (.nothing _ s))
  | freqScan => exact answers_whenNoError herr (answers_freqScan s)
  | buildTree => exact answers_whenNoError herr (answers_buildTree s)
  | genCodes => exact answers_whenNoError herr (answers_genCodes s)
  | writeMagic => exact answers_whenNoError herr (answers_writeMagic s)
  | writeTree => exact answers_whenNoError herr (answers_writeTree s)
  | encodeSym arg =>
    by_cases harg : arg.toNat ≤ 256
    · obtain ⟨a, ha⟩ := exists_argSymbol harg
      exact exec_encodeSym_of_symbol herr ha ▸ answers_encodeSym arg a s
    · exact exec_encodeSym_of_illegal herr (Nat.lt_of_not_le harg) ▸ .error _ (.nothing _ s)
  | encodeScan => exact answers_whenNoError herr (answers_encodeScan s)
  | closeOut => exact answers_whenNoError herr (answers_closeOut s)
  | readMagic => exact answers_whenNoError herr (answers_readMagic s)
  | readTree => exact answers_readTree herr
  | decodeBit =>
    rw [exec_decodeBit_of_err_zero herr]
    exact answers_decoding rfl rfl fun r d hvalid hs hsrc hsnk hopen => .bitDecoded hvalid hs hsrc hsnk hopen
  | decodeRun =>
    rw [exec_decodeRun_of_err_zero herr]
    exact answers_decoding rfl rfl fun r d hvalid hs hsrc hsnk hopen => .runDecoded hvalid hs hsrc hsnk hopen

/-- R84, R85, R124: everything a command that answers a next state can have done. -/
theorem exec_next_cases {i : Instr} {s t : State} (h : exec i s = .next t) :
    (i = .clear ∧ t = clearCore s) ∨ (i ≠ .clear ∧ s.err ≠ 0 ∧ t = s) ∨
      (i ≠ .clear ∧ s.err = 0 ∧ ∃ u, Worked i s u ∧ (t = u ∨ ∃ e, t = errorEntry e (encode i) u)) := by
  by_cases hi : i = .clear
  · subst hi
    exact .inl ⟨rfl, (Host.Outcome.next.inj h).symm⟩
  by_cases herr : s.err = 0
  · have hanswers := answers_exec hi herr
    rw [h] at hanswers
    cases hanswers with
    | next hw => exact .inr (.inr ⟨hi, herr, t, hw, .inl rfl⟩)
    | error e hw => exact .inr (.inr ⟨hi, herr, _, hw, .inr ⟨e, rfl⟩⟩)
  · rw [exec_of_err_ne hi herr] at h
    exact .inr (.inl ⟨hi, herr, (Host.Outcome.next.inj h).symm⟩)

end Sys2Proof.Machine
end

section
/-! PROOFS. What every command keeps, and where it is refused or faults (R46, R50, R57, R124 to R126, R139, R143): read off
`Worked` and `Answers`. -/

namespace Sys2Proof.Machine

/-- R85, R124: a command answers a next state outright, or makes its checks on a state without an error. -/
theorem exec_answers (i : Instr) (s : State) : (∃ t, exec i s = .next t) ∨ s.err = 0 ∧ Answers i s (exec i s) := by
  by_cases hi : i = .clear
  · exact .inl ⟨clearCore s, hi ▸ rfl⟩
  by_cases herr : s.err = 0
  · exact .inr ⟨herr, answers_exec hi herr⟩
  · exact .inl ⟨s, exec_of_err_ne hi herr⟩

section
variable (w : Word) (run : Decoding → Ran Decoding Unit) {s : State}

theorem decoding_of_no_sink (hvalid : s.treeValid = true) (hs : s.decState ≠ .done) (hsnk : s.snk = none) :
    decoding w s run = .refused .sinkUnbound := by
  rw [decoding, if_pos hvalid, if_neg hs, needOpenSink_of_none w hsnk]

theorem decoding_of_no_source {d : BitSink} (hvalid : s.treeValid = true) (hs : s.decState ≠ .done)
    (hsnk : s.snk = some d) (hopen : d.closed = false) (hsrc : s.src = none) :
    decoding w s run = .refused .sourceUnbound := by
  rw [decoding, if_pos hvalid, if_neg hs, needOpenSink_of_open w hsnk hopen, needSource_of_none hsrc]

end

/-! ## The frame -/

/-- What a command leaves unchanged: all that its rule's "State written" does not list, the error entry included. -/
structure Frame (i : Instr) (s t : State) : Prop where
  params : t.params = s.params
  pending : t.pending = s.pending
  reply : t.reply = s.reply
  err : t.err = s.err
  errCmd : t.errCmd = s.errCmd
  freq : i ≠ .freqScan → t.freq = s.freq
  tree : i ≠ .buildTree → i ≠ .readTree →
    t.node = s.node ∧ t.root = s.root ∧ t.nodeCount = s.nodeCount ∧ t.treeValid = s.treeValid
  codes : i ≠ .buildTree → i ≠ .readTree → i ≠ .genCodes → t.code = s.code ∧ t.codesValid = s.codesValid
  decoder : i ≠ .buildTree → i ≠ .readTree → i ≠ .decodeBit → i ≠ .decodeRun →
    t.decState = s.decState ∧ t.cur = s.cur ∧ t.decSyms = s.decSyms
  hdrBits : i ≠ .writeTree → i ≠ .readTree → t.hdrBits = s.hdrBits
  encBits : (∀ arg, i ≠ .encodeSym arg) → i ≠ .encodeScan → t.encBits = s.encBits
  src : needsSource i = false → t.src = s.src
  snk : needsSink i = false → t.snk = s.snk

/-- Each case of `Worked` writes out the fields it sets; the others are those of the state before. -/
theorem Worked.frame {i : Instr} {s u : State} (h : Worked i s u) : Frame i s u := by
  cases h <;> constructor <;> simp [needsSource, needsSink, Encoding.store, Decoding.store]

/-! ## The streams -/

theorem Ran.eq_done_or_raised {σ : Type} (x : Ran σ Unit) : x = .done () x.state ∨ ∃ e, x = .raised e x.state := by
  cases x with
  | done _ _ => exact .inl rfl
  | raised e _ => exact .inr ⟨e, rfl⟩

/-- R46: FREQ_SCAN's loop keeps the source's bits and a position within them. -/
theorem countBytes_source (countW fuel : Nat) (c : Counting) (hpos : c.src.pos ≤ c.src.bits.length) :
    (countBytes countW fuel c).state.src.bits = c.src.bits ∧
      (countBytes countW fuel c).state.src.pos ≤ (countBytes countW fuel c).state.src.bits.length := by
  induction fuel generalizing c with
  | zero => exact ⟨rfl, hpos⟩
  | succ fuel ih =>
    rw [countBytes]
    split
    · exact ⟨rfl, hpos⟩
    · next b r hread =>
      have hbits := BitSource.readBits_bits hread
      have hle := BitSource.readBits_le hread
      dsimp only
      split
      · exact ⟨hbits, hle⟩
      · obtain ⟨hb, hp⟩ := ih { src := r, freq := _ } hle
        exact ⟨hb.trans hbits, hp⟩

theorem scanSource_source (countW : Nat) (r : BitSource) : (scanSource countW r).state.src.bits = r.bits ∧
    (scanSource countW r).state.src.pos ≤ (scanSource countW r).state.src.bits.length :=
  countBytes_source countW _ { src := r.resetToStart, freq := emptyFreq } (Nat.zero_le _)

/-- A sink has grown: its bits are kept, with others behind them, and its flag. -/
structure SinkGrows (d d' : BitSink) : Prop where
  bits : d.bits <+: d'.bits
  closed : d'.closed = d.closed

theorem SinkGrows.refl (d : BitSink) : SinkGrows d d := ⟨List.prefix_rfl, rfl⟩

theorem SinkGrows.trans {d d' d'' : BitSink} (h : SinkGrows d d') (h' : SinkGrows d' d'') : SinkGrows d d'' :=
  ⟨h.bits.trans h'.bits, h'.closed.trans h.closed⟩

theorem SinkGrows.writeBits (n v : Nat) (d : BitSink) : SinkGrows d (d.writeBits n v) := ⟨List.prefix_append _ _, rfl⟩

theorem sinkGrows_ser {mem : NodeMem} (fuel : Nat) {i : NodeIdx} {h h' : HeaderWriter} (hser : ser mem fuel i h = some h') :
    SinkGrows h.snk h'.snk := by
  induction fuel generalizing i h h' with
  | zero => exact nomatch hser
  | succ fuel ih =>
    rw [ser] at hser
    split at hser
    · split at hser
      · exact nomatch hser
      · next h₁ hl => exact ((SinkGrows.writeBits 1 0 h.snk).trans (ih hl)).trans (ih hser)
    · obtain rfl := Option.some.inj hser
      exact (SinkGrows.writeBits 1 1 h.snk).trans (.writeBits 9 _ _)

theorem sinkGrows_emit {codes : CodeTable} {a : Symbol} {d d' : BitSink} {m n : BitVec 32}
    (h : emit codes a d m = some (d', n)) : SinkGrows d d' := by
  cases hv : codes[a].valid with
  | true =>
    obtain ⟨rfl, -⟩ := Prod.mk.inj (Option.some.inj ((emit_of_valid hv d m).symm.trans h))
    exact ⟨List.prefix_append _ _, rfl⟩
  | false => exact nomatch (emit_of_invalid hv d m).symm.trans h

/-- What a loop over both streams keeps: the source's bits, a position within them, and the sink but for new bits. -/
structure StreamsKept (r r' : BitSource) (d d' : BitSink) : Prop where
  bits : r'.bits = r.bits
  pos_le : r.pos ≤ r.bits.length → r'.pos ≤ r'.bits.length
  snk : SinkGrows d d'

theorem encodeBody_streamsKept (codes : CodeTable) (r : BitSource) (d : BitSink) :
    StreamsKept r (encodeBody codes (.start r d)).state.src d (encodeBody codes (.start r d)).state.snk := by
  obtain ⟨hbits, hpos, hprefix, hclosed⟩ := encodeBody_keeps (codes := codes) (.start r d) (Nat.zero_le _) _
    (Ran.eq_done_or_raised _)
  exact ⟨hbits, fun _ => hpos, hprefix, hclosed⟩

/-- R46: where the position is past the end, DECODE_BIT and DECODE_RUN change nothing. -/
theorem state_of_pos_gt {d : Decoding} (mem : NodeMem) (root : NodeIdx) (h : d.src.bits.length < d.src.pos) :
    (transition mem root d).state = d ∧ (transitions mem root d.src.remaining d).state = d := by
  refine ⟨congrArg Ran.state (transition_exhausted (Nat.le_of_lt h)), ?_⟩
  rw [show d.src.remaining = 0 from Nat.sub_eq_zero_of_le (Nat.le_of_lt h), transitions]
  split <;> rfl

theorem decoding_streamsKept (s : State) (r : BitSource) (d : BitSink) :
    (StreamsKept r (transition s.node s.root (decodingOf s r d)).state.src d
      (transition s.node s.root (decodingOf s r d)).state.snk) ∧
    StreamsKept r (transitions s.node s.root r.remaining (decodingOf s r d)).state.src d
      (transitions s.node s.root r.remaining (decodingOf s r d)).state.snk := by
  by_cases hpos : r.pos ≤ r.bits.length
  · obtain ⟨hb, hp, hprefix, hclosed⟩ := transition_keeps (d := decodingOf s r d) hpos
      (Ran.eq_done_or_raised (transition s.node s.root _))
    obtain ⟨hb', hp', hprefix', hclosed'⟩ := transitions_keeps (mem := s.node) (root := s.root) r.remaining
      (decodingOf s r d) hpos _ (Ran.eq_done_or_raised _)
    exact ⟨⟨hb, fun _ => hp, hprefix, hclosed⟩, ⟨hb', fun _ => hp', hprefix', hclosed'⟩⟩
  · obtain ⟨h₁, h₂⟩ := state_of_pos_gt (d := decodingOf s r d) s.node s.root (Nat.lt_of_not_le hpos)
    rw [h₁, show transitions _ _ r.remaining _ = transitions _ _ (decodingOf s r d).src.remaining _ from rfl, h₂]
    exact ⟨⟨rfl, id, .refl _⟩, ⟨rfl, id, .refl _⟩⟩

/-- The source after a command is the one before or has the same bits; its position is within them if it was before. -/
def SourceKept (s t : State) : Prop :=
  t.src = s.src ∨ ∃ r r', s.src = some r ∧ t.src = some r' ∧ r'.bits = r.bits ∧
    (r.pos ≤ r.bits.length → r'.pos ≤ r'.bits.length)

/-- The sink after a command is the one before; or it was open, and has new bits or was closed by CLOSE_OUT. -/
def SinkKept (i : Instr) (s t : State) : Prop :=
  t.snk = s.snk ∨ ∃ d d', s.snk = some d ∧ d.closed = false ∧ t.snk = some d' ∧
    (SinkGrows d d' ∨ i = .closeOut ∧ d' = d.close)

theorem Worked.sourceKept {i : Instr} {s u : State} (h : Worked i s u) : SourceKept s u := by
  cases h with
  | counted hsrc =>
    obtain ⟨hbits, hpos⟩ := scanSource_source s.params.countW _
    exact .inr ⟨_, _, hsrc, rfl, hbits, fun _ => hpos⟩
  | sourceWritten hsrc =>
    obtain ⟨hbits, hpos, -⟩ := encodeBody_streamsKept s.code _ _
    exact .inr ⟨_, _, hsrc, rfl, hbits, hpos⟩
  | magicRead hsrc hread =>
    exact .inr ⟨_, _, hsrc, rfl, BitSource.readBits_bits hread, fun _ => BitSource.readBits_le hread⟩
  | treeRead hsrc hkeeps => exact .inr ⟨_, _, hsrc, rfl, hkeeps.bits_eq, hkeeps.pos_le⟩
  | noTreeRead hsrc hkeeps => exact .inr ⟨_, _, hsrc, rfl, hkeeps.bits_eq, hkeeps.pos_le⟩
  | bitDecoded _ _ hsrc =>
    obtain ⟨hbits, hpos, -⟩ := (decoding_streamsKept s _ _).1
    exact .inr ⟨_, _, hsrc, rfl, hbits, hpos⟩
  | runDecoded _ _ hsrc =>
    obtain ⟨hbits, hpos, -⟩ := (decoding_streamsKept s _ _).2
    exact .inr ⟨_, _, hsrc, rfl, hbits, hpos⟩
  | _ => exact .inl rfl

theorem Worked.sinkKept {i : Instr} {s u : State} (h : Worked i s u) : SinkKept i s u := by
  cases h with
  | magicWritten hsnk hopen => exact .inr ⟨_, _, hsnk, hopen, rfl, .inl (.writeBits _ _ _)⟩
  | treeWritten hsnk hopen hser => exact .inr ⟨_, _, hsnk, hopen, rfl, .inl (sinkGrows_ser _ hser)⟩
  | symbolWritten hsnk hopen hemit => exact .inr ⟨_, _, hsnk, hopen, rfl, .inl (sinkGrows_emit hemit)⟩
  | sourceWritten _ hsnk hopen => exact .inr ⟨_, _, hsnk, hopen, rfl, .inl (encodeBody_streamsKept s.code _ _).snk⟩
  | sinkClosed hsnk hopen => exact .inr ⟨_, _, hsnk, hopen, rfl, .inr ⟨rfl, rfl⟩⟩
  | bitDecoded _ _ _ hsnk hopen =>
    exact .inr ⟨_, _, hsnk, hopen, rfl, .inl (decoding_streamsKept s _ _).1.snk⟩
  | runDecoded _ _ _ hsnk hopen =>
    exact .inr ⟨_, _, hsnk, hopen, rfl, .inl (decoding_streamsKept s _ _).2.snk⟩
  | _ => exact .inl rfl

end Sys2Proof.Machine

namespace Sys2Proof.Proofs
open Sys2Proof Sys2Proof.Machine

/-- Settles O58: CLEAR aside, a command that goes on has worked in a way that keeps its frame, and may enter an error. -/
theorem commandsWriteOnlyWhatTheirRulesList : Obligations.CommandsWriteOnlyWhatTheirRulesList := by
  unfold Obligations.CommandsWriteOnlyWhatTheirRulesList
  intro i s t h
  rcases exec_next_cases h with ⟨rfl, rfl⟩ | ⟨-, -, rfl⟩ | ⟨-, herr, u, hw, ht⟩
  · simp
  · simp
  · have hf := hw.frame
    rcases ht with rfl | ⟨e, rfl⟩
    · exact ⟨hf.params, hf.pending, hf.reply, fun _ => hf.freq, fun _ => hf.tree, fun _ => hf.codes, fun _ => hf.decoder,
        fun _ => hf.hdrBits, fun _ => hf.encBits, hf.src, hf.snk, fun _ _ => hf.errCmd⟩
    · exact ⟨hf.params, hf.pending, hf.reply, fun _ => hf.freq, fun _ => hf.tree, fun _ => hf.codes, fun _ => hf.decoder,
        fun _ => hf.hdrBits, fun _ => hf.encBits, hf.src, hf.snk, fun _ he => absurd (he.trans herr) (code_ne_zero e)⟩

/-- Settles O60: with an error recorded a command does nothing; without one its work enters no error, so it is its own. -/
theorem firstErrorIsKeptUntilClear : Obligations.FirstErrorIsKeptUntilClear := by
  unfold Obligations.FirstErrorIsKeptUntilClear
  intro i s t h hi
  rcases exec_next_cases h with ⟨hclear, -⟩ | ⟨-, herr, rfl⟩ | ⟨-, herr, u, hw, rfl | ⟨e, rfl⟩⟩
  · exact absurd hclear hi
  · exact ⟨fun _ => ⟨rfl, rfl⟩, fun h0 => absurd h0 herr⟩
  · exact ⟨fun hne => absurd herr hne, fun _ hne => absurd (hw.frame.err.trans herr) hne⟩
  · exact ⟨fun hne => absurd herr hne, fun _ _ => rfl⟩

/-- What O59 says of the streams, from what a command other than CLEAR keeps of them. -/
theorem streams_of_kept {i : Instr} {s t : State} (hsrc : SourceKept s t) (hsnk : SinkKept i s t) :
    t.src.map (·.bits) = s.src.map (·.bits) ∧
    (∀ d, s.snk = some d → ∃ d', t.snk = some d' ∧ d.bits <+: d'.bits ∧ (d.closed = true → d' = d) ∧
      (i ≠ .closeOut → d'.closed = d.closed)) ∧
    (s.snk = none → t.snk = none) := by
  refine ⟨?_, ?_⟩
  · rcases hsrc with h | ⟨r, r', hs, ht, hbits, -⟩
    · rw [h]
    · simp [hs, ht, hbits]
  · rcases hsnk with h | ⟨d, d', hs, hopen, ht, hgrows⟩
    · exact ⟨fun d hd => ⟨d, h.trans hd, List.prefix_rfl, fun _ => rfl, fun _ => rfl⟩, h.trans⟩
    · refine ⟨fun d₁ hd => ?_, fun hnone => nomatch hs.symm.trans hnone⟩
      obtain rfl := Option.some.inj (hs.symm.trans hd)
      rcases hgrows with ⟨hbits, hclosed⟩ | ⟨rfl, rfl⟩
      · exact ⟨d', ht, hbits, fun hc => absurd (hopen.symm.trans hc) Bool.false_ne_true, fun _ => hclosed⟩
      · exact ⟨_, ht, List.prefix_append _ _, fun hc => absurd (hopen.symm.trans hc) Bool.false_ne_true, fun hne => absurd rfl hne⟩

/-- Settles O59: CLEAR, and every command while an error is recorded, leave both streams; the others keep of them what `Worked`
does, and an error entry does not touch them. -/
theorem sourceBitsAreKeptAndSinkOnlyGrows : Obligations.SourceBitsAreKeptAndSinkOnlyGrows := by
  unfold Obligations.SourceBitsAreKeptAndSinkOnlyGrows
  intro i s t h
  rcases exec_next_cases h with ⟨-, rfl⟩ | ⟨-, -, rfl⟩ | ⟨-, -, u, hw, rfl | ⟨e, rfl⟩⟩
  · exact streams_of_kept (.inl rfl) (.inl rfl)
  · exact streams_of_kept (.inl rfl) (.inl rfl)
  · exact streams_of_kept hw.sourceKept hw.sinkKept
  · exact streams_of_kept hw.sourceKept hw.sinkKept

/-- Settles O56: CLEAR, and every command while an error is recorded, answer a next state; of the other answers only those of
GEN_CODES and WRITE_TREE fault. -/
theorem faultNeedsAnInvalidTree : Obligations.FaultNeedsAnInvalidTree := by
  unfold Obligations.FaultNeedsAnInvalidTree
  intro i s f h
  rcases exec_answers i s with ⟨t, ht⟩ | ⟨-, hanswers⟩
  · exact nomatch ht.symm.trans h
  · rw [h] at hanswers
    cases hanswers with
    | fault hi hvalid hno => exact ⟨hi, hvalid, hno⟩

/-- Settles O55: the invariant excludes the fault, the bound streams the refusals. -/
theorem everyCommandCompletes : Obligations.EveryCommandCompletes := by
  unfold Obligations.EveryCommandCompletes
  intro i s hinv hbound
  rcases exec_answers i s with ht | ⟨-, hanswers⟩
  · exact ht
  · generalize exec i s = answer at hanswers
    cases hanswers with
    | next h => exact ⟨_, rfl⟩
    | error e h => exact ⟨_, rfl⟩
    | noSource hneeds hsrc => simp [streamsBound, hneeds, hsrc] at hbound
    | noSink hneeds hsnk => simp [streamsBound, hneeds, hsnk] at hbound
    | fault hi hvalid hno => exact absurd (hinv.tree_iff.1 hvalid) hno

/-- Settles O57: of the answers of a command only the two checks of a stream refuse; and each command whose earlier checks pass
makes them, the sink's before the source's. -/
theorem onlyUnboundStreamsAreRefused : Obligations.OnlyUnboundStreamsAreRefused := by
  unfold Obligations.OnlyUnboundStreamsAreRefused
  refine ⟨fun i s x h => ?_, fun s herr => ⟨fun hsrc => ?_, fun hsnk => ?_, fun d hsrc hsnk hopen => ?_⟩⟩
  · rcases exec_answers i s with ⟨t, ht⟩ | ⟨-, hanswers⟩
    · exact nomatch ht.symm.trans h
    · rw [h] at hanswers
      cases hanswers with
      | noSource hneeds hsrc => exact .inl ⟨rfl, hsrc, hneeds⟩
      | noSink hneeds hsnk => exact .inr ⟨rfl, hsnk, hneeds⟩
  · have hrun (body : BitSource → Result) : whenNoError s (needSource s body) = .refused .sourceUnbound :=
      (whenNoError_of_zero herr _).trans (needSource_of_none hsrc _)
    exact ⟨hrun _, hrun _, hrun _⟩
  · have hrun (w : Word) (body : BitSink → Result) : whenNoError s (needOpenSink w s body) = .refused .sinkUnbound :=
      (whenNoError_of_zero herr _).trans (needOpenSink_of_none w hsnk _)
    refine ⟨hrun _ _, hrun _ _, fun hvalid => ?_, fun hcodes => ?_, fun arg harg hcodes => ?_, fun hvalid hs => ?_⟩
    · exact (whenNoError_of_zero herr _).trans ((if_pos hvalid).trans (needOpenSink_of_none _ hsnk _))
    · exact (whenNoError_of_zero herr _).trans ((if_pos hcodes).trans (needOpenSink_of_none _ hsnk _))
    · obtain ⟨a, ha⟩ := exists_argSymbol harg
      exact (exec_encodeSym_of_symbol herr ha).trans ((if_pos hcodes).trans (needOpenSink_of_none _ hsnk _))
    · rw [exec_decodeBit_of_err_zero herr, exec_decodeRun_of_err_zero herr]
      exact ⟨decoding_of_no_sink _ _ hvalid hs hsnk, decoding_of_no_sink _ _ hvalid hs hsnk⟩
  · refine ⟨fun hcodes => ?_, fun hvalid hs => ?_⟩
    · exact (whenNoError_of_zero herr _).trans ((if_pos hcodes).trans
        ((needOpenSink_of_open _ hsnk hopen _).trans (needSource_of_none hsrc _)))
    · rw [exec_decodeBit_of_err_zero herr, exec_decodeRun_of_err_zero herr]
      exact ⟨decoding_of_no_source _ _ hvalid hs hsnk hopen hsrc, decoding_of_no_source _ _ hvalid hs hsnk hopen hsrc⟩

end Sys2Proof.Proofs
end

section
/-! PROOFS. Every step keeps the invariant. The fields of `Inv` a command does not write are those of the state before; the
streams are settled once for all commands; the rest is a case of `Worked` each. -/

namespace Sys2Proof.Machine

/-! ## Reset -/

theorem emptyFreq_sentinel : emptyFreq[sentinel] = 1 := Proofs.emptyFreq_get sentinel

/-- R43: the reset values satisfy the invariant, whatever streams are bound. -/
theorem clearCore_inv {s : State} (hparams : s.params.wf = true) (hpos : ∀ r, s.src = some r → r.pos ≤ r.bits.length)
    (hclosed : ∀ d, s.snk = some d → d.closed = true → d.bits.length % 8 = 0) : Inv (clearCore s) where
  params_wf := hparams
  freq_sentinel := emptyFreq_sentinel
  freq_lt a := by
    have hwidth : s.params.countW ≠ 0 := by
      rintro h
      simp [Params.wf, h] at hparams
    have hone : 1 < 2 ^ s.params.countW := Nat.one_lt_two_pow hwidth
    rw [clearCore_freq, clearCore_params, Proofs.emptyFreq_get]
    split <;> omega
  weight_lt i := by
    rw [clearCore_node, Fin.getElem_fin, emptyNodes_getElem]
    exact Nat.two_pow_pos _
  tree_iff := ⟨nofun, fun ⟨_, hT⟩ => absurd hT.root_lt (Nat.not_lt_zero _)⟩
  codes_tree := nofun
  codes_none _ := rfl
  decoder_ok := nofun
  errCmd_zero _ := rfl
  err_le := by simp
  pos_le := hpos
  closed_whole := hclosed

/-! ## The decoder -/

section
variable {s : State} {T : CodeTree}

/-- R33: a tree just installed has the decoder at its root. -/
theorem decoderOk_installTree (i : NodeIdx) (s : State) : decoderOk (installTree i s) = true := decide_eq_true rfl

/-- R33, R116: a node in use is one the decoder may move to. -/
theorem decoderOk_arrive {n : NodeIdx} (hn : n.val < s.nodeCount.val) (d : Decoding) :
    decoderOk ((arrive s.node s.root n d).store s) = true := by
  rw [arrive]
  split
  · next hk => exact decide_eq_true ⟨hn, hk⟩
  · next hk =>
    split
    · next hsym => exact decide_eq_true ⟨hn, hk, hsym⟩
    · exact decide_eq_true rfl

/-- R33: outside `DONE` the decoder stands on an internal node in use. -/
theorem internal_of_decoderOk (hT : IsTree s.node s.root s.nodeCount T) {d : Decoding}
    (hok : decoderOk (d.store s) = true) (hs : d.decState ≠ .done) :
    d.cur.val < s.nodeCount.val ∧ s.node[d.cur].kind = .internal := by
  obtain ⟨r, k, st, cur, n⟩ := d
  cases st with
  | atRoot =>
    obtain rfl : cur = s.root := of_decide_eq_true hok
    exact ⟨hT.root_lt, hT.kind_root⟩
  | atNode => exact of_decide_eq_true hok
  | done => exact absurd rfl hs

/-- R33, R117: one transition keeps the decoder on the tree. -/
theorem decoderOk_transition (hT : IsTree s.node s.root s.nodeCount T) {d : Decoding}
    (hok : decoderOk (d.store s) = true) (hs : d.decState ≠ .done) :
    decoderOk ((transition s.node s.root d).state.store s) = true := by
  rcases transition_cases s.node s.root d with ⟨-, h⟩ | ⟨b, rest, -, h⟩ <;> rw [h]
  · exact hok
  · obtain ⟨hcur, hk⟩ := internal_of_decoderOk hT hok hs
    obtain ⟨hleft, hright, -⟩ := hT.children_of_internal hcur hk
    exact decoderOk_arrive (by split <;> assumption) _

/-- R33, R119: so does the loop. -/
theorem decoderOk_transitions (hT : IsTree s.node s.root s.nodeCount T) (n : Nat) {d : Decoding}
    (hok : decoderOk (d.store s) = true) : decoderOk ((transitions s.node s.root n d).state.store s) = true := by
  induction n generalizing d with
  | zero => rw [transitions]; split <;> exact hok
  | succ n ih =>
    rw [transitions]
    split
    · exact hok
    · next hs =>
      have hnext := decoderOk_transition hT hok hs
      split
      · next h => exact (h ▸ hnext :)
      · next h => exact ih (h ▸ hnext :)

end

/-! ## The commands -/

theorem pos_le_of_sourceKept {s t : State} (h : SourceKept s t) (hinv : Inv s) (r : BitSource) (hr : t.src = some r) :
    r.pos ≤ r.bits.length := by
  rcases h with h | ⟨r₀, r', hs, ht, -, hpos⟩
  · exact hinv.pos_le r (h ▸ hr)
  · obtain rfl := Option.some.inj (ht.symm.trans hr)
    exact hpos (hinv.pos_le r₀ hs)

/-- R52: CLOSE_OUT, which alone closes a sink, fills it up to whole bytes. -/
theorem closed_whole_of_sinkKept {i : Instr} {s t : State} (h : SinkKept i s t) (hinv : Inv s) (d : BitSink)
    (hd : t.snk = some d) (hclosed : d.closed = true) : d.bits.length % 8 = 0 := by
  rcases h with h | ⟨d₀, d', -, hopen, ht, hgrows⟩
  · exact hinv.closed_whole d (h ▸ hd) hclosed
  · obtain rfl := Option.some.inj (ht.symm.trans hd)
    rcases hgrows with hgrows | ⟨-, rfl⟩
    · exact absurd (hopen.symm.trans (hgrows.closed.symm.trans hclosed)) Bool.false_ne_true
    · exact BitSink.close_whole d₀

/-- R21, R22: what FREQ_SCAN counts fits, the sentinel counted once. -/
theorem scanSource_freq {countW : Nat} (hwidth : ∀ a : Symbol, emptyFreq[a] < 2 ^ countW) (r : BitSource) :
    (scanSource countW r).state.freq[sentinel] = 1 ∧ ∀ a : Symbol, (scanSource countW r).state.freq[a] < 2 ^ countW := by
  obtain ⟨-, -, hs, hlt⟩ := countBytes_keeps (countW := countW) r.resetToStart.remaining
    { src := r.resetToStart, freq := emptyFreq } (Nat.zero_le _) emptyFreq_sentinel hwidth _
    (Ran.eq_done_or_raised (scanSource countW r))
  exact ⟨hs, hlt⟩

/-- R126: entering an error keeps the invariant. -/
theorem Inv.errorEntry {s : State} (h : Inv s) (e : Err) (w : Word) : Inv (errorEntry e w s) :=
  { h with errCmd_zero := fun h0 => absurd h0 (code_ne_zero e), err_le := code_le e }

/-- A command other than CLEAR works in a way that keeps the invariant. -/
theorem Worked.inv {i : Instr} {s u : State} (h : Worked i s u) (hinv : Inv s) : Inv u := by
  have hpos := pos_le_of_sourceKept h.sourceKept hinv
  have hclosed := closed_whole_of_sinkKept h.sinkKept hinv
  cases h with
  | nothing => exact hinv
  | counted hsrc =>
    obtain ⟨hs, hlt⟩ := scanSource_freq (clearCore_inv hinv.params_wf hinv.pos_le hinv.closed_whole).freq_lt _
    exact { hinv with freq_sentinel := hs, freq_lt := hlt, pos_le := hpos }
  | dropped hzero => exact absurd ((hzero sentinel).symm.trans hinv.freq_sentinel) Nat.zero_ne_one
  | built =>
    obtain ⟨T, hbuilt⟩ := exists_builtFrom (freq := s.freq) (hinv.freq_sentinel ▸ Nat.one_pos)
    generalize builtTree s.freq = b at hbuilt ⊢
    exact { hinv with
      weight_lt := fun i => Nat.lt_of_le_of_lt (hbuilt.weight.2 i) (sum_toList_lt hinv.freq_lt)
      tree_iff := ⟨fun _ => ⟨T, hbuilt.isTree⟩, fun _ => rfl⟩
      codes_tree := nofun
      codes_none := fun _ => rfl
      decoder_ok := fun _ => decoderOk_installTree _ _ }
  | cleared hvalid =>
    exact { hinv with
      codes_tree := fun _ hv => absurd (hvalid.symm.trans hv) Bool.false_ne_true
      codes_none := fun _ => rfl }
  | coded hvalid hwalk =>
    obtain ⟨T, hT⟩ := hinv.tree_iff.1 hvalid
    exact { hinv with
      codes_tree := fun _ _ => ⟨T, hT, Option.some.inj (hwalk.symm.trans (walk_root hT))⟩
      codes_none := fun hnone => absurd ⟨rfl, hvalid⟩ hnone }
  | magicWritten => exact { hinv with closed_whole := hclosed }
  | treeWritten => exact { hinv with closed_whole := hclosed }
  | symbolWritten => exact { hinv with closed_whole := hclosed }
  | sourceWritten => exact { hinv with pos_le := hpos, closed_whole := hclosed }
  | sinkClosed => exact { hinv with closed_whole := hclosed }
  | magicRead => exact { hinv with pos_le := hpos }
  | treeRead _ hkeeps hT =>
    exact { hinv with
      weight_lt := fun i => (hkeeps.weights (start_weights_zero _) i).trans_lt (Nat.two_pow_pos _)
      tree_iff := ⟨fun _ => ⟨_, hT⟩, fun _ => rfl⟩
      codes_tree := nofun
      codes_none := fun _ => rfl
      decoder_ok := fun _ => decoderOk_installTree _ _
      pos_le := hpos }
  | noTreeRead _ hkeeps hno =>
    exact { hinv with
      weight_lt := fun i => (hkeeps.weights (start_weights_zero _) i).trans_lt (Nat.two_pow_pos _)
      tree_iff := ⟨nofun, fun hT => absurd hT hno⟩
      codes_tree := nofun
      codes_none := fun _ => rfl
      decoder_ok := nofun
      pos_le := hpos }
  | bitDecoded hvalid hs hsrc hsnk =>
    obtain ⟨T, hT⟩ := hinv.tree_iff.1 hvalid
    exact { hinv with
      decoder_ok := fun _ => decoderOk_transition (d := decodingOf s _ _) hT (hinv.decoder_ok hvalid) hs
      pos_le := hpos
      closed_whole := hclosed }
  | runDecoded hvalid hs hsrc hsnk =>
    obtain ⟨T, hT⟩ := hinv.tree_iff.1 hvalid
    exact { hinv with
      decoder_ok := fun _ => decoderOk_transitions (d := decodingOf s _ _) hT _ (hinv.decoder_ok hvalid)
      pos_le := hpos
      closed_whole := hclosed }

theorem exec_inv {i : Instr} {s t : State} (hinv : Inv s) (h : exec i s = .next t) : Inv t := by
  rcases exec_next_cases h with ⟨-, rfl⟩ | ⟨-, -, rfl⟩ | ⟨-, -, u, hw, rfl | ⟨e, rfl⟩⟩
  · exact clearCore_inv hinv.params_wf hinv.pos_le hinv.closed_whole
  · exact hinv
  · exact hw.inv hinv
  · exact (hw.inv hinv).errorEntry e _

theorem issue_inv {w : Word} {s t : State} (hinv : Inv s) (h : issue w s = .next t) : Inv t := by
  cases hw : decode w with
  | command i => exact exec_inv hinv ((hostStep_issue hw s).symm.trans h)
  | illegal why =>
    rw [issue_of_illegal hw] at h
    by_cases herr : s.err = 0
    · rw [illegalWord_of_err_zero herr] at h
      exact Host.Outcome.next.inj h ▸ hinv.errorEntry _ w
    · rw [illegalWord_of_err_ne herr] at h
      exact Host.Outcome.next.inj h ▸ hinv

theorem hostStep_inv {op : HostOp} {s t : State} (hinv : Inv s) (h : hostStep op s = .next t) : Inv t := by
  cases op with
  | issue w => exact issue_inv hinv h
  | hostRead space index =>
    obtain rfl := Host.Outcome.next.inj h
    exact { hinv with }
  | bindSource bits =>
    obtain rfl := Host.Outcome.next.inj h
    exact { hinv with pos_le := fun r hr => Option.some.inj hr ▸ Nat.zero_le _ }
  | bindSink =>
    obtain rfl := Host.Outcome.next.inj h
    exact { hinv with closed_whole := fun d hd _ => Option.some.inj hd ▸ rfl }
  | takeSink =>
    cases hsnk : s.snk with
    | none => simp [hostStep, takeSink, hsnk] at h
    | some d =>
      obtain rfl := Host.Outcome.next.inj ((takeSink_of_bound hsnk).symm.trans h)
      exact { hinv with }
  | powerOn =>
    obtain rfl := Host.Outcome.next.inj h
    exact clearCore_inv hinv.params_wf hinv.pos_le hinv.closed_whole

end Sys2Proof.Machine

namespace Sys2Proof.Proofs
open Sys2Proof Sys2Proof.Machine

/-- Settles O52: the reset state is its own core state cleared, with no stream bound. -/
theorem resetSatisfiesTheInvariant : Obligations.ResetSatisfiesTheInvariant :=
  clearCore_inv (s := State.reset) (by decide) nofun nofun

/-- Settles O53: a step is idle or is the host's next operation, of which each keeps the invariant. -/
theorem everyStepKeepsTheInvariant : Obligations.EveryStepKeepsTheInvariant := by
  unfold Obligations.EveryStepKeepsTheInvariant
  intro s t hinv h
  cases hpending : s.pending with
  | nil => exact Host.Outcome.next.inj ((step_of_idle hpending).symm.trans h) ▸ hinv
  | cons op rest =>
    have hrest : Inv { s with pending := rest } := { hinv with }
    exact hostStep_inv hrest ((step_of_queued hpending).symm.trans h)

end Sys2Proof.Proofs
end

section
/-! PROOFS. The host's two calls (R58, R144, R145): what COMPRESS leaves, and what DECOMPRESS does on a stream without `MAGIC`. -/

namespace Sys2Proof.Machine

/-- R97, R103, R112, R114: the decoder stays at the root under every command but DECODE_BIT and DECODE_RUN, BUILD_TREE and
READ_TREE putting it there. -/
theorem exec_decState_atRoot {i : Instr} {s t : State} (hbit : i ≠ .decodeBit) (hrun : i ≠ .decodeRun)
    (hs : s.decState = .atRoot) (h : exec i s = .next t) : t.decState = .atRoot := by
  have hworked {u : State} (hw : Worked i s u) : u.decState = .atRoot := by
    cases hw with
    | bitDecoded => exact absurd rfl hbit
    | runDecoded => exact absurd rfl hrun
    | built => rfl
    | treeRead => rfl
    | _ => exact hs
  rcases exec_next_cases h with ⟨-, rfl⟩ | ⟨-, -, rfl⟩ | ⟨-, -, u, hw, rfl | ⟨e, rfl⟩⟩
  · rfl
  · exact hs
  · exact hworked hw
  · exact hworked (u := u) hw

theorem issue_decState_atRoot {w : Word} {s t : State}
    (hw : decode w ≠ .command .decodeBit ∧ decode w ≠ .command .decodeRun) (hs : s.decState = .atRoot)
    (h : issue w s = .next t) : t.decState = .atRoot := by
  cases hd : decode w with
  | command i =>
    exact exec_decState_atRoot (fun hi => hw.1 (hi ▸ hd)) (fun hi => hw.2 (hi ▸ hd)) hs ((hostStep_issue hd s).symm.trans h)
  | illegal why =>
    rw [issue_of_illegal hd] at h
    by_cases herr : s.err = 0
    · rw [illegalWord_of_err_zero herr] at h
      exact Host.Outcome.next.inj h ▸ hs
    · rw [illegalWord_of_err_ne herr] at h
      exact Host.Outcome.next.inj h ▸ hs

theorem runHost_decState_atRoot {words : List Word}
    (hwords : ∀ w ∈ words, decode w ≠ .command .decodeBit ∧ decode w ≠ .command .decodeRun) {s t : State}
    (hs : s.decState = .atRoot) (h : runHost (words.map .issue) s = .next t) : t.decState = .atRoot := by
  induction words generalizing s with
  | nil => exact Host.Outcome.next.inj h ▸ hs
  | cons w words ih =>
    rw [List.map_cons, runHost] at h
    split at h
    · next u hstep =>
      exact ih (fun v hv => hwords v (List.mem_cons_of_mem w hv))
        (issue_decState_atRoot (hwords w List.mem_cons_self) hs hstep) h
    · exact nomatch h
    · exact nomatch h

/-- R80: no command of COMPRESS is DECODE_BIT or DECODE_RUN. -/
theorem decode_compressWords_ne :
    ∀ w ∈ compressWords, decode w ≠ .command .decodeBit ∧ decode w ≠ .command .decodeRun := by
  simp [compressWords, decode_eq_command_iff, Instr.wf, encode]

/-- R29, R145: `STATUS` after a compression: a tree and codes, the decoder at the root, the sink closed, no error. -/
theorem statusWord_of_compressed {s : State} {d : BitSink} (hvalid : s.treeValid = true) (hcodes : s.codesValid = true)
    (hs : s.decState = .atRoot) (hsnk : s.snk = some d) (hclosed : d.closed = true) (herr : s.err = 0) :
    statusWord s = 0x0013 := by
  simp [statusWord, sinkClosedBit, DecState.code, hvalid, hcodes, hs, hsnk, hclosed, herr]

/-- R80, R145: COMPRESS on bytes whose counts fit, from a state whose decoder is at the root: the stream it writes, and `STATUS`. -/
theorem runHost_compress_status {s : State} {bytes : List (BitVec 8)} (herr : s.err = 0) (hs : s.decState = .atRoot)
    (hsrc : s.src = some (BitSource.bind (bitsOfBytes bytes))) (hsnk : s.snk = some BitSink.empty)
    (hfit : ∀ b, bytes.count b < 2 ^ s.params.countW) :
    ∃ (t : State) (T : CodeTree), runHost (compressWords.map .issue) s = .next t ∧ t.err = 0 ∧
      IsTree t.node t.root t.nodeCount T ∧ statusWord t = 0x0013 ∧
      t.snk = some (BitSink.close
        { bits := bitsOf 32 s.params.magic.toNat ++ T.header ++ pathBody T bytes, closed := false }) := by
  have hcounts := count_map_toNat_lt hfit
  rw [← wholeBytes_bitsOfBytes] at hcounts
  obtain ⟨t, T, hrun, hT, hleaves, hterr, hvalid, hcodes, hcode, hparams, htsrc, htsnk⟩ :=
    runHost_analyze herr hsrc hcounts [.issue 0x5000, .issue 0x6000, .issue 0x8000, .issue 0x9000]
  have hwrite := runHost_write hterr hvalid hcodes hT hcode htsrc (htsnk.trans hsnk) rfl hleaves
  rw [BitSource.bind_bits, wholeBytes_bitsOfBytes] at hleaves hwrite
  have hbody : bodyOf t.code (bytes.map (·.toNat)) = pathBody T bytes := by
    rw [hcode, bodyOf_codeTableOf hT fun b hb => hleaves _ (List.mem_map_of_mem hb)]
  have hroot := runHost_decState_atRoot decode_compressWords_ne hs (hrun.trans hwrite)
  refine ⟨_, T, hrun.trans hwrite, hterr, hT, statusWord_of_compressed hvalid hcodes hroot rfl rfl hterr, ?_⟩
  simp only [hbody, hparams, BitSink.empty, List.nil_append]

/-- R81: no command of DECOMPRESS is CLEAR. -/
theorem decode_decompressWords_ne : ∀ w ∈ decompressWords, decode w ≠ .command .clear := by
  simp [decompressWords, decode_eq_clear_iff]

/-- R104, R125: on bits that do not begin with `MAGIC` DECOMPRESS only raises BAD_MAGIC and may move the source. -/
theorem runHost_decompress_of_bad_magic {s : State} {r : BitSource} (herr : s.err = 0) (hsrc : s.src = some r)
    (hbits : (r.bits.drop r.pos).take 32 ≠ bitsOf 32 s.params.magic.toNat) :
    ∃ r', runHost (decompressWords.map .issue) s =
      .next (errorEntry .badMagic 0xA000 { s with src := some r' }) := by
  obtain ⟨r', hmagic⟩ : ∃ r', exec .readMagic s = .next (errorEntry .badMagic 0xA000 { s with src := some r' }) := by
    by_cases hlen : r.pos + 32 ≤ r.bits.length
    · exact ⟨_, exec_readMagic_of_other herr hsrc hlen hbits⟩
    · exact ⟨r, hsrc ▸ exec_readMagic_of_short herr hsrc (Nat.lt_of_not_le hlen)⟩
  refine ⟨r', ?_⟩
  change runHost (.issue 0xA000 :: decompressWords.tail.map .issue) s = _
  rw [runHost_issue_cons (i := .readMagic) (by decide) hmagic]
  exact runHost_issues_of_err_ne (fun w hw => decode_decompressWords_ne w (List.mem_of_mem_tail hw))
    (code_ne_zero .badMagic)

end Sys2Proof.Machine

namespace Sys2Proof.Proofs
open Sys2Proof Sys2Proof.Machine

/-- Settles O45: the call is COMPRESS from the reset core state with the bytes bound, then a read of `STATUS`. -/
theorem compressWritesTheWireFormat : Obligations.CompressWritesTheWireFormat := by
  unfold Obligations.CompressWritesTheWireFormat
  intro s bytes hfit
  obtain ⟨t, T, hrun, herr, hT, hstatus, hsnk⟩ :=
    runHost_compress_status (s := bindStreams (bitsOfBytes bytes) (clearCore s)) rfl rfl rfl rfl hfit
  have hcall := runHost_hostCall hrun
  rw [hstatus] at hcall
  refine ⟨_, T, _, hcall, herr, rfl, hT, (BitSink.padLength_spec _).1, ?_, hsnk.trans (by rw [← bitsOf_magic]; rfl)⟩
  rw [sinkBits, hsnk]
  exact BitSink.close_whole _

/-- Settles O47: the first command of the call raises BAD_MAGIC, and the others have no effect. -/
theorem corruptMagicProducesNoOutput : Obligations.CorruptMagicProducesNoOutput := by
  unfold Obligations.CorruptMagicProducesNoOutput
  intro s stream hstream
  rw [← bitsOf_magic] at hstream
  obtain ⟨r', hrun⟩ := runHost_decompress_of_bad_magic (s := bindStreams stream (clearCore s)) rfl rfl hstream
  exact ⟨_, runHost_hostCall hrun, rfl, rfl, rfl, rfl, rfl⟩

end Sys2Proof.Proofs
end

section
/-! PROOFS. The written form (R79 to R81): a line splits into a name and what stands behind it; a number written in base 10 or 16 is
read back. -/

namespace Sys2Proof.Machine

/-! ## A line's name -/

theorem not_isBlank_of_inWord {c : Char} (h : inWord c = true) : isBlank c = false := by
  rw [inWord, Bool.and_eq_true, Bool.not_eq_true'] at h
  exact h.1

theorem ne_semicolon_of_inWord {c : Char} (h : inWord c = true) : c ≠ ';' := by
  rw [inWord, Bool.and_eq_true] at h
  exact of_decide_eq_true h.2

section
variable {name rest : List Char} (hname : ∀ c ∈ name, inWord c = true) (hne : name ≠ [])
include hname

include hne in
/-- R79: nothing is skipped before a name, and a name is not nothing. -/
theorem line_of_name : (name ++ rest).dropWhile isBlank = name ++ rest ∧ atLineEnd (name ++ rest) = false := by
  obtain ⟨c, cs, rfl⟩ := List.exists_cons_of_ne_nil hne
  have hc := hname c List.mem_cons_self
  have hdrop : (c :: cs ++ rest).dropWhile isBlank = c :: cs ++ rest := by
    simp [not_isBlank_of_inWord hc]
  refine ⟨hdrop, ?_⟩
  rw [atLineEnd, hdrop]
  exact decide_eq_false (ne_semicolon_of_inWord hc)

/-- R79: a name ends at the first character that is not one of a name's. -/
theorem split_name (hrest : ∀ c ∈ rest.head?, inWord c = false) :
    (name ++ rest).takeWhile inWord = name ∧ (name ++ rest).dropWhile inWord = rest := by
  rw [List.takeWhile_append_of_pos hname, List.dropWhile_append_of_pos hname]
  cases rest with
  | nil => simp
  | cons c cs => simp [hrest c rfl]

include hne

/-- R79 to R81: a name alone on its line, or before a comment, is looked up. -/
theorem assembleLine_name (hsym : name ≠ mnemonic (.encodeSym 0)) (hrest : rest = [] ∨ ∃ comment, rest = ';' :: comment) :
    assembleLine (name ++ rest) = (namedWords.find? fun p => p.1 = name).map (·.2) := by
  obtain ⟨hhead, hend⟩ : (∀ c ∈ rest.head?, inWord c = false) ∧ atLineEnd rest = true := by
    rcases hrest with rfl | ⟨comment, rfl⟩
    · exact ⟨nofun, rfl⟩
    · exact ⟨fun c hc => Option.some.inj hc ▸ rfl, rfl⟩
  obtain ⟨hdrop, hline⟩ := line_of_name (rest := rest) hname hne
  obtain ⟨htake, hleft⟩ := split_name hname hhead
  simp only [assembleLine, hdrop, hline, htake, hleft, hsym, hend, if_false, if_true, Bool.false_eq_true]

end

/-- R79: ENCODE_SYM with an operand that is the whole rest of the line. -/
theorem assembleLine_encodeSym {operand : List Char} {v : Nat} (hv : v ≤ 256)
    (hoperand : operand? (operand.dropWhile isBlank) = some (v, [])) :
    assembleLine ("ENCODE_SYM ".toList ++ operand) = some [BitVec.ofNat 16 (0x7000 + v)] := by
  have hname : ∀ c ∈ mnemonic (.encodeSym 0), inWord c = true := List.all_eq_true.1 (by decide)
  have hline : "ENCODE_SYM ".toList ++ operand = mnemonic (.encodeSym 0) ++ ' ' :: operand := rfl
  obtain ⟨hdrop, hend⟩ := line_of_name (rest := ' ' :: operand) hname nofun
  obtain ⟨htake, hleft⟩ := split_name (rest := ' ' :: operand) hname fun c hc => Option.some.inj hc ▸ rfl
  have hblank : (' ' :: operand).dropWhile isBlank = operand.dropWhile isBlank := rfl
  have hword : encode (.encodeSym (BitVec.ofNat 9 v)) = BitVec.ofNat 16 (0x7000 + v) := by
    rw [encode_encodeSym_eq, BitVec.toNat_ofNat, Nat.mod_eq_of_lt (by omega)]
  have hnothing : atLineEnd [] = true := rfl
  simp only [hline, assembleLine, hdrop, hend, htake, hleft, hblank, hoperand, hv, hnothing, hword, Bool.false_eq_true,
    decide_true, Bool.and_self, if_true, if_false]

/-! ## Numbers -/

/-- What has to be known of a base: it has more than one digit, and the digits the library writes are those the model reads. -/
structure ReadsBase (base : Nat) : Prop where
  one_lt : 1 < base
  digitOf : ∀ k < base, digitOf? base k.digitChar = some k

theorem readsBase_ten : ReadsBase 10 := ⟨by decide, by decide⟩

theorem readsBase_sixteen : ReadsBase 16 := ⟨by decide, by decide⟩

theorem digitsFrom_append_digit (base v : Nat) (cs : List Char) (c : Char) :
    digitsFrom base v (cs ++ [c]) =
      (digitsFrom base v cs).bind fun u => (digitOf? base c).map fun k => base * u + k := by
  induction cs generalizing v with
  | nil =>
    cases h : digitOf? base c <;> simp [digitsFrom, h]
  | cons d ds ih =>
    rw [List.cons_append, digitsFrom, digitsFrom]
    cases digitOf? base d with
    | none => rfl
    | some k => exact ih _

/-- R79: a number's digits are read back as the number. -/
theorem digitsFrom_toDigits {base : Nat} (hbase : ReadsBase base) (v : Nat) :
    digitsFrom base 0 (Nat.toDigits base v) = some v := by
  induction v using Nat.strong_induction_on with
  | _ v ih =>
    by_cases hv : v < base
    · rw [Nat.toDigits_of_lt_base hv, digitsFrom, hbase.digitOf v hv]
      simp [digitsFrom]
    · have hle := Nat.le_of_not_lt hv
      have hpos := Nat.zero_lt_of_lt hbase.one_lt
      rw [Nat.toDigits_of_base_le hbase.one_lt hle, digitsFrom_append_digit,
        ih (v / base) (Nat.div_lt_self (hpos.trans_le hle) hbase.one_lt), hbase.digitOf _ (Nat.mod_lt v hpos)]
      exact congrArg some (Nat.div_add_mod v base)

theorem mem_toDigits {base : Nat} (hbase : 1 < base) {c : Char} {v : Nat} (h : c ∈ Nat.toDigits base v) :
    ∃ k < base, c = k.digitChar := by
  induction v using Nat.strong_induction_on with
  | _ v ih =>
    by_cases hv : v < base
    · rw [Nat.toDigits_of_lt_base hv, List.mem_singleton] at h
      exact ⟨v, hv, h⟩
    · have hle := Nat.le_of_not_lt hv
      have hpos := Nat.zero_lt_of_lt hbase
      rw [Nat.toDigits_of_base_le hbase hle, List.mem_append, List.mem_singleton] at h
      rcases h with h | h
      · exact ih _ (Nat.div_lt_self (hpos.trans_le hle) hbase) h
      · exact ⟨v % base, Nat.mod_lt v hpos, h⟩

/-- A digit in base 16 is a character of a number, and no quote. -/
theorem digitChar_spec : ∀ k < 16, inWord k.digitChar = true ∧ k.digitChar ≠ '\'' := by decide

/-- A digit in base 10 is none of the letters that mark `EOS` and hexadecimal numbers. -/
theorem digitChar_ne_letter : ∀ k < 10, k.digitChar ≠ 'E' ∧ k.digitChar ≠ 'x' := by decide

theorem digit_of_mem_toDigits {base v : Nat} (hbase : 1 < base) (hle : base ≤ 16) :
    ∀ c ∈ Nat.toDigits base v, inWord c = true ∧ c ≠ '\'' := by
  intro c hc
  obtain ⟨k, hk, rfl⟩ := mem_toDigits hbase hc
  exact digitChar_spec k (hk.trans_le hle)

/-! ## Operands -/

/-- R79: an operand without a quote that fills the rest of the line. -/
theorem operand?_word {cs : List Char} (h : ∀ c ∈ cs, inWord c = true ∧ c ≠ '\'') (hne : cs ≠ []) :
    operand? (cs.dropWhile isBlank) = (wordOperand? cs).map fun v => (v, []) := by
  have hword (c : Char) (hc : c ∈ cs) : inWord c = true := (h c hc).1
  have hline := (line_of_name (rest := []) hword hne).1
  obtain ⟨htake, hleft⟩ := split_name (rest := []) hword nofun
  rw [List.append_nil] at hline htake hleft
  rw [hline, operand?, htake, hleft]
  rintro c rest rfl
  exact (h '\'' List.mem_cons_self).2 rfl

theorem wordOperand?_decimal (v : Nat) : wordOperand? (Nat.toDigits 10 v) = some v := by
  have hletter (c : Char) (hc : c ∈ Nat.toDigits 10 v) : c ≠ 'E' ∧ c ≠ 'x' := by
    obtain ⟨k, hk, rfl⟩ := mem_toDigits (by decide) hc
    exact digitChar_ne_letter k hk
  have hread := digitsFrom_toDigits readsBase_ten v
  have hne : Nat.toDigits 10 v ≠ [] := Nat.toDigits_ne_nil
  generalize Nat.toDigits 10 v = cs at *
  unfold wordOperand?
  split
  · exact absurd rfl hne
  · exact absurd rfl (hletter 'E' List.mem_cons_self).1
  · exact absurd rfl (hletter 'x' (List.mem_cons_of_mem _ List.mem_cons_self)).2
  · exact hread

theorem wordOperand?_hexadecimal (v : Nat) : wordOperand? ('0' :: 'x' :: Nat.toDigits 16 v) = some v := by
  have hread := digitsFrom_toDigits readsBase_sixteen v
  obtain ⟨c, cs, hcs⟩ := List.exists_cons_of_ne_nil (Nat.toDigits_ne_nil (b := 16) (n := v))
  rw [hcs] at hread ⊢
  exact hread

theorem operand?_quoted {c : Char} (h : c.toNat < 128) : operand? ['\'', c, '\''] = some (c.toNat, []) := if_pos h

end Sys2Proof.Machine

namespace Sys2Proof.Proofs
open Sys2Proof Sys2Proof.Machine

/-- R79: what the assembler looks up for the operand-free commands' mnemonics. -/
theorem operandFree_names : ∀ i ∈ operandFreeCommands, (mnemonic i).all inWord = true ∧ mnemonic i ≠ [] ∧
    mnemonic i ≠ mnemonic (.encodeSym 0) ∧ (namedWords.find? fun p => p.1 = mnemonic i).map (·.2) = some [encode i] := by
  decide +kernel

/-- Settles O11: names are looked up, and ENCODE_SYM's operand is read in each of its forms. -/
theorem assemblerReadsTheWrittenForm : Obligations.AssemblerReadsTheWrittenForm := by
  unfold Obligations.AssemblerReadsTheWrittenForm
  refine ⟨fun i hi comment => ?_, fun v hv => ⟨?_, ?_⟩, fun c hc => ?_, ?_⟩
  · obtain ⟨hname, hne, hsym, hfind⟩ := operandFree_names i hi
    rw [List.all_eq_true] at hname
    have hbare := assembleLine_name (rest := []) hname hne hsym (.inl rfl)
    rw [List.append_nil] at hbare
    exact ⟨hbare.trans hfind, (assembleLine_name hname hne hsym (.inr ⟨comment, rfl⟩)).trans hfind⟩
  · refine assembleLine_encodeSym hv ?_
    rw [operand?_word (digit_of_mem_toDigits (by decide) (by decide)) Nat.toDigits_ne_nil, wordOperand?_decimal]
    rfl
  · have hchars : ∀ c ∈ '0' :: 'x' :: Nat.toDigits 16 v, inWord c = true ∧ c ≠ '\'' :=
      List.forall_mem_cons.2 ⟨by decide, List.forall_mem_cons.2 ⟨by decide, digit_of_mem_toDigits (by decide) (by decide)⟩⟩
    refine assembleLine_encodeSym (operand := '0' :: 'x' :: Nat.toDigits 16 v) hv ?_
    rw [operand?_word hchars nofun, wordOperand?_hexadecimal]
    rfl
  · exact assembleLine_encodeSym (by omega) (operand?_quoted hc)
  · decide +kernel

end Sys2Proof.Proofs
end
